-- ==== Sys2Proof/Word.lean ====
section
/-! DEFINITION. The word types of the BraVuMeter level core (00_scope.md R10, R11; 30_encoding.md R48, R55), its two channels (R50) and its two command ports (10_state.md R16). -/

namespace Sys2Proof

/-- One byte of the output stream (20_memory.md R42). -/
abbrev Byte := BitVec 8

/-- An IEEE 754 binary32 datum, held as its 32-bit pattern (00_scope.md R11). -/
abbrev F32 := BitVec 32

/-- An unsigned 32-bit operand, `u32` (00_scope.md R10). -/
abbrev U32 := BitVec 32

/-- A command word: 72 bits, bit 0 the least significant (30_encoding.md R48). -/
abbrev CommandWord := BitVec 72

/-- A response word: 36 bits, CODE in 3:0 and DATA in 35:4 (30_encoding.md R55). -/
abbrev ResponseWord := BitVec 36

/-- The smoother channels: channel 0 is left, channel 1 is right (30_encoding.md R50). -/
inductive Chan where
  | left
  | right
  deriving DecidableEq, Repr

/-- The command ports: PA for the audio context, PE for the encode context (10_state.md R16). -/
inductive Port where
  | pa
  | pe
  deriving DecidableEq, Repr

end Sys2Proof
end

