-- ==== Sys2Proof/Syntax.lean ====
section
/-! DEFINITION. The commands of the BVM-LC command set, version 1: one constructor per row of the opcode map (30_encoding.md R53). -/

namespace Sys2Proof

/-- A legal command with the operands its row names (30_encoding.md R52, R53). Fields of the word
that the operation does not use are no part of it. -/
inductive Instr where
  /-- NOP: do nothing (42_control.md R101). -/
  | nop
  /-- INIT c, fs, T: initialise a channel (40_smoother.md R67). -/
  | init (c : Chan) (fs : F32) (t : F32)
  /-- ADVANCE c, n: move a channel's ramp on by n samples (40_smoother.md R69). -/
  | advance (c : Chan) (n : U32)
  /-- UPDATE c, g: register a channel's RMS gain (40_smoother.md R71). -/
  | update (c : Chan) (g : F32)
  /-- GETCUR c: read a channel's current value (40_smoother.md R73). -/
  | getcur (c : Chan)
  /-- SAMPLE: pull both current values into the encoder (41_quantizer_framer.md R88). -/
  | sample
  /-- SETLEVELS l, r: store the two readings (41_quantizer_framer.md R87). -/
  | setlevels (l : F32) (r : F32)
  /-- ENCODE: quantise the two readings and emit one frame (41_quantizer_framer.md R89). -/
  | encode
  /-- GETDISP: read the blended display value (41_quantizer_framer.md R90). -/
  | getdisp
  /-- GETSTAT: read STATUS (42_control.md R102). -/
  | getstat
  deriving DecidableEq, Repr

end Sys2Proof
end

