-- ==== Sys2Proof/WellFormed.lean ====
section
/-! DEFINITION. The fields of a command word (30_encoding.md R48) and the checks that make a word legal (R50, R51, R54). An `Instr` is legal by its type; these checks are on words. -/

namespace Sys2Proof

/-- The five fields of a command word (30_encoding.md R48). -/
structure Fields where
  /-- `OP`, bits 3:0. -/
  op : BitVec 4
  /-- `CH`, bit 4. -/
  ch : BitVec 1
  /-- `RSV`, bits 7:5. -/
  rsv : BitVec 3
  /-- `A`, bits 39:8. -/
  a : BitVec 32
  /-- `B`, bits 71:40. -/
  b : BitVec 32
  deriving DecidableEq, Repr

/-- Why a word is an IllegalCommand (30_encoding.md R54). All three have the one effect of
60_exceptions.md R105; which is named first when several hold is not observable. -/
inductive EncodingError where
  /-- `OP` is 0xA to 0xF. -/
  | reservedOperation
  /-- `RSV` is not 0. -/
  | reservedBits
  /-- `CH` is 1 on an operation without a channel. -/
  | channelBit
  deriving DecidableEq, Repr

/-- The operations that name a channel: INIT, ADVANCE, UPDATE and GETCUR (30_encoding.md R50). -/
def usesChannel (op : BitVec 4) : Bool :=
  op == 1#4 || op == 2#4 || op == 3#4 || op == 4#4

/-- The first check of 30_encoding.md R54 that the fields fail, if any. -/
def Fields.violation (f : Fields) : Option EncodingError :=
  if 10 ≤ f.op.toNat then some .reservedOperation
  else if f.rsv ≠ 0#3 then some .reservedBits
  else if f.ch = 1#1 ∧ usesChannel f.op = false then some .channelBit
  else none

/-- The fields form a legal command (30_encoding.md R54). -/
def Fields.wellFormed (f : Fields) : Bool := f.violation.isNone

end Sys2Proof
end

