-- ==== Sys2Proof/Decode.lean ====
section
/-! DEFINITION. The decoder of command words and, after it, the encoder (30_encoding.md R48 to R54, R57, R59). -/

namespace Sys2Proof

/-- The fields of a word, each taken whole (30_encoding.md R48, R52). -/
def fieldsOf (w : CommandWord) : Fields where
  op := w.extractLsb' 0 4
  ch := w.extractLsb' 4 1
  rsv := w.extractLsb' 5 3
  a := w.extractLsb' 8 32
  b := w.extractLsb' 40 32

/-- `c = zext(CH)`: 0 is left, 1 is right (30_encoding.md R50). -/
def chanOf (ch : BitVec 1) : Chan := if ch = 0#1 then .left else .right

/-- The opcode map (30_encoding.md R53), on the fields of a word; an illegal word is rejected by the
name of the check it fails (R54). A field the operation does not use is ignored (R52). -/
def decodeFields (f : Fields) : Except EncodingError Instr :=
  match f.violation with
  | some e => .error e
  | none =>
    match f.op.toNat with
    | 0 => .ok .nop
    | 1 => .ok (.init (chanOf f.ch) f.a f.b)
    | 2 => .ok (.advance (chanOf f.ch) f.a)
    | 3 => .ok (.update (chanOf f.ch) f.a)
    | 4 => .ok (.getcur (chanOf f.ch))
    | 5 => .ok .sample
    | 6 => .ok (.setlevels f.a f.b)
    | 7 => .ok .encode
    | 8 => .ok .getdisp
    | 9 => .ok .getstat
    | _ => .error .reservedOperation

/-- The decoder: total on every 72-bit word, and there is no other length (30_encoding.md R57). -/
def decode (w : CommandWord) : Except EncodingError Instr := decodeFields (fieldsOf w)

/-- The decoder's instruction for a row of spec/opcode_table.json: `w` holds the low `nbits` bits of
the command word and every bit above them is 0. The word is delivered whole and in parallel
(20_memory.md R36), so there is no byte order to lay out. -/
def decodeTableWord (nbits w : Nat) : Option Instr :=
  match decode (BitVec.ofNat 72 (w % 2 ^ nbits)) with
  | .ok i => some i
  | .error _ => none

/-- The CH bit of a channel (30_encoding.md R50). -/
def chanBit (c : Chan) : BitVec 1 :=
  match c with
  | .left => 0#1
  | .right => 1#1

/-- The fields the assembler writes for a command: RSV is 0, and so is every field the operation
does not use (30_encoding.md R52, R59). -/
def fieldsOfInstr (i : Instr) : Fields :=
  match i with
  | .nop => { op := 0#4, ch := 0#1, rsv := 0#3, a := 0#32, b := 0#32 }
  | .init c fs t => { op := 1#4, ch := chanBit c, rsv := 0#3, a := fs, b := t }
  | .advance c n => { op := 2#4, ch := chanBit c, rsv := 0#3, a := n, b := 0#32 }
  | .update c g => { op := 3#4, ch := chanBit c, rsv := 0#3, a := g, b := 0#32 }
  | .getcur c => { op := 4#4, ch := chanBit c, rsv := 0#3, a := 0#32, b := 0#32 }
  | .sample => { op := 5#4, ch := 0#1, rsv := 0#3, a := 0#32, b := 0#32 }
  | .setlevels l r => { op := 6#4, ch := 0#1, rsv := 0#3, a := l, b := r }
  | .encode => { op := 7#4, ch := 0#1, rsv := 0#3, a := 0#32, b := 0#32 }
  | .getdisp => { op := 8#4, ch := 0#1, rsv := 0#3, a := 0#32, b := 0#32 }
  | .getstat => { op := 9#4, ch := 0#1, rsv := 0#3, a := 0#32, b := 0#32 }

/-- The word of the fields, B in the most significant place and OP in the least (30_encoding.md R48). -/
def wordOfFields (f : Fields) : CommandWord := f.b ++ f.a ++ f.rsv ++ f.ch ++ f.op

/-- The encoder: the command word the assembler writes (30_encoding.md R59). -/
def encode (i : Instr) : CommandWord := wordOfFields (fieldsOfInstr i)

end Sys2Proof
end

