-- ==== Sys2Proof/Config.lean ====
section
/-! DEFINITION. The parameters of the step, fixed for a run (00_scope.md R8, R9; 10_state.md R31), and the free values: constants with no body for what the spec leaves open. -/

namespace Sys2Proof.Config

/-- `FLOOR_DB` = -100.0 (R8). -/
def floorDb : F32 := 0xC2C80000#32

/-- `CLAMP_LO` = -30.0 (R8). -/
def clampLo : F32 := 0xC1F00000#32

/-- `CLAMP_HI` = +5.0 (R8). -/
def clampHi : F32 := 0x40A00000#32

/-- `T_DEFAULT` = 0.5 s (R8). -/
def tDefault : F32 := 0x3F000000#32

/-- `B` = 8, the DAC resolution of this hardware (R8, R86). -/
def dacBits : Nat := 8

/-- `TERM`, the frame terminator byte (R8). -/
def terminator : Byte := 0x00#8

/-- `N_MAX` = 2^24, the largest ramp length INIT accepts (R9). -/
def nMax : Nat := 2 ^ 24

/-- The factor 20.0 of `DB` (40_smoother.md R65). -/
def twenty : F32 := 0x41A00000#32

/-- 1.0, the offset of the affine map (41_quantizer_framer.md R85). -/
def one : F32 := 0x3F800000#32

/-- 2.0, the divisor of the display value (41_quantizer_framer.md R90). -/
def two : F32 := 0x40000000#32

/-- `+0.0` (40_smoother.md R65). -/
def posZero : F32 := 0x00000000#32

/-- `+inf` (00_scope.md R11). -/
def posInf : F32 := 0x7F800000#32

/-- `-inf` (00_scope.md R11). -/
def negInf : F32 := 0xFF800000#32

/-- `FLT_MAX` (00_scope.md R11). -/
def fltMax : F32 := 0x7F7FFFFF#32

/-- The canonical quiet NaN (41_quantizer_framer.md R90). -/
def quietNaN : F32 := 0x7FC00000#32

/-- FREE VALUE (DESIGN CHOICE, safe, log 1). `LOG10` is a parameter of the model with the properties
L1 to L4 of 40_smoother.md R66. Where log10(val(g)) is no binary32 value, L4 leaves two candidates,
the binary32 values nearest to it, neighbours `lo` < `hi` of each other, and L2 says that one switch
point decides between them: `log10Split lo` is the least gain that takes the upper one. -/
opaque log10Split : F32 → F32

/-- FREE VALUE (DESIGN CHOICE, safe, log 3). 40_smoother.md R70 gives the VALUE of `RAMP(o, t, N, e)`;
where that value is zero it does not say which of the patterns +0 and -0 is written. This says
whether it is -0, as a function of the operands. -/
opaque rampZeroNegative : F32 → F32 → Nat → Nat → Bool

end Sys2Proof.Config
end

