-- ==== Sys2Proof/Machine/State.lean ====
section
/-! DEFINITION. The state of the block as plain data (10_state.md R16 to R32), the reasons a step can stop, and the state after reset (70_reset_and_hazards.md R121). -/

namespace Sys2Proof.Machine

/-- Why the machine stops with a fault. There is no constructor: every command ends in a response
and "The block does not stop, stall or change mode after an error" (60_exceptions.md R104); its
errors are next states (log 15). -/
inductive Fault where
  deriving DecidableEq, Repr

/-- Why a step has no meaning. -/
inductive Refusal where
  /-- Raised by an arm of `exec` whose instruction has no meaning yet; safe. No arm of this model
  raises it. -/
  | notModelled (mnemonic : String)
  deriving DecidableEq, Repr

/-- The error causes 1 to 4 (60_exceptions.md R105 to R108). -/
inductive Cause where
  | illegalCommand
  | portViolation
  | notInitialised
  | configError
  deriving DecidableEq, Repr

/-- The registers of one smoother channel (10_state.md R18 to R20). -/
structure Channel where
  /-- `cur`, the current value in dB (R18). -/
  cur : F32
  /-- `tgt`, the target in dB (R19). -/
  tgt : F32
  /-- `org`, the value at which the present ramp started (R19). -/
  org : F32
  /-- `cnt`, the samples left in the present ramp (R19, R99). -/
  cnt : Nat
  /-- `N`, the ramp length in samples (R20, R99). -/
  len : Nat
  /-- `ready`, set by a successful INIT (R20). -/
  ready : Bool
  deriving DecidableEq, Repr

/-- The level registers of the quantiser and framer; any pattern, NaN kept (10_state.md R22). -/
structure Encoder where
  lvlL : F32
  lvlR : F32
  deriving DecidableEq, Repr

/-- The stored fields of STATUS (10_state.md R21). RDY0 and RDY1 mirror the channels' `ready` bits
and the reserved bits are hard-wired 0; `statusWord` puts the register together (log 13). -/
structure Status where
  /-- `E_ILL`, bit 0. -/
  eIll : Bool
  /-- `E_PORT`, bit 1. -/
  ePort : Bool
  /-- `E_NOTINIT`, bit 2. -/
  eNotInit : Bool
  /-- `E_CONFIG`, bit 3. -/
  eConfig : Bool
  /-- `FIRST`, bits 11:8: the cause code of the first error since reset, 0 for none. -/
  first : BitVec 4
  deriving DecidableEq, Repr

/-- What the outside delivers to the block: a command word on a port, or the reset input
(10_state.md R16). -/
inductive Input where
  | command (p : Port) (w : CommandWord)
  | reset
  deriving DecidableEq, Repr

/-- A response word and the port that receives it (30_encoding.md R55). -/
structure Response where
  port : Port
  word : ResponseWord
  deriving DecidableEq, Repr

/-- The state: the block's own `(ch[0], ch[1], enc, STATUS, OUT)` (10_state.md R17) and, after it,
three fields of the MODEL's own that carry what passes between the block and the outside. -/
structure State where
  /-- `ch[0]`, the left channel. -/
  left : Channel
  /-- `ch[1]`, the right channel. -/
  right : Channel
  /-- `enc`, the level registers. -/
  enc : Encoder
  /-- The stored fields of `STATUS`. -/
  status : Status
  /-- `OUT`, the bytes emitted since reset, oldest first (R30). -/
  out : List Byte
  /-- MODEL's own: the port whose command is being executed (log 5). -/
  port : Port
  /-- MODEL's own: the inputs not yet taken, in the total order of 20_memory.md R39 (log 4). -/
  inputs : List Input
  /-- MODEL's own: the responses given since reset, oldest first (log 6). -/
  responses : List Response
  deriving DecidableEq, Repr

/-- What executing a command answers. -/
abbrev Result := Host.Outcome State Fault Refusal

/-- A channel after reset (70_reset_and_hazards.md R121). -/
def Channel.reset : Channel where
  cur := Config.floorDb
  tgt := Config.floorDb
  org := Config.floorDb
  cnt := 0
  len := 0
  ready := false

/-- The machine right after reset (70_reset_and_hazards.md R121). The values of the model's own
fields (no input pending, port PA, no response given) are a DESIGN CHOICE (log 4, log 5, log 6). -/
def State.reset : State where
  left := Channel.reset
  right := Channel.reset
  enc := { lvlL := Config.floorDb, lvlR := Config.floorDb }
  status := { eIll := false, ePort := false, eNotInit := false, eConfig := false, first := 0#4 }
  out := []
  port := .pa
  inputs := []
  responses := []

end Sys2Proof.Machine
end

