-- ==== Sys2Proof/Machine/Flags.lean ====
section
/-! DEFINITION. The STATUS register: its cause codes, what an error records in it and how it reads (10_state.md R21; 60_exceptions.md R104). -/

namespace Sys2Proof.Machine

/-- The cause codes 1 to 4 (60_exceptions.md, section 2). -/
def causeCode (x : Cause) : BitVec 4 :=
  match x with
  | .illegalCommand => 1#4
  | .portViolation => 2#4
  | .notInitialised => 3#4
  | .configError => 4#4

/-- Set the sticky bit an error names (R21, R104). -/
def setErrorBit (x : Cause) (st : Status) : Status :=
  match x with
  | .illegalCommand => { st with eIll := true }
  | .portViolation => { st with ePort := true }
  | .notInitialised => { st with eNotInit := true }
  | .configError => { st with eConfig := true }

/-- FIRST is written only while it is 0 (R21, R104). -/
def recordFirst (x : Cause) (st : Status) : Status :=
  if st.first = 0#4 then { st with first := causeCode x } else st

/-- The 32-bit STATUS register: error bits 3:0, RDY0 and RDY1 in 4 and 5, FIRST in 11:8, every other
bit 0 (R21). -/
def statusWord (s : State) : BitVec 32 :=
  0#20 ++ s.status.first ++ 0#2 ++ BitVec.ofBool s.right.ready ++ BitVec.ofBool s.left.ready
    ++ BitVec.ofBool s.status.eConfig ++ BitVec.ofBool s.status.eNotInit
    ++ BitVec.ofBool s.status.ePort ++ BitVec.ofBool s.status.eIll

end Sys2Proof.Machine
end

