-- ==== Sys2Proof/Machine/Ops.lean ====
section
/-! DEFINITION. The named operations of the block: channel access, Respond, Emit, raise, the port check, and how an input is taken (00_scope.md R13; 60_exceptions.md R104). -/

namespace Sys2Proof.Machine

/-- `ch[c]` (00_scope.md R13). -/
def State.channel (s : State) (c : Chan) : Channel :=
  match c with
  | .left => s.left
  | .right => s.right

/-- Write `ch[c]`; the other channel is untouched (40_smoother.md R84). -/
def State.setChannel (s : State) (c : Chan) (k : Channel) : State :=
  match c with
  | .left => { s with left := k }
  | .right => { s with right := k }

/-- Write both level registers. -/
def State.setLevels (s : State) (l r : F32) : State := { s with enc := { lvlL := l, lvlR := r } }

/-- The response word: CODE in bits 3:0, DATA in bits 35:4 (30_encoding.md R55). -/
def responseWord (code : BitVec 4) (data : BitVec 32) : ResponseWord := data ++ code

/-- `Respond(code, data)` on the port that issued the command (30_encoding.md R55). -/
def State.respond (s : State) (code : BitVec 4) (data : BitVec 32) : State :=
  { s with responses := s.responses ++ [{ port := s.port, word := responseWord code data }] }

/-- `Respond(0, data)` ends a command that is done. -/
def done (s : State) (data : BitVec 32) : Result := .next (s.respond 0#4 data)

/-- `Emit(b)`: append one byte to OUT (20_memory.md R42). -/
def State.emit (s : State) (b : Byte) : State := { s with out := s.out ++ [b] }

/-- `raise X`: set the error bit, write FIRST while it is 0, respond with the cause code and DATA 0;
nothing else changes (60_exceptions.md R104). The block saves nothing and there is no return from it
(R112, R113). -/
def State.raiseError (s : State) (x : Cause) : State :=
  ({ s with status := recordFirst x (setErrorBit x s.status) } : State).respond (causeCode x) 0#32

/-- The end of a command by an error: a next state, because the block never stops (R104). -/
def failWith (s : State) (x : Cause) : Result := .next (s.raiseError x)

/-- `Ports(OP)`: the "ports" column of 30_encoding.md R53 and R56. -/
def accepts (p : Port) (i : Instr) : Bool :=
  match i with
  | .nop => true
  | .init _ _ _ => p == .pa
  | .advance _ _ => p == .pa
  | .update _ _ => p == .pa
  | .getcur _ => true
  | .sample => p == .pe
  | .setlevels _ _ => p == .pe
  | .encode => p == .pe
  | .getdisp => p == .pe
  | .getstat => true

/-- The second check of EXECUTE: the command runs on a port that may issue it, else PortViolation
(60_exceptions.md R104, R106). -/
def guardPort (i : Instr) (s : State) (run : State → Result) : Result :=
  if accepts s.port i then run s else failWith s .portViolation

/-- The check of ADVANCE and UPDATE: the channel is initialised, else NotInitialised
(60_exceptions.md R107). -/
def guardReady (c : Chan) (s : State) (run : State → Result) : Result :=
  if (s.channel c).ready then run s else failWith s .notInitialised

/-- The state in which a command from port `p` is executed, the inputs after it still pending. -/
def State.acceptCommand (s : State) (p : Port) (rest : List Input) : State :=
  { s with port := p, inputs := rest }

/-- The reset input: every register takes its reset value; what the outside has yet to deliver is no
register and stays (70_reset_and_hazards.md R121, log 7). -/
def resetInput (rest : List Input) : State := { State.reset with inputs := rest }

/-- The first check of EXECUTE fails: IllegalCommand, on either port (60_exceptions.md R104, R105). -/
def rejectIllegal (s : State) : Result := failWith s .illegalCommand

/-- A port that may issue the word's command; PA for an illegal word. For `State.withFetchWord` only
(log 8). -/
def fetchPort (w : CommandWord) : Port :=
  match decode w with
  | .ok i => if accepts .pa i then .pa else .pe
  | .error _ => .pa

end Sys2Proof.Machine
end

