-- ==== Sys2Proof/Machine/Control.lean ====
section
/-! DEFINITION. The control commands: NOP and GETSTAT (42_control.md R101, R102). -/

namespace Sys2Proof.Machine

/-- NOP (R101). -/
def execNop (s : State) : Result := guardPort .nop s fun s => done s 0#32

/-- GETSTAT (R102). -/
def execGetstat (s : State) : Result := guardPort .getstat s fun s => done s (statusWord s)

end Sys2Proof.Machine
end

