-- ==== Sys2Proof/Machine/Float.lean ====
section
/-! DEFINITION. Binary32 values and the arithmetic primitives of 00_scope.md R11 and R12, by exact integer arithmetic. Every finite binary32 value is a whole number of units of 2^-149; a result is computed exactly in those units and rounded once. -/

namespace Sys2Proof.Machine

/-- Bit 31, the sign (R11). -/
def isNegative (x : F32) : Bool := x.getLsbD 31

/-- Bits 30:23, the biased exponent (R11). -/
def expField (x : F32) : Nat := (x.extractLsb' 23 8).toNat

/-- Bits 22:0, the fraction (R11). -/
def fracField (x : F32) : Nat := (x.extractLsb' 0 23).toNat

/-- `isNaN(x)` (R11). -/
def isNaN (x : F32) : Bool := expField x == 255 && fracField x != 0

/-- `x` is +inf or -inf (R11). -/
def isInf (x : F32) : Bool := expField x == 255 && fracField x == 0

/-- `x` is finite (R11). -/
def isFinite (x : F32) : Bool := expField x != 255

/-- |val(x)| in units of 2^-149; subnormals are kept (R11). On an infinity it is 2^277, above every
finite magnitude, so that comparisons need no case of their own. -/
def magnitude (x : F32) : Nat :=
  if expField x = 0 then fracField x else (2 ^ 23 + fracField x) * 2 ^ (expField x - 1)

/-- val(x) in units of 2^-149. Both zeros have value 0 (R11). -/
def scaled (x : F32) : Int :=
  if isNegative x then -(magnitude x : Int) else (magnitude x : Int)

/-- `f32_lt(a, b)`: false when an operand is NaN (R12). -/
def f32Lt (a b : F32) : Bool :=
  !isNaN a && !isNaN b && decide (scaled a < scaled b)

/-- `f32_eq(a, b)`: false when an operand is NaN, and +0 equals -0 (R12). -/
def f32Eq (a b : F32) : Bool :=
  !isNaN a && !isNaN b && decide (scaled a = scaled b)

/-- The least whole number not below n / d. -/
def divCeil (n d : Nat) : Nat := (n + (d - 1)) / d

/-- The whole number nearest to n / d, ties to even (R12). -/
def divNearest (n d : Nat) : Nat :=
  if 2 * (n % d) < d then n / d
  else if d < 2 * (n % d) then n / d + 1
  else n / d + n / d % 2

/-- Bits 30:0 of the binary32 magnitude that `rnd` picks for n / d units of 2^-149, with no bound on
the exponent. At exponent step `e` the representable magnitudes are the multiples of 2^e units
with a quotient up to 2^24, and the pattern of m * 2^e is e * 2^23 + m. -/
def roundPattern (rnd : Nat → Nat → Nat) (n d : Nat) : Nat :=
  let e := Nat.log2 (n / d / 2 ^ 23)
  e * 2 ^ 23 + rnd n (d * 2 ^ e)

/-- The datum with a given sign and bits 30:0. -/
def signed (neg : Bool) (pattern : Nat) : F32 :=
  BitVec.ofNat 32 (if neg then 2 ^ 31 + pattern else pattern)

/-- n / d units of 2^-149 with a sign, rounded to nearest, ties to even; a magnitude that rounds
past FLT_MAX is an infinity (R12). -/
def roundNearest (neg : Bool) (n d : Nat) : F32 :=
  signed neg (min (roundPattern divNearest n d) 0x7F800000)

/-- `rnd_up(r)` for r = num / den units of 2^-149: the least binary32 value not below r (R12). R12
does not say which zero a zero result is; `zeroNeg` does (log 3). -/
def rndUp (zeroNeg : Bool) (num : Int) (den : Nat) : F32 :=
  if 0 < num then signed false (min (roundPattern divCeil num.toNat den) 0x7F800000)
  else
    let m := min (roundPattern (· / ·) (-num).toNat den) 0x7F7FFFFF
    if m = 0 then signed zeroNeg 0 else signed true m

/-- -x: the sign bit changed. -/
def f32Neg (x : F32) : F32 := x ^^^ 0x80000000#32

/-- An exact sum of `r` units, rounded to nearest. An exact zero is +0 unless both addends are
negative (IEEE 754; R12, log 11). -/
def roundSum (bothNegative : Bool) (r : Int) : F32 :=
  if r = 0 then signed bothNegative 0 else roundNearest (decide (r < 0)) r.natAbs 1

/-- `f32_add(a, b)` (R12). -/
def f32Add (a b : F32) : F32 :=
  if isNaN a || isNaN b then Config.quietNaN
  else if isInf a then (if isInf b && isNegative a != isNegative b then Config.quietNaN else a)
  else if isInf b then b
  else roundSum (isNegative a && isNegative b) (scaled a + scaled b)

/-- `f32_sub(a, b)` (R12). -/
def f32Sub (a b : F32) : F32 := f32Add a (f32Neg b)

/-- `f32_mul(a, b)` (R12). -/
def f32Mul (a b : F32) : F32 :=
  let neg := isNegative a != isNegative b
  if isNaN a || isNaN b then Config.quietNaN
  else if isInf a || isInf b then
    (if magnitude a = 0 ∨ magnitude b = 0 then Config.quietNaN else signed neg 0x7F800000)
  else roundNearest neg (magnitude a * magnitude b) (2 ^ 149)

/-- `f32_div(a, b)` (R12). -/
def f32Div (a b : F32) : F32 :=
  let neg := isNegative a != isNegative b
  if isNaN a || isNaN b then Config.quietNaN
  else if isInf a then (if isInf b then Config.quietNaN else signed neg 0x7F800000)
  else if isInf b then signed neg 0
  else if magnitude b = 0 then
    (if magnitude a = 0 then Config.quietNaN else signed neg 0x7F800000)
  else roundNearest neg (magnitude a * 2 ^ 149) (magnitude b)

/-- `trunc_u(x)`: the integer part of a non-negative finite x (R12). -/
def truncU (x : F32) : Nat := magnitude x / 2 ^ 149

/-- The binary32 value nearest to a whole number. -/
def f32OfNat (k : Nat) : F32 := roundNearest false (k * 2 ^ 149) 1

/-- The next binary32 value above a finite non-NaN x. -/
def nextUp (x : F32) : F32 :=
  if magnitude x = 0 then 1#32 else if isNegative x then x - 1#32 else x + 1#32

/-- The next binary32 value below a finite non-NaN x. -/
def nextDown (x : F32) : F32 := f32Neg (nextUp (f32Neg x))

end Sys2Proof.Machine
end

