-- ==== Sys2Proof/Machine/Log10.lean ====
section
/-! DEFINITION. `LOG10` (40_smoother.md R66): the two binary32 values nearest to log10(val(g)), found exactly, and the free choice between them. -/

namespace Sys2Proof.Machine

/-- The binary places of the logarithm that are computed. |log10(val(g))| is at least 2^-26 for every
gain but 1.0; every binary32 value of that magnitude is a multiple of 2^-49, and every midpoint of
two of them that lie next but one to each other is a multiple of 2^-50. -/
def logPlaces : Nat := 50

/-- Numerator of val(g) x 10^45; its denominator is 2^149. The factor makes every positive gain at
least 1. -/
def liftedGain (g : F32) : Nat := magnitude g * 10 ^ 45

/-- The greatest d with 10^d ≤ val(g) x 10^45. -/
def decimalExponent (g : F32) : Nat :=
  Nat.findGreatest (fun d => 2 ^ 149 * 10 ^ d ≤ liftedGain g) 84

/-- The next `k` binary places of log10(w) for 1 ≤ w < 10, appended to `acc`. Squaring w doubles its
logarithm; the place is 1 when the square reaches 10. `lo` and `hi` enclose w in units of 2^-128,
lo ≤ w < hi. `none` where the enclosure does not decide a place. -/
def logDigits : (k acc lo hi : Nat) → Option Nat
  | 0, acc, _, _ => some acc
  | k + 1, acc, lo, hi =>
    let lo2 := lo * lo / 2 ^ 128
    let hi2 := hi * hi / 2 ^ 128 + 1
    if hi2 ≤ 10 * 2 ^ 128 then logDigits k (2 * acc) lo2 hi2
    else if 10 * 2 ^ 128 ≤ lo2 ∧ hi2 / 10 + 1 ≤ 10 * 2 ^ 128 then
      logDigits k (2 * acc + 1) (lo2 / 10) (hi2 / 10 + 1)
    else none

/-- 10^k ≤ (p / q)^(2^n), exactly. -/
@[noinline] def pow10Le (n k p q : Nat) : Bool := decide (10 ^ k * q ^ 2 ^ n ≤ p ^ 2 ^ n)

/-- The greatest k with 10^k ≤ (val(g) x 10^45)^(2^50), by its definition. It is far too long to
run; `logIndex` needs it only where `logDigits` does not decide. -/
@[noinline] def logIndexExact (g : F32) : Nat :=
  Nat.findGreatest (fun k => pow10Le logPlaces k (liftedGain g) (2 ^ 149) = true) (84 * 2 ^ logPlaces)

/-- val(g) x 10^45 / 10^d, at least 1 and below 10, in units of 2^-128 rounded down. -/
def leadingGain (g : F32) : Nat := liftedGain g * 2 ^ 128 / (2 ^ 149 * 10 ^ decimalExponent g)

/-- The binary places of log10 of the leading gain. -/
def leadingPlaces (g : F32) : Option Nat := logDigits logPlaces 0 (leadingGain g) (leadingGain g + 1)

/-- ⌊(log10(val(g)) + 45) x 2^50⌋ for a positive finite g; 0 where val(g) is 0. -/
def logIndex (g : F32) : Nat :=
  if magnitude g = 0 then 0
  else
    match leadingPlaces g with
    | some digits => decimalExponent g * 2 ^ logPlaces + digits
    | none => logIndexExact g

/-- The greatest binary32 value not above (index - 45 x 2^50) / 2^50. -/
def log10OfIndex (k : Nat) : F32 :=
  f32Neg (rndUp true ((45 * 2 ^ logPlaces - (k : Int)) * 2 ^ 99) 1)

/-- The greatest binary32 value not above log10(val(g)), for a positive finite g. -/
def log10Below (g : F32) : F32 := log10OfIndex (logIndex g)

/-- val(g) is a power of ten: the only gains whose logarithm is a binary32 value. -/
def isPowerOfTen (g : F32) : Bool :=
  if magnitude g = 0 then false else liftedGain g == 2 ^ 149 * 10 ^ decimalExponent g

/-- The logarithm of index k lies below the midpoint of x and y, for two values next but one to each
other; it is never at that midpoint, since it is no binary fraction. -/
def logBelowMidpoint (k : Nat) (x y : F32) : Bool :=
  decide (((k : Int) - 45 * 2 ^ logPlaces) * 2 ^ 100 < scaled x + scaled y)

/-- The lower of the two binary32 values nearest to the logarithm of index k, which are neighbours of
each other (R66, L4). `lo` and the value above it enclose the logarithm and are the two nearest,
but beside a power of two: there the values are denser on one side, and the two on that side may
both be nearer (log 2). -/
def lowerNearest (k : Nat) : F32 :=
  let lo := log10OfIndex k
  if logBelowMidpoint k (nextDown lo) (nextUp lo) then nextDown lo
  else if logBelowMidpoint k lo (nextUp (nextUp lo)) then lo
  else nextUp lo

/-- A whole number from 0 to 10: the logarithm of a gain that is a power of ten, where LOG10 is exact. -/
def isWholeLog (x : F32) : Bool := (List.range 11).any fun n => f32OfNat n == x

/-- A `LOG10` that meets L1 to L4 of 40_smoother.md R66, from the index of the gain: the upper of the
two nearest values from the gain `split` of the lower on. Where the two nearest lie below the
logarithm and the upper is LOG10 of a power of ten, L2 leaves only the upper. -/
def log10Choice (split : F32 → F32) (g : F32) (k : Nat) : F32 :=
  let lower := lowerNearest k
  if nextUp lower = log10OfIndex k ∧ isWholeLog (nextUp lower) = true then nextUp lower
  else if f32Lt g (split lower) then lower
  else nextUp lower

/-- A `LOG10` that meets L1 to L4 of 40_smoother.md R66: the logarithm itself where it is a binary32
value, else the choice of `split` between the two binary32 values nearest to it. -/
def log10With (split : F32 → F32) (g : F32) : F32 :=
  if isPowerOfTen g then log10Below g else log10Choice split g (logIndex g)

/-- `LOG10`, the parameter of 40_smoother.md R66 (log 1, log 2). -/
def log10 (g : F32) : F32 := log10With Config.log10Split g

end Sys2Proof.Machine
end

