-- ==== Sys2Proof/Machine/Operands.lean ====
section
/-! DEFINITION. The functions of the operands: INIT's checks and the ramp length (40_smoother.md R67, R68), gain to decibels (R65), the ramp value (R70), and the quantiser Q (41_quantizer_framer.md R85, R86). -/

namespace Sys2Proof.Machine

/-- `isFinite(fs) and val(fs) > 0` (R67). -/
def rateValid (fs : F32) : Bool := isFinite fs && decide (0 < scaled fs)

/-- `isFinite(T) and val(T) >= 0`; -0.0 passes (R67). -/
def timeValid (t : F32) : Bool := isFinite t && decide (0 ≤ scaled t)

/-- `N = ⌈val(fs) × val(T)⌉` for operands that passed their checks; the product is exact, in units
of 2^-298 (R68). -/
def rampLength (fs t : F32) : Nat := divCeil (magnitude fs * magnitude t) (2 ^ 149 * 2 ^ 149)

/-- The first check of INIT that the operands fail is a ConfigError; `none` means that one fails,
`some N` that all pass (R67). -/
def configuredLength (fs t : F32) : Option Nat :=
  if rateValid fs && timeValid t && decide (rampLength fs t ≤ Config.nMax) then some (rampLength fs t)
  else none

/-- `DB(g)` for a given LOG10 (R65). -/
def gainToDbWith (log : F32 → F32) (g : F32) : F32 :=
  if f32Lt Config.posZero g then
    if g = Config.posInf then Config.fltMax
    else
      let r := f32Mul Config.twenty (log g)
      if f32Lt r Config.floorDb then Config.floorDb else r
  else Config.floorDb

/-- `DB(g)`: a gain pattern to decibels, finite and at least -100 (R65). -/
def gainToDb (g : F32) : F32 := gainToDbWith log10 g

/-- The numerator of `val(o) + (val(t) - val(o)) * e / N` over the denominator N, in units of
2^-149 (R70). -/
def rampNumerator (o t : F32) (n e : Nat) : Int := scaled o * n + (scaled t - scaled o) * e

/-- `RAMP(o, t, N, e)`: the exact value on the line from o to t, rounded toward +∞ (R70). At e = 0 it
is o itself; elsewhere the sign of a zero is a free value (log 3). -/
def rampValue (o t : F32) (n e : Nat) : F32 :=
  rndUp (if e = 0 then isNegative o else Config.rampZeroNegative o t n e) (rampNumerator o t n e) n

/-- Step 1 of Q: NaN to CLAMP_LO, then the clamp to [-30, +5] (R85). -/
def clampLevel (x : F32) : F32 :=
  if isNaN x then Config.clampLo
  else if f32Lt x Config.clampLo then Config.clampLo
  else if f32Lt Config.clampHi x then Config.clampHi
  else x

/-- `MAXDAC - 1 = 2^B - 2` as a binary32 value (R86). -/
def levelSpan (b : Nat) : F32 := f32OfNat (2 ^ b - 2)

/-- Step 2 of Q, in the written order: subtract, divide, multiply, add (R85, R86). -/
def affineLevel (b : Nat) (x : F32) : F32 :=
  let t1 := f32Sub x Config.clampLo
  let t2 := f32Sub Config.clampHi Config.clampLo
  let t3 := f32Div t1 t2
  let t4 := f32Mul t3 (levelSpan b)
  f32Add Config.one t4

/-- Q for a DAC of `b` bits, 1 ≤ b ≤ 8, before it is narrowed to a byte (R86). -/
def quantizeFor (b : Nat) (x : F32) : Nat := truncU (affineLevel b (clampLevel x))

/-- `Q(x)` of this hardware, B = 8, narrowed to one byte (R85). -/
def quantize (x : F32) : Byte := BitVec.ofNat 8 (quantizeFor Config.dacBits x)

/-- The blended display value: the sum, halved, with a NaN made canonical (R90). -/
def displayLevel (l r : F32) : F32 :=
  let d := f32Div (f32Add l r) Config.two
  if isNaN d then Config.quietNaN else d

end Sys2Proof.Machine
end

