-- ==== Sys2Proof/Machine/Quantizer.lean ====
section
/-! DEFINITION. The quantiser and 3-byte framer: SAMPLE, SETLEVELS, ENCODE and GETDISP (41_quantizer_framer.md R87 to R90). -/

namespace Sys2Proof.Machine

/-- The wire frame of two readings: left, right, terminator (30_encoding.md R58). -/
def frameOf (e : Encoder) : List Byte := [quantize e.lvlL, quantize e.lvlR, Config.terminator]

/-- Emit a list of bytes in order (20_memory.md R42). -/
def emitAll (s : State) (bytes : List Byte) : State := bytes.foldl State.emit s

/-- SAMPLE (R88). -/
def execSample (s : State) : Result :=
  guardPort .sample s fun s =>
    done (s.setLevels (s.channel .left).cur (s.channel .right).cur) 0#32

/-- SETLEVELS l, r (R87). -/
def execSetlevels (l r : F32) (s : State) : Result :=
  guardPort (.setlevels l r) s fun s => done (s.setLevels l r) 0#32

/-- ENCODE (R89). -/
def execEncode (s : State) : Result :=
  guardPort .encode s fun s => done (emitAll s (frameOf s.enc)) 0#32

/-- GETDISP (R90). -/
def execGetdisp (s : State) : Result :=
  guardPort .getdisp s fun s => done s (displayLevel s.enc.lvlL s.enc.lvlR)

end Sys2Proof.Machine
end

