-- ==== Sys2Proof/Machine/Smoother.lean ====
section
/-! DEFINITION. The asymmetric smoother: INIT, ADVANCE, UPDATE and GETCUR (40_smoother.md R67 to R73). -/

namespace Sys2Proof.Machine

/-- A channel settled at v: no ramp in progress. -/
def settledAt (k : Channel) (v : F32) : Channel := { k with cur := v, tgt := v, org := v, cnt := 0 }

/-- What a successful INIT leaves in its channel (R67). -/
def initChannel (n : Nat) : Channel where
  cur := Config.floorDb
  tgt := Config.floorDb
  org := Config.floorDb
  cnt := 0
  len := n
  ready := true

/-- What ADVANCE by n samples makes of a channel (R69). -/
def advanceChannel (k : Channel) (n : Nat) : Channel :=
  if k.cnt ≤ n then { k with cur := k.tgt, cnt := 0 }
  else
    let cnt := k.cnt - n
    { k with cnt := cnt, cur := rampValue k.org k.tgt k.len (k.len - cnt) }

/-- `SET_TARGET(c, v)`, the release branch of UPDATE (R72). -/
def setTarget (k : Channel) (v : F32) : Channel :=
  if f32Eq v k.tgt then k
  else if k.len = 0 then settledAt k v
  else { k with org := k.cur, tgt := v, cnt := k.len }

/-- What a reading of v decibels makes of a channel: release below the current value, instant attack
otherwise (R71). -/
def registerReading (k : Channel) (v : F32) : Channel :=
  if f32Lt v k.cur then setTarget k v else settledAt k v

/-- INIT c, fs, T (R67). -/
def execInit (c : Chan) (fs t : F32) (s : State) : Result :=
  guardPort (.init c fs t) s fun s =>
    match configuredLength fs t with
    | some n => done (s.setChannel c (initChannel n)) 0#32
    | none => failWith s .configError

/-- ADVANCE c, n (R69). -/
def execAdvance (c : Chan) (n : U32) (s : State) : Result :=
  guardPort (.advance c n) s fun s =>
    guardReady c s fun s =>
      done (s.setChannel c (advanceChannel (s.channel c) n.toNat)) 0#32

/-- UPDATE c, g (R71). -/
def execUpdate (c : Chan) (g : F32) (s : State) : Result :=
  guardPort (.update c g) s fun s =>
    guardReady c s fun s =>
      done (s.setChannel c (registerReading (s.channel c) (gainToDb g))) 0#32

/-- GETCUR c (R73). -/
def execGetcur (c : Chan) (s : State) : Result :=
  guardPort (.getcur c) s fun s => done s (s.channel c).cur

end Sys2Proof.Machine
end

