-- ==== Sys2Proof/Machine/Dispatch.lean ====
section
/-! DEFINITION. The dispatch of a legal command to its meaning (60_exceptions.md R104), one arm per row of the opcode map (30_encoding.md R53). -/

namespace Sys2Proof.Machine

/-- Execute a legal command issued on the port `s.port`. -/
def exec (i : Instr) (s : State) : Host.Outcome State Fault Refusal :=
  match i with
  | .nop => Sys2Proof.Machine.execNop s
  | .init c fs t => Sys2Proof.Machine.execInit c fs t s
  | .advance c n => Sys2Proof.Machine.execAdvance c n s
  | .update c g => Sys2Proof.Machine.execUpdate c g s
  | .getcur c => Sys2Proof.Machine.execGetcur c s
  | .sample => Sys2Proof.Machine.execSample s
  | .setlevels l r => Sys2Proof.Machine.execSetlevels l r s
  | .encode => Sys2Proof.Machine.execEncode s
  | .getdisp => Sys2Proof.Machine.execGetdisp s
  | .getstat => Sys2Proof.Machine.execGetstat s

end Sys2Proof.Machine
end

