-- ==== Sys2Proof/Machine/Step.lean ====
section
/-! DEFINITION. One step of the block: it takes the next input of the total order of 20_memory.md R39 and executes it whole (00_scope.md R14). -/

namespace Sys2Proof.Machine

/-- `EXECUTE(p, w)` (60_exceptions.md R104), in the state that `State.acceptCommand` makes. -/
def execute (w : CommandWord) (s : State) : Host.Outcome State Fault Refusal :=
  match decode w with
  | .ok i => exec i s
  | .error _ => rejectIllegal s

/-- One step. With no input pending the block holds its state (60_exceptions.md R120, log 9); the
reset input and every command take effect whole, one after the other (R121, R39). -/
def step (s : State) : Host.Outcome State Fault Refusal :=
  match s.inputs with
  | [] => .next s
  | .reset :: rest => .next (resetInput rest)
  | .command p w :: rest => execute w (s.acceptCommand p rest)

/-- `s` with a command word delivered next, on a port that may issue it (log 8). -/
def State.withFetchWord (s : State) (nbits w : Nat) : State :=
  let word : CommandWord := BitVec.ofNat 72 (w % 2 ^ nbits)
  { s with inputs := .command (fetchPort word) word :: s.inputs }

end Sys2Proof.Machine
end

