-- ==== Sys2Proof/Machine/Asm.lean ====
section
/-! DEFINITION. The assembler: lines and their words (30_encoding.md R59), binary32 literals (R60) and the pseudo-instructions (R61 to R64). It stands outside the block: what it makes is a list of inputs. -/

namespace Sys2Proof.Machine

/-- A line of a program: a port and a command (R59). -/
structure Line where
  port : Port
  instr : Instr
  deriving DecidableEq, Repr

/-- The assembler rejects a mnemonic on a port that may not issue it (R59, R56). -/
def Line.wellFormed (l : Line) : Bool := accepts l.port l.instr

/-- The four forms of a binary32 operand (R60). A decimal literal is `digits` x 10^`scale`. -/
inductive Literal where
  | decimal (neg : Bool) (digits : Nat) (scale : Int)
  | pattern (bits : F32)
  | nan
  | inf (neg : Bool)
  deriving DecidableEq, Repr

/-- The pseudo-instructions (R61 to R64). -/
inductive Pseudo where
  /-- `BLOCK ch, n, g` (R61). -/
  | block (c : Chan) (n : U32) (g : F32)
  /-- `TICK` (R62). -/
  | tick
  /-- `START fs` (R63). -/
  | start (fs : F32)
  /-- `BLOCK2 n, gl, gr` (R64). -/
  | block2 (n : U32) (gl gr : F32)
  deriving DecidableEq, Repr

/-- The pattern a literal stands for; a decimal one is the nearest binary32 value, ties to even (R60). -/
def literalBits (l : Literal) : F32 :=
  match l with
  | .decimal neg digits scale =>
    if 0 ≤ scale then roundNearest neg (digits * 10 ^ scale.toNat * 2 ^ 149) 1
    else roundNearest neg (digits * 2 ^ 149) (10 ^ (-scale).toNat)
  | .pattern bits => bits
  | .nan => Config.quietNaN
  | .inf neg => if neg then Config.negInf else Config.posInf

/-- `BLOCK`: ADVANCE, then UPDATE, both on PA (R61). -/
def blockLines (c : Chan) (n : U32) (g : F32) : List Line :=
  [{ port := .pa, instr := .advance c n }, { port := .pa, instr := .update c g }]

/-- The commands a pseudo-instruction stands for, in order (R61 to R64). -/
def expand (p : Pseudo) : List Line :=
  match p with
  | .block c n g => blockLines c n g
  | .tick => [{ port := .pe, instr := .sample }, { port := .pe, instr := .encode }]
  | .start fs =>
    [{ port := .pa, instr := .init .left fs Config.tDefault },
     { port := .pa, instr := .init .right fs Config.tDefault }]
  | .block2 n gl gr => blockLines .left n gl ++ blockLines .right n gr

/-- A line as the input it sends to the block (R59). -/
def inputOfLine (l : Line) : Input := .command l.port (encode l.instr)

/-- The value of a decimal or hexadecimal digit. -/
def digitValue (c : Char) : Option Nat :=
  if '0' ≤ c ∧ c ≤ '9' then some (c.toNat - 48)
  else if 'A' ≤ c ∧ c ≤ 'F' then some (c.toNat - 55)
  else if 'a' ≤ c ∧ c ≤ 'f' then some (c.toNat - 87)
  else none

/-- A non-empty run of digits of a base. -/
def readDigits (base : Nat) (cs : List Char) : Option Nat :=
  if cs.isEmpty then none
  else cs.foldlM (init := 0) fun acc c => do
    let d ← digitValue c
    if d < base then some (acc * base + d) else none

/-- `n` of R59: an unsigned integer below 2^32 in decimal or `0x` hexadecimal. -/
def readCount (cs : List Char) : Option U32 := do
  let n ← match cs with
    | '0' :: 'x' :: digits => readDigits 16 digits
    | digits => readDigits 10 digits
  if n < 2 ^ 32 then some (BitVec.ofNat 32 n) else none

/-- `ch` of R59: `L` or `R`. -/
def readChan (cs : List Char) : Option Chan :=
  match cs with
  | ['L'] => some .left
  | ['R'] => some .right
  | _ => none

/-- The exponent of a decimal literal: nothing, or `e` and digits, with a minus sign before them where
it is negative (R60 shows `1e-5`). A plus sign is rejected: DESIGN CHOICE, log 18. -/
def readExponent (cs : List Char) : Option Int :=
  match cs with
  | [] => some 0
  | _ :: '-' :: digits => (readDigits 10 digits).map fun k => -(k : Int)
  | _ :: digits => (readDigits 10 digits).map fun k => (k : Int)

/-- An unsigned decimal literal: digits, a fraction after a point, an exponent (R60). -/
def readDecimal (neg : Bool) (cs : List Char) : Option Literal := do
  let (mantissa, exponent) := cs.span (· != 'e')
  let (whole, fraction) := mantissa.span (· != '.')
  let digits ← readDigits 10 (whole ++ fraction.drop 1)
  let k ← readExponent exponent
  some (.decimal neg digits (k - ((fraction.drop 1).length : Int)))

/-- A binary32 operand in one of the forms of R60. -/
def readLiteral (cs : List Char) : Option Literal :=
  match cs with
  | ['n', 'a', 'n'] => some .nan
  | ['i', 'n', 'f'] => some (.inf false)
  | ['-', 'i', 'n', 'f'] => some (.inf true)
  | '0' :: 'x' :: digits =>
    if digits.length = 8 then (readDigits 16 digits).map fun n => .pattern (BitVec.ofNat 32 n)
    else none
  | '-' :: digits => readDecimal true digits
  | digits => readDecimal false digits

/-- A binary32 operand as its pattern. -/
def readValue (cs : List Char) : Option F32 := (readLiteral cs).map literalBits

/-- Drop blanks at both ends. -/
def trimBlanks (cs : List Char) : List Char :=
  ((cs.dropWhile (· == ' ')).reverse.dropWhile (· == ' ')).reverse

/-- The operands, separated by commas (R59). -/
def splitOperands (cs : List Char) : List (List Char) :=
  if trimBlanks cs = [] then [] else (cs.splitOn ',').map trimBlanks

/-- The commands of one mnemonic and its operands: the forms of R59 and of R61 to R64, each command
on port `p` where the form names no port of its own. -/
def readCommand (p : Port) (mnemonic : String) (operands : List (List Char)) : Option (List Line) :=
  let one (i : Instr) : List Line := [{ port := p, instr := i }]
  match mnemonic, operands with
  | "NOP", [] => some (one .nop)
  | "INIT", [c, fs, t] => do some (one (.init (← readChan c) (← readValue fs) (← readValue t)))
  | "ADVANCE", [c, n] => do some (one (.advance (← readChan c) (← readCount n)))
  | "UPDATE", [c, g] => do some (one (.update (← readChan c) (← readValue g)))
  | "GETCUR", [c] => do some (one (.getcur (← readChan c)))
  | "SAMPLE", [] => some (one .sample)
  | "SETLEVELS", [l, r] => do some (one (.setlevels (← readValue l) (← readValue r)))
  | "ENCODE", [] => some (one .encode)
  | "GETDISP", [] => some (one .getdisp)
  | "GETSTAT", [] => some (one .getstat)
  | "BLOCK", [c, n, g] => do
    some (expand (.block (← readChan c) (← readCount n) (← readValue g)))
  | "TICK", [] => some (expand .tick)
  | "START", [fs] => do some (expand (.start (← readValue fs)))
  | "BLOCK2", [n, gl, gr] => do
    some (expand (.block2 (← readCount n) (← readValue gl) (← readValue gr)))
  | _, _ => none

/-- `PA` or `PE` (R59). -/
def readPort (cs : List Char) : Option Port :=
  match cs with
  | ['P', 'A'] => some .pa
  | ['P', 'E'] => some .pe
  | _ => none

/-- One line of text, `PORT: MNEMONIC operands ; comment`, as the commands it stands for. It is
rejected (`none`) when it has no form of R59 to R64, or when a command of it may not be issued on
the port the line names (R59, log 18). -/
def readLine (text : String) : Option (List Line) := do
  let code := trimBlanks (text.toList.takeWhile (· != ';'))
  if code = [] then some []
  else
    let (port, rest) := code.span (· != ':')
    let p ← readPort (trimBlanks port)
    let (mnemonic, operands) := (trimBlanks (rest.drop 1)).span (· != ' ')
    let lines ← readCommand p (String.ofList mnemonic) (splitOperands operands)
    if lines.all fun l => l.port == p && l.wellFormed then some lines else none

/-- A program in the order written: the inputs it sends to the block (R59). -/
def assemble (program : List String) : Option (List Input) := do
  let lines ← program.mapM readLine
  some (lines.flatten.map inputOfLine)

end Sys2Proof.Machine
end

