-- ==== Sys2Proof/Safety.lean ====
section
/-! DEFINITION. What counts as a good state and a run without misuse, in the spec's terms: the invariants of a channel (10_state.md R27), of STATUS (R21) and of OUT (41_quantizer_framer.md R95), the port streams of an interleaving (20_memory.md R39), and commands that break no protocol rule (42_control.md R103). -/

namespace Sys2Proof.Machine

/-- 10_state.md R27, items 1 to 4: finite registers with `tgt` and `cur` at or above the floor; no
ramp in progress means settled; a ramp in progress descends from `org` to `tgt`; bounded counters. -/
abbrev Channel.Inv (k : Channel) : Prop :=
  isFinite k.cur = true ∧ isFinite k.tgt = true ∧ isFinite k.org = true ∧
  scaled Config.floorDb ≤ scaled k.tgt ∧ scaled Config.floorDb ≤ scaled k.cur ∧
  (k.cnt = 0 → k.cur = k.tgt) ∧
  (0 < k.cnt → 0 < k.len ∧ k.cnt ≤ k.len ∧ scaled k.tgt < scaled k.org ∧
    scaled k.tgt < scaled k.cur ∧ scaled k.cur ≤ scaled k.org) ∧
  k.cnt ≤ k.len ∧ k.len ≤ Config.nMax

/-- A channel that has not been initialised since reset still holds its reset values (R121, R107). -/
abbrev Channel.FreshUntilReady (k : Channel) : Prop := k.ready = false → k = Channel.reset

/-- Whether the sticky bit of a cause is set (10_state.md R21). -/
def errorBit (x : Cause) (st : Status) : Bool :=
  match x with
  | .illegalCommand => st.eIll
  | .portViolation => st.ePort
  | .notInitialised => st.eNotInit
  | .configError => st.eConfig

/-- No error has occurred since reset (10_state.md R21). -/
abbrev Status.Clean (st : Status) : Prop :=
  st.eIll = false ∧ st.ePort = false ∧ st.eNotInit = false ∧ st.eConfig = false ∧ st.first = 0#4

/-- FIRST is 0 exactly when no error bit is set, and otherwise it is the code of a cause whose bit is
set (10_state.md R21; 60_exceptions.md R104). -/
abbrev Status.Consistent (st : Status) : Prop :=
  st.Clean ∨ ((st.first = 1#4 ∧ st.eIll = true) ∨ (st.first = 2#4 ∧ st.ePort = true) ∨
    (st.first = 3#4 ∧ st.eNotInit = true) ∨ (st.first = 4#4 ∧ st.eConfig = true))

/-- A byte stream made of whole frames: two nonzero level bytes and a zero terminator each
(41_quantizer_framer.md R95; 30_encoding.md R58). -/
def framed : List Byte → Bool
  | [] => true
  | l :: r :: z :: rest => l != 0#8 && r != 0#8 && z == 0#8 && framed rest
  | _ => false

/-- The invariant of the machine. -/
abbrev State.Inv (s : State) : Prop :=
  s.left.Inv ∧ s.right.Inv ∧ s.left.FreshUntilReady ∧ s.right.FreshUntilReady ∧
  s.status.Consistent ∧ framed s.out = true

/-- The commands of one port, in the order the port issues them (20_memory.md R39). -/
def portStream (p : Port) : List Input → List CommandWord
  | [] => []
  | .reset :: rest => portStream p rest
  | .command q w :: rest => if q = p then w :: portStream p rest else portStream p rest

/-- A command that misuses the interface in no way: it is issued on a port that may issue it, its
channel is initialised where it must be, and INIT's operands are valid (R106 to R108). -/
def permitted (i : Instr) (s : State) : Bool :=
  accepts s.port i &&
    match i with
    | .init _ fs t => (configuredLength fs t).isSome
    | .advance c _ => (s.channel c).ready
    | .update c _ => (s.channel c).ready
    | _ => true

/-- What the sink may receive of the bytes emitted: any subsequence (20_memory.md R43; log 16). -/
abbrev Delivered (received : List Byte) (s : State) : Prop := received.Sublist s.out

end Sys2Proof.Machine
end

