-- ==== Sys2Proof/Certificates/Slice0/Obligations.lean ====
section
/-! DEFINITION. The statements for the provers, from the numbered rules of spec/, and the few functions they are stated with. -/

open Sys2Proof Sys2Proof.Machine

namespace Sys2Proof.Certificates

/-- val(x), the rational number a finite binary32 pattern denotes (00_scope.md R11). -/
def value (x : F32) : ℚ := (scaled x : ℚ) / 2 ^ 149

/-- val(x) as a real number. -/
noncomputable def realValue (x : F32) : ℝ := ((value x : ℚ) : ℝ)

/-- `y` is rnd_up(r): the least finite binary32 value not below r (00_scope.md R12). -/
def IsRoundedUp (r : ℚ) (y : F32) : Prop :=
  isFinite y = true ∧ r ≤ value y ∧ ∀ z, isFinite z = true → r ≤ value z → value y ≤ value z

/-- `y` is the exact result r rounded to the nearest binary32 value, ties to even (00_scope.md R12).
That a result from FLT_MAX plus half a unit in the last place on is an infinity of the sign of r is
no sentence of R12: it is taken from IEEE 754 (log 11). -/
def IsRoundedNearest (r : ℚ) (y : F32) : Prop :=
  if |r| < 2 ^ 128 - 2 ^ 103 then
    isFinite y = true ∧ ∀ z, isFinite z = true →
      |value y - r| ≤ |value z - r| ∧
        (|value y - r| = |value z - r| → value z ≠ value y → y.getLsbD 0 = false)
  else y = if 0 < r then Config.posInf else Config.negInf

/-- The state after a command that is done and responds with `data` (30_encoding.md R55): CODE 0. -/
def answered (s : State) (data : BitVec 32) : State :=
  { s with responses := s.responses ++ [{ port := s.port, word := data ++ 0#4 }] }

/-- STATUS after `raise` of the cause with this code: `STATUS.bit[code - 1] <- 1`, and FIRST takes the
code while it is 0 (60_exceptions.md R104). -/
def raisedStatus (code : BitVec 4) (st : Status) : Status where
  eIll := st.eIll || code == 1#4
  ePort := st.ePort || code == 2#4
  eNotInit := st.eNotInit || code == 3#4
  eConfig := st.eConfig || code == 4#4
  first := if st.first = 0#4 then code else st.first

/-- The whole effect of an error: STATUS, and a response with its code and DATA 0 (R104). -/
def raised (s : State) (code : BitVec 4) : State :=
  { s with status := raisedStatus code s.status,
           responses := s.responses ++ [{ port := s.port, word := 0#32 ++ code }] }

/-- The registers of `s` with channel `c` replaced, and the response CODE 0, DATA 0. -/
def channelWritten (s : State) (c : Chan) (k : Channel) : State := answered (s.setChannel c k) 0#32

/-- The bits of a command word that its operation uses: OP, CH, RSV and the operand fields it names
(30_encoding.md R48, R52). -/
def usedBits (i : Instr) : CommandWord :=
  match i with
  | .init _ _ _ | .setlevels _ _ => 0xFFFFFFFFFFFFFFFFFF#72
  | .advance _ _ | .update _ _ => 0xFFFFFFFFFF#72
  | _ => 0xFF#72

/-- The operands with which INIT succeeds (40_smoother.md R67). -/
def InitOperandsValid (fs t : F32) : Prop :=
  (isFinite fs = true ∧ 0 < value fs) ∧ (isFinite t = true ∧ 0 ≤ value t) ∧
    ⌈value fs * value t⌉₊ ≤ 2 ^ 24

/-- val(g) ≤ val(g') for gains, infinities included and zeros equal, or g NaN (40_smoother.md R76). -/
def GainNotAbove (g g' : F32) : Prop :=
  isNaN g = true ∨ (isNaN g = false ∧ isNaN g' = false ∧ f32Lt g' g = false)

/-- The ADVANCE, and the UPDATE if there is one, of one audio block on PA (30_encoding.md R61). -/
def blockInputs (c : Chan) (b : U32 × Option F32) : List Input :=
  .command .pa (encode (.advance c b.1)) ::
    match b.2 with
    | some g => [.command .pa (encode (.update c g))]
    | none => []

/-- The state after the whole of a list of inputs, delivered to `s` in that order (20_memory.md R39). -/
def after (s : State) (ins : List Input) : Result :=
  Host.Core.run Sys2Proof.core ins.length { s with inputs := ins }

/-- The code of the response to a command word on a port: the first check of R104 that fails, in the
order of 60_exceptions.md R110; 0 when none does. -/
def expectedCode (p : Port) (w : CommandWord) (s : State) : BitVec 4 :=
  match decode w with
  | .error _ => 1#4
  | .ok i =>
    if accepts p i = false then 2#4
    else
      match i with
      | .advance c _ | .update c _ => if (s.channel c).ready then 0#4 else 3#4
      | .init _ fs t => if (configuredLength fs t).isSome then 0#4 else 4#4
      | _ => 0#4

/-- The number a run of decimal digits writes, the most significant first. -/
def digitsValue (ds : List Nat) : Nat := ds.foldl (fun acc d => 10 * acc + d) 0

/-- The text of a decimal literal: a sign, digits, a point and digits, an exponent (30_encoding.md R60). -/
def decimalText (neg : Bool) (whole fraction : List Nat) (exponent : Option (Bool × List Nat)) :
    List Char :=
  (if neg then ['-'] else []) ++ whole.map Nat.digitChar ++
    (if fraction = [] then [] else '.' :: fraction.map Nat.digitChar) ++
    match exponent with
    | none => []
    | some (down, ds) => 'e' :: ((if down then ['-'] else []) ++ ds.map Nat.digitChar)

/-- The exact number that text writes. -/
def decimalValue (neg : Bool) (whole fraction : List Nat) (exponent : Option (Bool × List Nat)) : ℚ :=
  (if neg then -1 else 1) * (digitsValue (whole ++ fraction) : ℚ) / 10 ^ fraction.length *
    match exponent with
    | none => 1
    | some (down, ds) => if down then 1 / 10 ^ digitsValue ds else 10 ^ digitsValue ds

/-- The eight hexadecimal digits of a pattern, in small letters. -/
def patternDigits (bits : F32) : List Char :=
  (List.range 8).map fun i => Nat.digitChar (bits.toNat / 16 ^ (7 - i) % 16)

/-- The threshold table of 41_quantizer_framer.md R92, T_2 to T_255. -/
def thresholds : List F32 :=
  [0xC1EEE5CB#32, 0xC1EDCB97#32, 0xC1ECB162#32, 0xC1EB972E#32, 0xC1EA7CF9#32, 0xC1E962C5#32, 0xC1E84891#32, 0xC1E72E5C#32,
   0xC1E61428#32, 0xC1E4F9F3#32, 0xC1E3DFBF#32, 0xC1E2C58B#32, 0xC1E1AB56#32, 0xC1E09122#32, 0xC1DF76ED#32, 0xC1DE5CB9#32,
   0xC1DD4285#32, 0xC1DC2850#32, 0xC1DB0E1C#32, 0xC1D9F3E7#32, 0xC1D8D9B3#32, 0xC1D7BF7E#32, 0xC1D6A54A#32, 0xC1D58B16#32,
   0xC1D470E1#32, 0xC1D356AD#32, 0xC1D23C78#32, 0xC1D12244#32, 0xC1D00810#32, 0xC1CEEDDB#32, 0xC1CDD3A7#32, 0xC1CCB973#32,
   0xC1CB9F3E#32, 0xC1CA850A#32, 0xC1C96AD5#32, 0xC1C850A1#32, 0xC1C7366C#32, 0xC1C61C38#32, 0xC1C50204#32, 0xC1C3E7CF#32,
   0xC1C2CD9B#32, 0xC1C1B367#32, 0xC1C09932#32, 0xC1BF7EFD#32, 0xC1BE64C9#32, 0xC1BD4A95#32, 0xC1BC3060#32, 0xC1BB162C#32,
   0xC1B9FBF8#32, 0xC1B8E1C3#32, 0xC1B7C78F#32, 0xC1B6AD5A#32, 0xC1B59326#32, 0xC1B478F1#32, 0xC1B35EBD#32, 0xC1B24489#32,
   0xC1B12A54#32, 0xC1B01020#32, 0xC1AEF5EC#32, 0xC1ADDBB7#32, 0xC1ACC183#32, 0xC1ABA74E#32, 0xC1AA8D1A#32, 0xC1A972E6#32] ++
  [0xC1A858B1#32, 0xC1A73E7D#32, 0xC1A62448#32, 0xC1A50A14#32, 0xC1A3EFE0#32, 0xC1A2D5AB#32, 0xC1A1BB77#32, 0xC1A0A142#32,
   0xC19F870E#32, 0xC19E6CD9#32, 0xC19D52A5#32, 0xC19C3871#32, 0xC19B1E3C#32, 0xC19A0408#32, 0xC198E9D3#32, 0xC197CF9F#32,
   0xC196B56B#32, 0xC1959B36#32, 0xC1948102#32, 0xC19366CE#32, 0xC1924C99#32, 0xC1913265#32, 0xC1901830#32, 0xC18EFDFB#32,
   0xC18DE3C7#32, 0xC18CC993#32, 0xC18BAF5E#32, 0xC18A952A#32, 0xC1897AF6#32, 0xC18860C1#32, 0xC187468D#32, 0xC1862C58#32,
   0xC1851224#32, 0xC183F7F0#32, 0xC182DDBB#32, 0xC181C387#32, 0xC180A953#32, 0xC17F1E3D#32, 0xC17CE9D4#32, 0xC17AB56A#32,
   0xC1788102#32, 0xC1764C99#32, 0xC1741830#32, 0xC171E3C7#32, 0xC16FAF5F#32, 0xC16D7AF6#32, 0xC16B468D#32, 0xC1691224#32,
   0xC166DDBC#32, 0xC164A953#32, 0xC16274EA#32, 0xC1604081#32, 0xC15E0C19#32, 0xC15BD7B1#32, 0xC159A346#32, 0xC1576EDD#32,
   0xC1553A75#32, 0xC153060D#32, 0xC150D1A2#32, 0xC14E9D3A#32, 0xC14C68D2#32, 0xC14A3469#32, 0xC1480001#32, 0xC145CB99#32] ++
  [0xC143972E#32, 0xC14162C6#32, 0xC13F2E5E#32, 0xC13CF9F5#32, 0xC13AC58D#32, 0xC1389122#32, 0xC1365CBA#32, 0xC1342852#32,
   0xC131F3E9#32, 0xC12FBF81#32, 0xC12D8B19#32, 0xC12B56AE#32, 0xC1292246#32, 0xC126EDDD#32, 0xC124B975#32, 0xC122850A#32,
   0xC12050A1#32, 0xC11E1C39#32, 0xC11BE7CE#32, 0xC119B366#32, 0xC1177EFE#32, 0xC1154A95#32, 0xC113162D#32, 0xC110E1C5#32,
   0xC10EAD5A#32, 0xC10C78F2#32, 0xC10A4489#32, 0xC1081021#32, 0xC105DBB9#32, 0xC103A74E#32, 0xC10172E6#32, 0xC0FE7CFD#32,
   0xC0FA142A#32, 0xC0F5AB5A#32, 0xC0F14285#32, 0xC0ECD9B5#32, 0xC0E870E5#32, 0xC0E40812#32, 0xC0DF9F42#32, 0xC0DB3672#32,
   0xC0D6CD9D#32, 0xC0D264CD#32, 0xC0CDFBFA#32, 0xC0C9932A#32, 0xC0C52A5A#32, 0xC0C0C185#32, 0xC0BC58B2#32, 0xC0B7EFDD#32,
   0xC0B3870D#32, 0xC0AF1E3D#32, 0xC0AAB56A#32, 0xC0A64C9A#32, 0xC0A1E3CA#32, 0xC09D7AF5#32, 0xC0991225#32, 0xC094A952#32,
   0xC0904082#32, 0xC08BD7B2#32, 0xC0876EDD#32, 0xC083060D#32, 0xC07D3A7B#32, 0xC07468D4#32, 0xC06B9734#32, 0xC062C58B#32] ++
  [0xC059F3EB#32, 0xC051224B#32, 0xC04850A4#32, 0xC03F7F04#32, 0xC036AD64#32, 0xC02DDBBB#32, 0xC0250A1B#32, 0xC01C3874#32,
   0xC01366D4#32, 0xC00A9534#32, 0xC001C38B#32, 0xBFF1E3D7#32, 0xBFE04097#32, 0xBFCE9D48#32, 0xBFBCF9F7#32, 0xBFAB56A8#32,
   0xBF99B368#32, 0xBF881028#32, 0xBF6CD9AF#32, 0xBF49932F#32, 0xBF264CAF#32, 0xBF030610#32, 0xBEBF7F20#32, 0xBE71E3BF#32,
   0xBDC9937F#32, 0x3D214101#32, 0x3E356AC0#32, 0x3EA14260#32, 0x3EE7CF60#32, 0x3F172E51#32, 0x3F3A74D1#32, 0x3F5DBB70#32,
   0x3F8080F8#32, 0x3F922438#32, 0x3FA3C789#32, 0x3FB56AC9#32, 0x3FC70E09#32, 0x3FD8B158#32, 0x3FEA5498#32, 0x3FFBF7E9#32,
   0x4006CD98#32, 0x400F9F38#32, 0x401870D8#32, 0x40214278#32, 0x402A1418#32, 0x4032E5C9#32, 0x403BB769#32, 0x40448918#32,
   0x404D5AB8#32, 0x40562C58#32, 0x405EFDF8#32, 0x4067CF98#32, 0x4070A149#32, 0x407972E9#32, 0x40812245#32, 0x40858B15#32,
   0x4089F3E5#32, 0x408E5CB5#32, 0x4092C58C#32, 0x40972E5C#32, 0x409B972C#32, 0x409FFFFC#32]

end Sys2Proof.Certificates

open Sys2Proof.Certificates

/-! ### Encoding -/

/-- Decoding the word the assembler writes gives the command back, for every command and every
operand value (30_encoding.md R48, R52, R53, R59). -/
def Obligations.DecodeOfEncode : Prop := ∀ i : Instr, decode (encode i) = .ok i

/-- A word is a command exactly when the bits that the command's operation uses are those the
assembler writes: no used bit is dropped, and every unused field is ignored (R50, R52, R53). -/
def Obligations.WordDecodesIffUsedBitsMatch : Prop :=
  ∀ (w : CommandWord) (i : Instr), decode w = .ok i ↔ w &&& usedBits i = encode i

/-- 30_encoding.md R54 and R57: a word is illegal exactly when OP is 0xA to 0xF, or RSV is not 0, or
CH is 1 on NOP, SAMPLE, SETLEVELS, ENCODE, GETDISP or GETSTAT; an illegal command raises
IllegalCommand and has no other effect; legality depends on bits 7:0 alone, and 14 of their 256
values are legal. -/
def Obligations.IllegalEncodings : Prop :=
  (∀ w : CommandWord, (∃ e, decode w = .error e) ↔
    (10 ≤ (w.extractLsb' 0 4).toNat ∨ w.extractLsb' 5 3 ≠ 0#3 ∨
      (w.extractLsb' 4 1 = 1#1 ∧ (w.extractLsb' 0 4).toNat ∈ [0, 5, 6, 7, 8, 9]))) ∧
  (∀ (w : CommandWord) (e : EncodingError) (p : Port) (rest : List Input) (s : State),
    decode w = .error e → s.inputs = .command p w :: rest →
      step s = .next (raised (s.acceptCommand p rest) 1#4)) ∧
  (∀ w : CommandWord, (∃ e, decode w = .error e) ↔ ∃ e, decode (w &&& 0xFF#72) = .error e) ∧
  ((List.range 256).filter fun b => (decodeTableWord 8 b).isSome).length = 14

/-- 30_encoding.md R51: a nonzero RSV is illegal, whatever OP is. -/
def Obligations.NonzeroReservedBitsIllegal : Prop :=
  ∀ w : CommandWord, w.extractLsb' 5 3 ≠ 0#3 → ∃ e, decode w = .error e

/-- A few words written out from the encodings of R48, R53 and the examples of R67, R69, R71, R87 and
R102 decode to the commands they stand for. -/
def Obligations.KnownWordsDecode : Prop :=
  decode 0x3F000000473B800001#72 = .ok (.init .left 0x473B8000#32 0x3F000000#32) ∧
  decode 0x3F000000473B800011#72 = .ok (.init .right 0x473B8000#32 0x3F000000#32) ∧
  decode 0x00000000000001E002#72 = .ok (.advance .left 480#32) ∧
  decode 0x000000003DCCCCCD03#72 = .ok (.update .left 0x3DCCCCCD#32) ∧
  decode 0x000000000000000014#72 = .ok (.getcur .right) ∧
  decode 0x41200000C220000006#72 = .ok (.setlevels 0xC2200000#32 0x41200000#32) ∧
  decode 0xFFFFFFFFFFFFFFFF00#72 = .ok .nop ∧
  decode 0x000000000000000005#72 = .ok .sample ∧
  decode 0x000000000000000007#72 = .ok .encode ∧
  decode 0x000000000000000008#72 = .ok .getdisp ∧
  decode 0x000000000000000009#72 = .ok .getstat ∧
  decode 0x00000000000000000A#72 = .error .reservedOperation ∧
  decode 0x000000000000000021#72 = .error .reservedBits ∧
  decode 0x000000000000000015#72 = .error .channelBit

/-! ### Stepping and ordering -/

/-- A step runs the decoded command: with a command word pending that decodes to `i`, the step is
`exec i` in the state that differs only in the port that issued it and in that the input is taken
(60_exceptions.md R104; 20_memory.md R39). -/
def Obligations.StepRunsDecodedCommand : Prop :=
  ∀ (s : State) (p : Port) (w : CommandWord) (rest : List Input) (i : Instr),
    s.inputs = .command p w :: rest → decode w = .ok i →
      step s = exec i { s with port := p, inputs := rest }

/-- The machine never stops: from every state a step answers a next state ("The block does not
stop, stall or change mode after an error", 60_exceptions.md R104; that an empty input list is an
idle step is R120 and log 9). -/
def Obligations.StepAlwaysAnswersNext : Prop := ∀ s : State, ∃ t, step s = .next t

/-- With no input the block holds its state unchanged (60_exceptions.md R120; log 9). -/
def Obligations.IdleHoldsState : Prop := ∀ s : State, s.inputs = [] → step s = .next s

/-- Commands take effect one at a time in the total order of 20_memory.md R39: a step on a pending
command removes exactly that command from its port's stream and leaves the other port's stream as
it was. -/
def Obligations.StepTakesHeadOfItsPort : Prop :=
  ∀ (s t : State) (p q : Port) (w : CommandWord) (rest : List Input),
    s.inputs = .command p w :: rest → step s = .next t →
      t.inputs = rest ∧
      portStream q s.inputs = (if q = p then w :: portStream q t.inputs else portStream q t.inputs)

/-- Every command, legal or not, returns exactly one response, on the port that issued it; its CODE is
that of the first check that fails in the order IllegalCommand, PortViolation, NotInitialised,
ConfigError, and 0 when none does; its DATA is 0 for every error and for every command but GETCUR,
GETDISP and GETSTAT (30_encoding.md R55; 60_exceptions.md R110). -/
def Obligations.OneResponsePerCommand : Prop :=
  ∀ (s : State) (p : Port) (w : CommandWord) (rest : List Input),
    s.inputs = .command p w :: rest →
      ∃ t d, step s = .next t ∧
        t.responses = s.responses ++ [{ port := p, word := d ++ expectedCode p w s }] ∧
        ((expectedCode p w s ≠ 0#4 ∨
          ∀ i, decode w = .ok i → i ≠ .getcur .left ∧ i ≠ .getcur .right ∧ i ≠ .getdisp ∧ i ≠ .getstat) →
          d = 0#32)

/-! ### Reset -/

/-- 70_reset_and_hazards.md R121: the value of every register of the block after reset. -/
def Obligations.ResetValues : Prop :=
  (∀ c : Chan, State.reset.channel c =
    { cur := 0xC2C80000#32, tgt := 0xC2C80000#32, org := 0xC2C80000#32, cnt := 0, len := 0,
      ready := false }) ∧
  State.reset.enc = { lvlL := 0xC2C80000#32, lvlR := 0xC2C80000#32 } ∧
  statusWord State.reset = 0#32 ∧ State.reset.out = []

/-- The reset input puts every register in its reset state, whatever the state before it; that the
inputs still to come stay pending and that the response history restarts is the model's choice
(log 7). -/
def Obligations.ResetInputRestoresReset : Prop :=
  ∀ (s : State) (rest : List Input), s.inputs = .reset :: rest →
    step s = .next { State.reset with inputs := rest }

/-- 70_reset_and_hazards.md R123: what the reset state gives before any INIT. -/
def Obligations.BeforeAnyInit : Prop :=
  (∀ (p : Port) (c : Chan), exec (.getcur c) { State.reset with port := p } =
    .next (answered { State.reset with port := p } 0xC2C80000#32)) ∧
  (∃ t, after State.reset [.command .pe 0x5#72, .command .pe 0x7#72] = .next t ∧
    t.out = [1#8, 1#8, 0#8]) ∧
  exec .getdisp { State.reset with port := .pe } =
    .next (answered { State.reset with port := .pe } 0xC2C80000#32) ∧
  (∀ p : Port, exec .getstat { State.reset with port := p } =
    .next (answered { State.reset with port := p } 0#32)) ∧
  (∀ (c : Chan) (n g : BitVec 32),
    exec (.advance c n) { State.reset with port := .pa } =
      .next (raised { State.reset with port := .pa } 3#4) ∧
    exec (.update c g) { State.reset with port := .pa } =
      .next (raised { State.reset with port := .pa } 3#4))

/-! ### Errors and STATUS -/

/-- 60_exceptions.md R106: a legal command on a port that may not issue it raises PortViolation, with
no effect but STATUS and the response, in every state (so before NotInitialised and ConfigError). -/
def Obligations.PortViolations : Prop :=
  ∀ s : State,
    (s.port = .pe → ∀ (c : Chan) (x y : BitVec 32),
      exec (.init c x y) s = .next (raised s 2#4) ∧ exec (.advance c x) s = .next (raised s 2#4) ∧
      exec (.update c x) s = .next (raised s 2#4)) ∧
    (s.port = .pa → ∀ x y : BitVec 32,
      exec .sample s = .next (raised s 2#4) ∧ exec (.setlevels x y) s = .next (raised s 2#4) ∧
      exec .encode s = .next (raised s 2#4) ∧ exec .getdisp s = .next (raised s 2#4))

/-- 60_exceptions.md R107: ADVANCE and UPDATE on a channel that is not ready raise NotInitialised;
GETCUR and SAMPLE are allowed and read its current value, which is -100.0 while the channel holds
its reset values, as it does until its first INIT. -/
def Obligations.NotInitialisedErrors : Prop :=
  ∀ (s : State) (c : Chan), (s.channel c).ready = false →
    (s.port = .pa → ∀ x : BitVec 32,
      exec (.advance c x) s = .next (raised s 3#4) ∧ exec (.update c x) s = .next (raised s 3#4)) ∧
    exec (.getcur c) s = .next (answered s (s.channel c).cur) ∧
    (s.port = .pe → exec .sample s =
      .next (answered { s with enc := { lvlL := s.left.cur, lvlR := s.right.cur } } 0#32)) ∧
    ((s.channel c).FreshUntilReady → (s.channel c).cur = 0xC2C80000#32)

/-- 60_exceptions.md R108: INIT on PA raises ConfigError exactly when an operand is not valid, and
then the channel keeps every register it had. -/
def Obligations.ConfigErrors : Prop :=
  ∀ (s : State) (c : Chan) (fs t : F32), s.port = .pa →
    (exec (.init c fs t) s = .next (raised s 4#4) ↔ ¬ InitOperandsValid fs t)

/-- 10_state.md R21: each bit of the STATUS word. -/
def Obligations.StatusWordBits : Prop :=
  ∀ (s : State) (k : Nat), k < 32 →
    (statusWord s).getLsbD k =
      if k = 0 then s.status.eIll else if k = 1 then s.status.ePort
      else if k = 2 then s.status.eNotInit else if k = 3 then s.status.eConfig
      else if k = 4 then (s.channel .left).ready else if k = 5 then (s.channel .right).ready
      else if 8 ≤ k ∧ k ≤ 11 then s.status.first.getLsbD (k - 8) else false

/-- A command changes STATUS exactly as its error does, and a command that is done leaves it: the
error bits and FIRST after a step are those of R104 for the code of the response, so sticky bits
stay set and FIRST keeps the first cause (60_exceptions.md R104, R113). -/
def Obligations.StatusRecordsErrors : Prop :=
  ∀ (s t : State) (p : Port) (w : CommandWord) (rest : List Input),
    s.inputs = .command p w :: rest → step s = .next t →
      t.status = if expectedCode p w s = 0#4 then s.status else raisedStatus (expectedCode p w s) s.status

/-- Only reset clears: a step that takes no reset input leaves every set error bit set, a nonzero FIRST
as it is (10_state.md R21), every ready channel ready (R20), and only appends to OUT (R30). -/
def Obligations.OnlyResetClears : Prop :=
  ∀ s t : State, (∀ rest, s.inputs ≠ .reset :: rest) → step s = .next t →
    (∀ x : Cause, errorBit x s.status = true → errorBit x t.status = true) ∧
    (s.status.first ≠ 0#4 → t.status.first = s.status.first) ∧
    (∀ c : Chan, (s.channel c).ready = true → (t.channel c).ready = true) ∧
    ∃ bytes, t.out = s.out ++ bytes

/-- 42_control.md R103: a program that never breaks the command protocol never sets an error bit, and
once both channels are initialised GETSTAT reads 0x00000030. -/
def Obligations.ConformingCommandsKeepStatusClean : Prop :=
  ∀ (s : State) (p : Port) (i : Instr) (w : CommandWord) (rest : List Input),
    s.status.Clean → s.inputs = .command p w :: rest → decode w = .ok i →
      permitted i (s.acceptCommand p rest) = true →
      ∃ t, step s = .next t ∧ t.status.Clean ∧
        (t.left.ready = true → t.right.ready = true →
          exec .getstat t = .next (answered t 0x00000030#32))

/-- No command's result depends on STATUS (42_control.md R103): from two states that differ only in
STATUS, a command leaves the same registers, and the same response but for what GETSTAT reads. -/
def Obligations.ResultsIndependentOfStatus : Prop :=
  ∀ (s t : State) (i : Instr) (st st' : Status), exec i { s with status := st } = .next t →
    ∃ t', exec i { s with status := st' } = .next t' ∧
      t'.left = t.left ∧ t'.right = t.right ∧ t'.enc = t.enc ∧ t'.out = t.out ∧
      (i ≠ .getstat → t'.responses = t.responses)

/-! ### The control commands -/

/-- 42_control.md R101: NOP, on either port and whatever A and B hold, responds (0, 0) and changes no
register and emits no byte; with RSV not 0 or CH = 1 the word is illegal. -/
def Obligations.NopDoesNothing : Prop :=
  (∀ s : State, exec .nop s = .next (answered s 0#32)) ∧
  (∀ w : CommandWord, w.extractLsb' 0 8 = 0#8 → decode w = .ok .nop) ∧
  (∀ w : CommandWord, w.extractLsb' 0 4 = 0#4 →
    (w.extractLsb' 5 3 ≠ 0#3 ∨ w.extractLsb' 4 1 = 1#1) → ∃ e, decode w = .error e)

/-- 42_control.md R102: GETSTAT, on either port, responds with STATUS and clears nothing. -/
def Obligations.GetstatReadsStatus : Prop :=
  ∀ s : State, exec .getstat s = .next (answered s (statusWord s))

/-! ### INIT -/

/-- 40_smoother.md R67 (pseudocode): INIT on PA with valid operands settles its channel at the floor
with N = ⌈val(fs) × val(T)⌉ and sets ready; nothing else changes but the response. -/
def Obligations.InitSettlesChannel : Prop :=
  ∀ (s : State) (c : Chan) (fs t : F32), s.port = .pa → InitOperandsValid fs t →
    exec (.init c fs t) s = .next (channelWritten s c
      { cur := 0xC2C80000#32, tgt := 0xC2C80000#32, org := 0xC2C80000#32, cnt := 0,
        len := ⌈value fs * value t⌉₊, ready := true })

/-- 40_smoother.md R68: N is the least integer not below the exact product, with the rule's values. -/
def Obligations.RampLengthIsCeiling : Prop :=
  (∀ fs t : F32, 0 ≤ value fs → 0 ≤ value t → rampLength fs t = ⌈value fs * value t⌉₊) ∧
  rampLength 0x472C4400#32 0x3F000000#32 = 22050 ∧ rampLength 0x473B8000#32 0x3F000000#32 = 24000 ∧
  rampLength 0x47BB8000#32 0x3F000000#32 = 48000 ∧ rampLength 0x462C4400#32 0x3F000000#32 = 5513 ∧
  rampLength 0x472C4400#32 0x3DCCCCCD#32 = 4411

/-! ### ADVANCE -/

/-- 40_smoother.md R69, first branch: ADVANCE by n ≥ cnt samples lands exactly on the target. -/
def Obligations.AdvanceEndsRamp : Prop :=
  ∀ (s : State) (c : Chan) (n : U32), s.port = .pa → (s.channel c).ready = true →
    (s.channel c).cnt ≤ n.toNat →
    exec (.advance c n) s =
      .next (channelWritten s c { s.channel c with cur := (s.channel c).tgt, cnt := 0 })

/-- 40_smoother.md R69, second branch, with R70: ADVANCE inside a ramp leaves cnt - n samples, and the
value is the exact point of the line from org to tgt, rounded up; org itself at its start. The
premises hold in every state of the invariant with a ramp in progress (10_state.md R27). -/
def Obligations.AdvanceFollowsLine : Prop :=
  ∀ (s : State) (c : Chan) (n : U32), s.port = .pa → (s.channel c).ready = true →
    (s.channel c).Inv → n.toNat < (s.channel c).cnt →
    ∃ v : F32,
      exec (.advance c n) s = .next (channelWritten s c
        { s.channel c with cur := v, cnt := (s.channel c).cnt - n.toNat }) ∧
      IsRoundedUp (value (s.channel c).org + (value (s.channel c).tgt - value (s.channel c).org) *
        (((s.channel c).len - ((s.channel c).cnt - n.toNat) : Nat) : ℚ) / ((s.channel c).len : ℚ)) v ∧
      ((s.channel c).cnt - n.toNat = (s.channel c).len → v = (s.channel c).org)

/-- 40_smoother.md R70: RAMP is the exact point of the line rounded up; it lies above t and not above
o, does not increase as e grows, and is o at e = 0. -/
def Obligations.RampDescendsWithoutOvershoot : Prop :=
  ∀ (o t : F32) (n e : Nat), isFinite o = true → isFinite t = true → value t < value o → e < n →
    IsRoundedUp (value o + (value t - value o) * (e : ℚ) / (n : ℚ)) (rampValue o t n e) ∧
    value t < value (rampValue o t n e) ∧ value (rampValue o t n e) ≤ value o ∧
    (∀ e', e ≤ e' → e' < n → value (rampValue o t n e') ≤ value (rampValue o t n e)) ∧
    rampValue o t n 0 = o

/-- 70_reset_and_hazards.md R127: two ADVANCEs with no UPDATE between them together advance by the sum
of their counts (the channels afterwards are those of one ADVANCE by the sum). -/
def Obligations.AdvancesAdd : Prop :=
  ∀ (s : State) (c : Chan) (a b : U32), s.port = .pa → (s.channel c).ready = true →
    (s.channel c).Inv → a.toNat + b.toNat < 2 ^ 32 →
    ∃ t u v, exec (.advance c a) s = .next t ∧ exec (.advance c b) t = .next u ∧
      exec (.advance c (a + b)) s = .next v ∧ u.left = v.left ∧ u.right = v.right

/-- 40_smoother.md R75: a ramp just started from org, with blocks of any sizes whose readings are
absent or give the target itself: after s < N samples the value is RAMP(o, t, N, s), above t and
not above o; from the first ADVANCE with s ≥ N on it is exactly t; and no further ADVANCE raises
it. -/
def Obligations.ReleaseFollowsLineToTarget : Prop :=
  ∀ (s : State) (c : Chan) (blocks : List (U32 × Option F32)), (s.channel c).ready = true →
    (s.channel c).Inv → 0 < (s.channel c).cnt → (s.channel c).cnt = (s.channel c).len →
    (s.channel c).cur = (s.channel c).org →
    (∀ b ∈ blocks, ∀ g, b.2 = some g → gainToDb g = (s.channel c).tgt) →
    ∃ t, after s (blocks.flatMap (blockInputs c)) = .next t ∧
      (if (blocks.map fun b => b.1.toNat).sum < (s.channel c).len then
        (t.channel c).cur = rampValue (s.channel c).org (s.channel c).tgt (s.channel c).len
          (blocks.map fun b => b.1.toNat).sum ∧
        value (s.channel c).tgt < value (t.channel c).cur ∧
        value (t.channel c).cur ≤ value (s.channel c).org
      else (t.channel c).cur = (s.channel c).tgt) ∧
      ∀ n : U32, ∃ u, exec (.advance c n) { t with port := .pa } = .next u ∧
        value (u.channel c).cur ≤ value (t.channel c).cur

/-! ### UPDATE and gain to decibels -/

/-- 40_smoother.md R71, attack: a reading not below the current value sets cur, tgt and org to it and
ends the ramp; nothing else changes but the response. -/
def Obligations.UpdateAttacksAtOnce : Prop :=
  ∀ (s : State) (c : Chan) (g : F32), s.port = .pa → (s.channel c).ready = true →
    isFinite (s.channel c).cur = true → value (s.channel c).cur ≤ value (gainToDb g) →
    exec (.update c g) s = .next (channelWritten s c { s.channel c with
      cur := gainToDb g, tgt := gainToDb g, org := gainToDb g, cnt := 0 })

/-- 40_smoother.md R71 and R72, release: a reading below the current value leaves the ramp alone when
it is the target already, else jumps when N = 0, else starts a full ramp from the current value. -/
def Obligations.UpdateReleases : Prop :=
  ∀ (s : State) (c : Chan) (g : F32), s.port = .pa → (s.channel c).ready = true →
    isFinite (s.channel c).cur = true → isFinite (s.channel c).tgt = true →
    value (gainToDb g) < value (s.channel c).cur →
    exec (.update c g) s = .next (channelWritten s c
      (if value (gainToDb g) = value (s.channel c).tgt then s.channel c
      else if (s.channel c).len = 0 then
        { s.channel c with cur := gainToDb g, tgt := gainToDb g, org := gainToDb g, cnt := 0 }
      else { s.channel c with org := (s.channel c).cur, tgt := gainToDb g, cnt := (s.channel c).len }))

/-- 40_smoother.md R65: DB of NaN, the zeros, negative gains and -inf is the floor; of +inf, FLT_MAX;
of any other gain, 20 × LOG10 of it in binary32, raised to the floor when it is below. It is always
finite and at least -100. -/
def Obligations.DecibelsOfGain : Prop :=
  ∀ g : F32,
    ((isNaN g = true ∨ magnitude g = 0 ∨ isNegative g = true) → gainToDb g = 0xC2C80000#32) ∧
    gainToDb 0x7F800000#32 = 0x7F7FFFFF#32 ∧
    (isFinite g = true → isNegative g = false → magnitude g ≠ 0 →
      gainToDb g = (if value (f32Mul 0x41A00000#32 (log10 g)) < -100 then 0xC2C80000#32
        else f32Mul 0x41A00000#32 (log10 g)) ∧
      IsRoundedNearest (20 * value (log10 g)) (f32Mul 0x41A00000#32 (log10 g))) ∧
    isFinite (gainToDb g) = true ∧ -100 ≤ value (gainToDb g)

/-- 40_smoother.md R77: DB is never NaN; RAMP is finite on the finite operands it is used with; so no
command leaves a NaN in cur, from any state whose channels meet their invariants; and a NaN gain
acts exactly as gain 0. -/
def Obligations.NoNaNFromGains : Prop :=
  (∀ g : F32, isNaN (gainToDb g) = false) ∧
  (∀ (o t : F32) (n e : Nat), isFinite o = true → isFinite t = true → value t < value o → e < n →
    isFinite (rampValue o t n e) = true) ∧
  (∀ (i : Instr) (s t : State), s.left.Inv → s.right.Inv → exec i s = .next t →
    ∀ c : Chan, isNaN (t.channel c).cur = false) ∧
  (∀ (s : State) (c : Chan) (g : F32), isNaN g = true →
    gainToDb g = 0xC2C80000#32 ∧
    ∃ t, exec (.update c g) s = .next t ∧ exec (.update c 0#32) s = .next t)

/-- 40_smoother.md R66, L1, L3 and L4: LOG10 of a positive finite gain is finite; it is the logarithm
itself where that is a binary32 value (log 2), so +0 at 1.0; elsewhere it is one of the two binary32
values nearest to the logarithm, which no other is nearer to than either. -/
def Obligations.Log10IsFaithful : Prop :=
  log10 0x3F800000#32 = 0x00000000#32 ∧
  ∀ g : F32, isFinite g = true → 0 < value g →
    isFinite (log10 g) = true ∧
    ((∃ y : F32, isFinite y = true ∧ realValue y = Real.logb 10 (realValue g)) →
      realValue (log10 g) = Real.logb 10 (realValue g)) ∧
    (realValue (log10 g) = Real.logb 10 (realValue g) ∨
      ∃ p q : F32, isFinite p = true ∧ isFinite q = true ∧ value p ≠ value q ∧
        (∀ z : F32, isFinite z = true → value z ≠ value p → value z ≠ value q →
          |realValue p - Real.logb 10 (realValue g)| ≤ |realValue z - Real.logb 10 (realValue g)| ∧
          |realValue q - Real.logb 10 (realValue g)| ≤ |realValue z - Real.logb 10 (realValue g)|) ∧
        (log10 g = p ∨ log10 g = q))

/-- 40_smoother.md R66, L2: LOG10 is monotone. -/
def Obligations.Log10IsMonotone : Prop :=
  ∀ g g' : F32, isFinite g = true → isFinite g' = true → 0 < value g → value g ≤ value g' →
    value (log10 g) ≤ value (log10 g')

/-- 40_smoother.md R76: DB is monotone in the gain, and so is the current value after UPDATE from one
state; both are finite. -/
def Obligations.UpdateMonotoneInGain : Prop :=
  (∀ g g' : F32, GainNotAbove g g' → value (gainToDb g) ≤ value (gainToDb g')) ∧
  (∀ (s : State) (c : Chan) (g g' : F32), (s.channel c).Inv → GainNotAbove g g' →
    ∃ t t', exec (.update c g) s = .next t ∧ exec (.update c g') s = .next t' ∧
      isFinite (t.channel c).cur = true ∧ isFinite (t'.channel c).cur = true ∧
      value (t.channel c).cur ≤ value (t'.channel c).cur)

/-- 40_smoother.md R74: after an UPDATE whose DB(g) is not below cur, GETCUR returns exactly DB(g) with
no ADVANCE between. -/
def Obligations.InstantAttackIsRead : Prop :=
  ∀ (s : State) (c : Chan) (g : F32), s.port = .pa → (s.channel c).ready = true →
    isFinite (s.channel c).cur = true → value (s.channel c).cur ≤ value (gainToDb g) →
    ∃ t, exec (.update c g) s = .next t ∧
      ∀ p : Port, exec (.getcur c) { t with port := p } =
        .next (answered { t with port := p } (gainToDb g))

/-- 40_smoother.md R79: a new reading below cur, not the present target, and then an ADVANCE of n < N
samples give cur' = rnd_up(cur + (v - cur)·n/N). -/
def Obligations.RetargetingIsFirstOrder : Prop :=
  ∀ (s : State) (c : Chan) (g : F32) (n : U32), s.port = .pa → (s.channel c).ready = true →
    (s.channel c).Inv → value (gainToDb g) < value (s.channel c).cur →
    value (gainToDb g) ≠ value (s.channel c).tgt → n.toNat < (s.channel c).len →
    ∃ t u, exec (.update c g) s = .next t ∧ exec (.advance c n) t = .next u ∧
      (t.channel c).org = (s.channel c).cur ∧
      IsRoundedUp (value (s.channel c).cur + (value (gainToDb g) - value (s.channel c).cur) *
        (n.toNat : ℚ) / ((s.channel c).len : ℚ)) (u.channel c).cur

/-! ### GETCUR, SAMPLE and SETLEVELS -/

/-- 40_smoother.md R73: GETCUR, on either port and before INIT too, responds with cur and changes
nothing. -/
def Obligations.GetcurReadsCurrent : Prop :=
  ∀ (s : State) (c : Chan), exec (.getcur c) s = .next (answered s (s.channel c).cur)

/-- 41_quantizer_framer.md R88: SAMPLE on PE copies both current values in one step. -/
def Obligations.SampleCopiesBoth : Prop :=
  ∀ s : State, s.port = .pe → exec .sample s =
    .next (answered { s with enc := { lvlL := s.left.cur, lvlR := s.right.cur } } 0#32)

/-- 41_quantizer_framer.md R87: SETLEVELS on PE stores both patterns unchanged, NaN payloads
included. -/
def Obligations.SetlevelsStoresPatterns : Prop :=
  ∀ (s : State) (l r : F32), s.port = .pe → exec (.setlevels l r) s =
    .next (answered { s with enc := { lvlL := l, lvlR := r } } 0#32)

/-! ### ENCODE and GETDISP -/

/-- 41_quantizer_framer.md R89: ENCODE on PE appends the level bytes of the two readings, neither of
them 0, and the terminator 0x00, in that order, and changes no reading. -/
def Obligations.EncodeAppendsFrame : Prop :=
  ∀ s : State, s.port = .pe →
    exec .encode s = .next (answered
      { s with out := s.out ++ [quantize s.enc.lvlL, quantize s.enc.lvlR, 0x00#8] } 0#32) ∧
    quantize s.enc.lvlL ≠ 0#8 ∧ quantize s.enc.lvlR ≠ 0#8

/-- 41_quantizer_framer.md R95: in a stream of frames the byte 0x00 stands exactly at the offsets
3j + 2. -/
def Obligations.ZeroOnlyAtFrameEnds : Prop :=
  ∀ (s : State) (k : Nat) (h : k < s.out.length), framed s.out = true →
    (s.out[k] = 0#8 ↔ k % 3 = 2)

/-- 41_quantizer_framer.md R86: for 1 ≤ B ≤ 8 the constant of step 2 is 2^B - 2, Q is in
[1, 2^B - 1], and for B = 1 every input gives 1; this hardware has B = 8. -/
def Obligations.LevelRangeForEveryResolution : Prop :=
  (∀ (b : Nat) (x : F32), 1 ≤ b → b ≤ 8 →
    value (levelSpan b) = 2 ^ b - 2 ∧ 1 ≤ quantizeFor b x ∧ quantizeFor b x ≤ 2 ^ b - 1) ∧
  (∀ x : F32, quantizeFor 1 x = 1) ∧ (∀ x : F32, quantize x = BitVec.ofNat 8 (quantizeFor 8 x))

/-- 41_quantizer_framer.md R91: Q is monotone, takes every value from 1 to 255 and never 0, is 1 for
every x ≤ -30 and for NaN, and 255 for every x ≥ 0x409FFFFC. -/
def Obligations.QuantizerIsMonotoneOnto : Prop :=
  (∀ x y : F32, isNaN x = false → isNaN y = false → f32Lt y x = false →
    (quantize x).toNat ≤ (quantize y).toNat) ∧
  (∀ k : Nat, 1 ≤ k → k ≤ 255 → ∃ x : F32, (quantize x).toNat = k) ∧
  (∀ x : F32, quantize x ≠ 0#8) ∧
  (∀ x : F32, (isNaN x = true ∨ (isNaN x = false ∧ f32Lt 0xC1F00000#32 x = false)) → quantize x = 1#8) ∧
  (∀ x : F32, isNaN x = false → f32Lt x 0x409FFFFC#32 = false → quantize x = 255#8)

/-- 41_quantizer_framer.md R92: Q is 1 for NaN and else 1 plus the number of thresholds T_k not above
x; each T_k is the least value with Q ≥ k; both zeros give 218. -/
def Obligations.QuantizerThresholdForm : Prop :=
  (∀ x : F32, (quantize x).toNat =
    if isNaN x then 1 else 1 + (thresholds.filter fun t => !f32Lt x t).length) ∧
  (∀ (j : Nat) (h : j < thresholds.length), (quantize thresholds[j]).toNat = j + 2 ∧
    ∀ x : F32, f32Lt x thresholds[j] = true → (quantize x).toNat < j + 2) ∧
  quantize 0x00000000#32 = 218#8 ∧ quantize 0x80000000#32 = 218#8

/-- The values of Q that 41_quantizer_framer.md R93 and R97 list, and Q(-12.5) = 128. -/
def Obligations.QuantizerVectors : Prop :=
  (quantize 0xC2200000#32, quantize 0x41200000#32, quantize 0xC1F00000#32, quantize 0x40A00000#32) =
    (1#8, 255#8, 1#8, 255#8) ∧
  quantize 0xC1480000#32 = 128#8 ∧
  [0x00000000#32, 0xC040A8C2#32, 0xC0C0A8C2#32, 0xC140A8C2#32, 0xC1A00000#32, 0xBECCCCCC#32,
    0x40C0A8C2#32, 0xC2C80000#32, 0x7F7FFFFF#32, 0x7FC00000#32, 0xFF800000#32, 0x7F800000#32].map
    quantize =
  [218#8, 196#8, 175#8, 131#8, 73#8, 215#8, 255#8, 1#8, 255#8, 1#8, 1#8, 255#8]

/-- 41_quantizer_framer.md R90: GETDISP on PE responds with f32_div(f32_add(L, R), 2.0), a NaN made
0x7FC00000, and changes nothing; a NaN level and opposite infinities give 0x7FC00000; one infinity
beside a finite level, and two infinities of one sign, give that infinity (42_control.md R100; the
IEEE 754 sums and quotients of infinities are log 11); for finite levels the sum and then its half
are each rounded once. -/
def Obligations.GetdispBlends : Prop :=
  (∀ s : State, s.port = .pe →
    exec .getdisp s = .next (answered s (displayLevel s.enc.lvlL s.enc.lvlR))) ∧
  (∀ l r : F32, (isNaN l = true ∨ isNaN r = true ∨
      (isInf l = true ∧ isInf r = true ∧ isNegative l ≠ isNegative r)) →
    displayLevel l r = 0x7FC00000#32) ∧
  (∀ l r : F32, isInf l = true →
    (isFinite r = true ∨ (isInf r = true ∧ isNegative r = isNegative l)) →
    displayLevel l r = l ∧ displayLevel r l = l) ∧
  (∀ l r : F32, isFinite l = true → isFinite r = true →
    ∃ sum : F32, IsRoundedNearest (value l + value r) sum ∧
      (isFinite sum = true → IsRoundedNearest (value sum / 2) (displayLevel l r)) ∧
      (isFinite sum = false → displayLevel l r = sum)) ∧
  displayLevel 0x7F7FFFFF#32 0x7F7FFFFF#32 = 0x7F800000#32 ∧
  displayLevel 0xC1F00000#32 0x40A00000#32 = 0xC1480000#32

/-- The binary32 operations on finite operands are the exact result rounded to nearest, ties to even
(00_scope.md R12); the clause of `IsRoundedNearest` for a result that overflows, an infinity of its
sign, is taken from IEEE 754 and is the model's (log 11). -/
def Obligations.ArithmeticIsCorrectlyRounded : Prop :=
  ∀ a b : F32, isFinite a = true → isFinite b = true →
    IsRoundedNearest (value a + value b) (f32Add a b) ∧
    IsRoundedNearest (value a - value b) (f32Sub a b) ∧
    IsRoundedNearest (value a * value b) (f32Mul a b) ∧
    (value b ≠ 0 → IsRoundedNearest (value a / value b) (f32Div a b))

/-! ### What a command cannot touch or see -/

/-- 10_state.md R33, the columns of writes: which commands may change which register; no command
changes the pending inputs or the issuing port. -/
def Obligations.AccessMatrixWrites : Prop :=
  ∀ (i : Instr) (s t : State), exec i s = .next t →
    t.port = s.port ∧ t.inputs = s.inputs ∧
    ((∀ l r, i ≠ .setlevels l r) → i ≠ .sample → t.enc = s.enc) ∧
    (i ≠ .encode → t.out = s.out) ∧
    (∀ c : Chan,
      ((∀ fs x, i ≠ .init c fs x) →
        (t.channel c).len = (s.channel c).len ∧ (t.channel c).ready = (s.channel c).ready) ∧
      ((∀ fs x, i ≠ .init c fs x) → (∀ g, i ≠ .update c g) →
        (t.channel c).tgt = (s.channel c).tgt ∧ (t.channel c).org = (s.channel c).org) ∧
      ((∀ fs x, i ≠ .init c fs x) → (∀ g, i ≠ .update c g) → (∀ n, i ≠ .advance c n) →
        t.channel c = s.channel c))

/-- The ownership rules the ports enforce (60_exceptions.md R106): nothing issued on PE writes a
channel, and nothing issued on PA writes a level register or emits a byte. -/
def Obligations.PortsOwnTheirRegisters : Prop :=
  ∀ (i : Instr) (s t : State), exec i s = .next t →
    (s.port = .pe → t.left = s.left ∧ t.right = s.right) ∧
    (s.port = .pa → t.enc = s.enc ∧ t.out = s.out)

/-- 40_smoother.md R84: a command on channel c writes no register of the other channel and reads none:
from two states that differ only in the other channel it leaves the same channel c. -/
def Obligations.ChannelsAreIndependent : Prop :=
  ∀ (s : State) (c d : Chan) (k : Channel) (x y : BitVec 32), d ≠ c →
    ∀ i ∈ [Instr.init c x y, .advance c x, .update c x, .getcur c],
      ∃ t t', exec i s = .next t ∧ exec i (s.setChannel d k) = .next t' ∧
        t.channel d = s.channel d ∧ t'.channel d = k ∧
        t'.channel c = t.channel c ∧ t'.responses = t.responses

/-- 10_state.md R28: `tgt`, `org`, `cnt` and `N` cannot be read by any command: from two states that
differ only in them, every command gives the same response and emits the same bytes. -/
def Obligations.HiddenRegistersAreNotRead : Prop :=
  ∀ (s : State) (c : Chan) (i : Instr) (tgt org : F32) (cnt len : Nat),
    ∃ t t', exec i s = .next t ∧
      exec i (s.setChannel c { s.channel c with tgt := tgt, org := org, cnt := cnt, len := len }) =
        .next t' ∧
      t'.responses = t.responses ∧ t'.out = t.out ∧ t'.enc = t.enc

/-- 41_quantizer_framer.md R98: the same stored levels always give the same frame, and the byte of
one side never depends on the reading of the other. -/
def Obligations.FrameDependsOnLevelsAlone : Prop :=
  ∀ (s s' : State), s.port = .pe → s'.port = .pe →
    ∃ t t' b b', exec .encode s = .next t ∧ exec .encode s' = .next t' ∧
      t.out = s.out ++ b ∧ t'.out = s'.out ++ b' ∧
      (s.enc.lvlL = s'.enc.lvlL → b[0]? = b'[0]?) ∧
      (s.enc.lvlR = s'.enc.lvlR → b[1]? = b'[1]?) ∧ (s.enc = s'.enc → b = b')

/-! ### The assembler -/

/-- 30_encoding.md R59: the word of each form; each form's operands, read one by one, make its command
on the line's port; a program of one line per form; and no line is ever read as a command that its
port may not issue (R56), with a line of each of the seven such pairs rejected. -/
def Obligations.AssemblerForms : Prop :=
  (∀ (c : Chan) (x y : BitVec 32),
    encode (.init c x y) = y ++ x ++ (0#3 ++ chanBit c ++ 1#4) ∧
    encode (.advance c x) = 0#32 ++ x ++ (0#3 ++ chanBit c ++ 2#4) ∧
    encode (.update c x) = 0#32 ++ x ++ (0#3 ++ chanBit c ++ 3#4) ∧
    encode (.getcur c) = 0#32 ++ 0#32 ++ (0#3 ++ chanBit c ++ 4#4) ∧
    encode (.setlevels x y) = y ++ x ++ 0x06#8) ∧
  (encode .nop = 0#72 ∧ encode .sample = 5#72 ∧ encode .encode = 7#72 ∧ encode .getdisp = 8#72 ∧
    encode .getstat = 9#72) ∧
  (∀ (p : Port) (ch n a b : List Char) (c : Chan) (k : U32) (x y : F32),
    readChan ch = some c → readCount n = some k → readValue a = some x → readValue b = some y →
    readCommand p "INIT" [ch, a, b] = some [⟨p, .init c x y⟩] ∧
    readCommand p "ADVANCE" [ch, n] = some [⟨p, .advance c k⟩] ∧
    readCommand p "UPDATE" [ch, a] = some [⟨p, .update c x⟩] ∧
    readCommand p "GETCUR" [ch] = some [⟨p, .getcur c⟩] ∧
    readCommand p "SETLEVELS" [a, b] = some [⟨p, .setlevels x y⟩]) ∧
  (readChan ['L'] = some .left ∧ readChan ['R'] = some .right) ∧
  assemble ["PA: NOP", "PA: INIT L, 48000, 0.5 ; boot", "PA: ADVANCE R, 0x1E0", "PA: ADVANCE L, 480",
    "PA: UPDATE L, 0.1", "PE: GETCUR R", "PE: SAMPLE", "PE: SETLEVELS nan, -inf", "PE: ENCODE",
    "PE: GETDISP", "PA: GETSTAT"] =
    some [.command .pa 0#72, .command .pa 0x3F000000473B800001#72,
      .command .pa 0x00000000000001E012#72, .command .pa 0x00000000000001E002#72,
      .command .pa 0x000000003DCCCCCD03#72, .command .pe 0x14#72, .command .pe 0x05#72,
      .command .pe 0xFF8000007FC0000006#72, .command .pe 0x07#72, .command .pe 0x08#72,
      .command .pa 0x09#72] ∧
  (∀ (text : String) (ls : List Line), readLine text = some ls →
    ∀ l ∈ ls, accepts l.port l.instr = true) ∧
  ["PE: INIT L, 48000, 0.5", "PE: ADVANCE L, 480", "PE: UPDATE L, 0.1", "PA: SAMPLE",
    "PA: SETLEVELS 0, 0", "PA: ENCODE", "PA: GETDISP"].map readLine = List.replicate 7 none

/-- 30_encoding.md R60, for every operand text of its four forms: a decimal literal is the binary32 value
nearest to it, ties to even (a literal too large for binary32 is an infinity, as in IEEE 754,
log 11); `0x` with eight hexadecimal digits, in either case, is that pattern itself; `nan` is
0x7FC00000; `inf` and `-inf` are the infinities. That the decimal forms are those of `decimalText`
and that small digits are read too is the model's (log 18). -/
def Obligations.LiteralForms : Prop :=
  (∀ (neg : Bool) (digits : Nat) (scale : Int),
    IsRoundedNearest ((if neg then -1 else 1) * digits * (10 : ℚ) ^ scale)
      (literalBits (.decimal neg digits scale))) ∧
  (∀ (neg : Bool) (whole fraction : List Nat) (exponent : Option (Bool × List Nat)),
    whole ≠ [] → (∀ d ∈ whole ++ fraction, d < 10) →
    (∀ e ∈ exponent, e.2 ≠ [] ∧ ∀ d ∈ e.2, d < 10) →
    ∃ y, readValue (decimalText neg whole fraction exponent) = some y ∧
      IsRoundedNearest (decimalValue neg whole fraction exponent) y) ∧
  (∀ bits : F32, literalBits (.pattern bits) = bits ∧
    readValue ('0' :: 'x' :: patternDigits bits) = some bits ∧
    readValue ('0' :: 'x' :: (patternDigits bits).map Char.toUpper) = some bits) ∧
  readValue ['n', 'a', 'n'] = some 0x7FC00000#32 ∧ readValue ['i', 'n', 'f'] = some 0x7F800000#32 ∧
  readValue ['-', 'i', 'n', 'f'] = some 0xFF800000#32

/-- 30_encoding.md R61 to R64: the commands each pseudo-instruction stands for. -/
def Obligations.PseudoInstructionExpansions : Prop :=
  ∀ (c : Chan) (n : U32) (g h fs : F32),
    expand (.block c n g) = [⟨.pa, .advance c n⟩, ⟨.pa, .update c g⟩] ∧
    expand .tick = [⟨.pe, .sample⟩, ⟨.pe, .encode⟩] ∧
    expand (.start fs) = [⟨.pa, .init .left fs 0x3F000000#32⟩, ⟨.pa, .init .right fs 0x3F000000#32⟩] ∧
    expand (.block2 n g h) = expand (.block .left n g) ++ expand (.block .right n h)

/-! ### The invariant -/

/-- The invariant holds right after reset (10_state.md R27; 70_reset_and_hazards.md R121). -/
def Obligations.InvariantAtReset : Prop := State.reset.Inv

/-- Every step keeps the invariant: the channel invariants of 10_state.md R27 with finite registers,
channels that are not ready at their reset values, STATUS consistent, and OUT made of whole frames
(R21, R27; 41_quantizer_framer.md R95). -/
def Obligations.StepKeepsInvariant : Prop :=
  ∀ s t : State, s.Inv → step s = .next t → t.Inv
end

