-- ==== Sys2Proof/Laws/Float.lean ====
section
/-! SUPPORT. What the rounding of Machine/Float.lean gives: the magnitude of a pattern, its order, and the floor, ceiling and nearest roundings as the greatest, least and nearest representable magnitudes (00_scope.md R12). -/

namespace Sys2Proof.Machine

/-- The magnitude, in units of 2^-149, of a pattern of bits 30:0 (any natural: the exponent is not
bounded). -/
def patternUnits (p : Nat) : Nat :=
  if p / 2 ^ 23 = 0 then p % 2 ^ 23 else (2 ^ 23 + p % 2 ^ 23) * 2 ^ (p / 2 ^ 23 - 1)

theorem magnitude_eq_patternUnits (x : F32) : magnitude x = patternUnits (x.toNat % 2 ^ 31) := by
  have he : expField x = x.toNat % 2 ^ 31 / 2 ^ 23 := by
    simp [expField, BitVec.extractLsb'_toNat, Nat.shiftRight_eq_div_pow]; omega
  have hf : fracField x = x.toNat % 2 ^ 31 % 2 ^ 23 := by
    simp [fracField, BitVec.extractLsb'_toNat]
  simp [magnitude, patternUnits, he, hf]

/-- m units of step 2^e, with a full significand or the least step, have the pattern e * 2^23 + m. -/
theorem patternUnits_step (e m : Nat) (hm : m ≤ 2 ^ 24) (hlow : e = 0 ∨ 2 ^ 23 ≤ m) :
    patternUnits (e * 2 ^ 23 + m) = m * 2 ^ e := by
  unfold patternUnits
  rcases Nat.lt_trichotomy m (2 ^ 23) with h | h | h
  · obtain rfl : e = 0 := by omega
    simp only [Nat.zero_mul, Nat.zero_add, Nat.pow_zero, Nat.mul_one]
    rw [if_pos (by omega)]; omega
  · subst h
    have h1 : (e * 2 ^ 23 + 2 ^ 23) / 2 ^ 23 = e + 1 := by omega
    have h2 : (e * 2 ^ 23 + 2 ^ 23) % 2 ^ 23 = 0 := by omega
    rw [h1, h2]; simp
  · rcases Nat.lt_or_ge m (2 ^ 24) with h' | h'
    · have h1 : (e * 2 ^ 23 + m) / 2 ^ 23 = e + 1 := by omega
      have h2 : (e * 2 ^ 23 + m) % 2 ^ 23 = m - 2 ^ 23 := by omega
      rw [h1, h2, if_neg (by omega)]
      simp only [Nat.add_sub_cancel]
      rw [show 2 ^ 23 + (m - 2 ^ 23) = m by omega]
    · obtain rfl : m = 2 ^ 24 := by omega
      have h1 : (e * 2 ^ 23 + 2 ^ 24) / 2 ^ 23 = e + 2 := by omega
      have h2 : (e * 2 ^ 23 + 2 ^ 24) % 2 ^ 23 = 0 := by omega
      rw [h1, h2, if_neg (by omega)]
      have : e + 2 - 1 = e + 1 := by omega
      rw [this, Nat.pow_succ]; ring

/-- The patterns above step 0 in the form of `patternUnits_step`. -/
theorem pattern_split (p : Nat) :
    ∃ e m, p = e * 2 ^ 23 + m ∧ m < 2 ^ 24 ∧ (e = 0 ∨ 2 ^ 23 ≤ m) := by
  rcases Nat.lt_or_ge p (2 ^ 24) with h | h
  · exact ⟨0, p, by omega, h, .inl rfl⟩
  · exact ⟨p / 2 ^ 23 - 1, p % 2 ^ 23 + 2 ^ 23, by omega, by omega, .inr (by omega)⟩

theorem patternUnits_lt_succ (p : Nat) : patternUnits p < patternUnits (p + 1) := by
  obtain ⟨e, m, rfl, hm, hl⟩ := pattern_split p
  rw [patternUnits_step e m (by omega) hl, Nat.add_assoc,
    patternUnits_step e (m + 1) (by omega) (by omega)]
  exact Nat.mul_lt_mul_of_pos_right (by omega) (Nat.two_pow_pos e)

theorem patternUnits_strictMono : StrictMono patternUnits :=
  strictMono_nat_of_lt_succ patternUnits_lt_succ

theorem patternUnits_le_iff {p q : Nat} : patternUnits p ≤ patternUnits q ↔ p ≤ q :=
  patternUnits_strictMono.le_iff_le

theorem patternUnits_lt_iff {p q : Nat} : patternUnits p < patternUnits q ↔ p < q :=
  patternUnits_strictMono.lt_iff_lt

@[simp] theorem patternUnits_zero : patternUnits 0 = 0 := rfl

/-- The exponent step of a quotient: the quotient has at most 24 bits of whole steps, and 24 of them
above step 0. -/
theorem exponentStep_spec (n d : Nat) (hd : 0 < d) :
    let e := Nat.log2 (n / d / 2 ^ 23)
    n < d * 2 ^ e * 2 ^ 24 ∧ (e = 0 ∨ d * 2 ^ e * 2 ^ 23 ≤ n) := by
  intro e
  set q := n / d with hq
  have hqn : q * d ≤ n := Nat.div_mul_le_self n d
  have hnq : n < (q + 1) * d := by
    have := Nat.lt_div_mul_add (a := n) hd
    rw [← hq] at this; linarith
  have hlt : q / 2 ^ 23 < 2 ^ (e + 1) := Nat.lt_log2_self
  have hq24 : q < 2 ^ e * 2 ^ 24 := by
    rw [Nat.div_lt_iff_lt_mul (by decide)] at hlt
    calc q < 2 ^ (e + 1) * 2 ^ 23 := hlt
      _ = 2 ^ e * 2 ^ 24 := by ring
  constructor
  · calc n < (q + 1) * d := hnq
      _ ≤ 2 ^ e * 2 ^ 24 * d := Nat.mul_le_mul_right d hq24
      _ = d * 2 ^ e * 2 ^ 24 := by ring
  · rcases Nat.eq_zero_or_pos e with h0 | h0
    · exact .inl h0
    · right
      have hne : q / 2 ^ 23 ≠ 0 := by
        intro h; apply h0.ne'; show Nat.log2 (q / 2 ^ 23) = 0; rw [h]; rfl
      have hge : 2 ^ e ≤ q / 2 ^ 23 := Nat.log2_self_le hne
      have h1 : 2 ^ e * 2 ^ 23 ≤ q := (Nat.le_div_iff_mul_le (by positivity)).1 hge
      calc d * 2 ^ e * 2 ^ 23 = 2 ^ e * 2 ^ 23 * d := by ring
        _ ≤ q * d := Nat.mul_le_mul_right d h1
        _ ≤ n := hqn

/-- A rounding of a quotient to a whole number that is one of its two neighbours. -/
structure Rounds (rnd : Nat → Nat → Nat) : Prop where
  below : ∀ n d, 0 < d → n / d ≤ rnd n d
  above : ∀ n d, 0 < d → rnd n d ≤ divCeil n d

theorem divCeil_le_iff {n d k : Nat} (hd : 0 < d) : divCeil n d ≤ k ↔ n ≤ k * d := by
  unfold divCeil
  rw [← Nat.lt_succ_iff, Nat.div_lt_iff_lt_mul hd, Nat.succ_mul]; omega

theorem le_divCeil_mul (n : Nat) {d : Nat} (hd : 0 < d) : n ≤ divCeil n d * d :=
  (divCeil_le_iff hd).1 le_rfl

theorem div_le_divCeil (n : Nat) {d : Nat} (hd : 0 < d) : n / d ≤ divCeil n d := by
  have h := Nat.div_mul_le_self n d
  exact Nat.le_of_mul_le_mul_right (h.trans (le_divCeil_mul n hd)) hd

theorem divCeil_eq (n : Nat) {d : Nat} (hd : 0 < d) :
    divCeil n d = if n % d = 0 then n / d else n / d + 1 := by
  have hdm : d * (n / d) + n % d = n := Nat.div_add_mod n d
  have hm : n % d < d := Nat.mod_lt n hd
  split
  case isTrue h =>
    refine le_antisymm ((divCeil_le_iff hd).2 ?_) (div_le_divCeil n hd)
    rw [Nat.mul_comm]; omega
  case isFalse h =>
    refine le_antisymm ((divCeil_le_iff hd).2 ?_) ?_
    · rw [Nat.succ_mul, Nat.mul_comm]; omega
    · by_contra hlt
      have := (divCeil_le_iff hd).1 (Nat.le_of_lt_succ (Nat.lt_of_not_le hlt))
      rw [Nat.mul_comm] at this; omega

theorem rounds_floor : Rounds (· / ·) :=
  ⟨fun _ _ _ => le_rfl, fun n _ hd => div_le_divCeil n hd⟩

theorem rounds_ceil : Rounds divCeil :=
  ⟨fun n _ hd => div_le_divCeil n hd, fun _ _ _ => le_rfl⟩

theorem rounds_nearest : Rounds divNearest := by
  constructor
  · intro n d _; unfold divNearest; split_ifs <;> omega
  · intro n d hd
    rw [divCeil_eq n hd]; unfold divNearest
    split_ifs <;> omega

/-- The pattern of a rounding is e * 2^23 + m with m in the range of `patternUnits_step`. -/
theorem roundPattern_units {rnd : Nat → Nat → Nat} (hr : Rounds rnd) (n d : Nat) (hd : 0 < d) :
    patternUnits (roundPattern rnd n d) =
      rnd n (d * 2 ^ Nat.log2 (n / d / 2 ^ 23)) * 2 ^ Nat.log2 (n / d / 2 ^ 23) := by
  obtain ⟨hhi, hlo⟩ := exponentStep_spec n d hd
  set e := Nat.log2 (n / d / 2 ^ 23) with he
  have hde : 0 < d * 2 ^ e := Nat.mul_pos hd (Nat.two_pow_pos e)
  have hm : rnd n (d * 2 ^ e) ≤ 2 ^ 24 :=
    (hr.above n _ hde).trans ((divCeil_le_iff hde).2 (by rw [Nat.mul_comm]; exact hhi.le))
  have hl : e = 0 ∨ 2 ^ 23 ≤ rnd n (d * 2 ^ e) := by
    rcases hlo with h | h
    · exact .inl h
    · exact .inr (((Nat.le_div_iff_mul_le hde).2 (by rw [Nat.mul_comm]; exact h)).trans
        (hr.below n _ hde))
  exact patternUnits_step e _ hm hl

/-- The next magnitude above the floor pattern is one step higher. -/
theorem roundPattern_floor_succ (n d : Nat) (hd : 0 < d) :
    patternUnits (roundPattern (· / ·) n d + 1) =
      (n / (d * 2 ^ Nat.log2 (n / d / 2 ^ 23)) + 1) * 2 ^ Nat.log2 (n / d / 2 ^ 23) := by
  obtain ⟨hhi, hlo⟩ := exponentStep_spec n d hd
  set e := Nat.log2 (n / d / 2 ^ 23) with he
  have hde : 0 < d * 2 ^ e := Nat.mul_pos hd (Nat.two_pow_pos e)
  have hm : n / (d * 2 ^ e) < 2 ^ 24 := (Nat.div_lt_iff_lt_mul hde).2 (by rw [Nat.mul_comm]; exact hhi)
  have hl : e = 0 ∨ 2 ^ 23 ≤ n / (d * 2 ^ e) + 1 := by
    rcases hlo with h | h
    · exact .inl h
    · exact .inr (((Nat.le_div_iff_mul_le hde).2 (by rw [Nat.mul_comm]; exact h)).trans
        (Nat.le_succ _))
  show patternUnits (e * 2 ^ 23 + n / (d * 2 ^ e) + 1) = _
  rw [Nat.add_assoc]
  exact patternUnits_step e _ hm hl

/-- Rounding down gives a magnitude not above n / d. -/
theorem roundPattern_floor_le (n d : Nat) (hd : 0 < d) :
    patternUnits (roundPattern (· / ·) n d) * d ≤ n := by
  rw [roundPattern_units rounds_floor n d hd]
  set e := Nat.log2 (n / d / 2 ^ 23)
  calc n / (d * 2 ^ e) * 2 ^ e * d = n / (d * 2 ^ e) * (d * 2 ^ e) := by ring
    _ ≤ n := Nat.div_mul_le_self _ _

/-- Rounding down gives the greatest magnitude not above n / d: the next one is above. -/
theorem lt_roundPattern_floor_succ (n d : Nat) (hd : 0 < d) :
    n < patternUnits (roundPattern (· / ·) n d + 1) * d := by
  rw [roundPattern_floor_succ n d hd]
  set e := Nat.log2 (n / d / 2 ^ 23)
  have hde : 0 < d * 2 ^ e := Nat.mul_pos hd (Nat.two_pow_pos e)
  have := Nat.lt_div_mul_add (a := n) hde
  calc n < n / (d * 2 ^ e) * (d * 2 ^ e) + d * 2 ^ e := this
    _ = (n / (d * 2 ^ e) + 1) * 2 ^ e * d := by ring

theorem roundPattern_floor_ge_iff {n d p : Nat} (hd : 0 < d) :
    p ≤ roundPattern (· / ·) n d ↔ patternUnits p * d ≤ n := by
  constructor
  · intro h
    exact (Nat.mul_le_mul_right d (patternUnits_le_iff.2 h)).trans (roundPattern_floor_le n d hd)
  · intro h
    by_contra hlt
    have h1 : roundPattern (· / ·) n d + 1 ≤ p := by omega
    have h2 := Nat.mul_le_mul_right d (patternUnits_le_iff.2 h1)
    have h3 := lt_roundPattern_floor_succ n d hd
    omega

/-- Rounding up gives the least magnitude not below n / d. -/
theorem roundPattern_ceil_le_iff {n d p : Nat} (hd : 0 < d) :
    roundPattern divCeil n d ≤ p ↔ n ≤ patternUnits p * d := by
  have hceil : n ≤ patternUnits (roundPattern divCeil n d) * d := by
    rw [roundPattern_units rounds_ceil n d hd]
    set e := Nat.log2 (n / d / 2 ^ 23)
    have hde : 0 < d * 2 ^ e := Nat.mul_pos hd (Nat.two_pow_pos e)
    calc n ≤ divCeil n (d * 2 ^ e) * (d * 2 ^ e) := le_divCeil_mul n hde
      _ = divCeil n (d * 2 ^ e) * 2 ^ e * d := by ring
  constructor
  · intro h
    exact hceil.trans (Nat.mul_le_mul_right d (patternUnits_le_iff.2 h))
  · intro h
    have hfl : roundPattern (· / ·) n d ≤ p := by
      by_contra hlt
      have h1 : p < roundPattern (· / ·) n d := by omega
      have h2 : patternUnits p * d < patternUnits (roundPattern (· / ·) n d) * d :=
        Nat.mul_lt_mul_of_pos_right (patternUnits_lt_iff.2 h1) hd
      have h3 := roundPattern_floor_le n d hd
      omega
    set e := Nat.log2 (n / d / 2 ^ 23) with he
    have hde : 0 < d * 2 ^ e := Nat.mul_pos hd (Nat.two_pow_pos e)
    have hrc : roundPattern divCeil n d = e * 2 ^ 23 + divCeil n (d * 2 ^ e) := rfl
    have hrf : roundPattern (· / ·) n d = e * 2 ^ 23 + n / (d * 2 ^ e) := rfl
    rw [hrc, divCeil_eq n hde]
    split
    case isTrue => exact hrf ▸ hfl
    case isFalse hmod =>
      rcases Nat.lt_or_eq_of_le hfl with h1 | h1
      · rw [hrf] at h1; omega
      · exfalso
        apply hmod
        have h2 := roundPattern_floor_le n d hd
        rw [h1] at h2
        have h3 : n = patternUnits p * d := le_antisymm h h2
        rw [← h1, roundPattern_units rounds_floor n d hd, ← he] at h3
        rw [h3]
        have : n / (d * 2 ^ e) * 2 ^ e * d = d * 2 ^ e * (n / (d * 2 ^ e)) := by ring
        rw [this]; exact Nat.mul_mod_right _ _

/-- Rounding to nearest, seen from the floor pattern f: below the midpoint of f and f + 1 it is f,
above it is f + 1, and at the midpoint it is the even one of the two. -/
theorem roundPattern_nearest_eq (n d : Nat) (hd : 0 < d) :
    let f := roundPattern (· / ·) n d
    roundPattern divNearest n d =
      if 2 * n < (patternUnits f + patternUnits (f + 1)) * d then f
      else if (patternUnits f + patternUnits (f + 1)) * d < 2 * n then f + 1 else f + f % 2 := by
  intro f
  have hU := roundPattern_units rounds_floor n d hd
  have hV := roundPattern_floor_succ n d hd
  have hf : f = Nat.log2 (n / d / 2 ^ 23) * 2 ^ 23 + n / (d * 2 ^ Nat.log2 (n / d / 2 ^ 23)) := rfl
  have hn : roundPattern divNearest n d =
    Nat.log2 (n / d / 2 ^ 23) * 2 ^ 23 + divNearest n (d * 2 ^ Nat.log2 (n / d / 2 ^ 23)) := rfl
  generalize Nat.log2 (n / d / 2 ^ 23) = e at *
  have hD : 0 < d * 2 ^ e := Nat.mul_pos hd (Nat.two_pow_pos e)
  have hsum : (patternUnits f + patternUnits (f + 1)) * d =
      2 * (d * 2 ^ e * (n / (d * 2 ^ e))) + d * 2 ^ e := by
    rw [hU, hV]; ring
  have hdm : d * 2 ^ e * (n / (d * 2 ^ e)) + n % (d * 2 ^ e) = n := Nat.div_add_mod n _
  rw [hsum, hn, hf]
  unfold divNearest
  clear hsum hn hf hU hV
  generalize d * 2 ^ e = D at *
  have hr : n % D < D := Nat.mod_lt n hD
  generalize D * (n / D) = Q at *
  generalize n / D = q at *
  generalize n % D = r at *
  have hpar : (e * 2 ^ 23 + q) % 2 = q % 2 := by omega
  split_ifs <;> omega

theorem roundPattern_floor_le_nearest (n d : Nat) (hd : 0 < d) :
    roundPattern (· / ·) n d ≤ roundPattern divNearest n d := by
  rw [roundPattern_nearest_eq n d hd]; split_ifs <;> omega

theorem roundPattern_nearest_le_succ (n d : Nat) (hd : 0 < d) :
    roundPattern divNearest n d ≤ roundPattern (· / ·) n d + 1 := by
  rw [roundPattern_nearest_eq n d hd]; split_ifs <;> omega

/-- Rounding down is monotone in the quotient. -/
theorem roundPattern_floor_mono {n d n' d' : Nat} (hd : 0 < d) (hd' : 0 < d')
    (h : n * d' ≤ n' * d) : roundPattern (· / ·) n d ≤ roundPattern (· / ·) n' d' := by
  rw [roundPattern_floor_ge_iff hd']
  have h1 := roundPattern_floor_le n d hd
  refine Nat.le_of_mul_le_mul_right ?_ hd
  calc patternUnits (roundPattern (· / ·) n d) * d' * d
      = patternUnits (roundPattern (· / ·) n d) * d * d' := by ring
    _ ≤ n * d' := Nat.mul_le_mul_right d' h1
    _ ≤ n' * d := h

/-- Rounding up is monotone in the quotient. -/
theorem roundPattern_ceil_mono {n d n' d' : Nat} (hd : 0 < d) (hd' : 0 < d')
    (h : n * d' ≤ n' * d) : roundPattern divCeil n d ≤ roundPattern divCeil n' d' := by
  rw [roundPattern_ceil_le_iff hd]
  have h1 := (roundPattern_ceil_le_iff (n := n') hd').1 le_rfl
  refine Nat.le_of_mul_le_mul_right ?_ hd'
  calc n * d' ≤ n' * d := h
    _ ≤ patternUnits (roundPattern divCeil n' d') * d' * d := Nat.mul_le_mul_right d h1
    _ = patternUnits (roundPattern divCeil n' d') * d * d' := by ring

/-- Rounding to nearest is monotone in the quotient (41_quantizer_framer.md R91). -/
theorem roundPattern_nearest_mono {n d n' d' : Nat} (hd : 0 < d) (hd' : 0 < d')
    (h : n * d' ≤ n' * d) : roundPattern divNearest n d ≤ roundPattern divNearest n' d' := by
  have hfl := roundPattern_floor_mono hd hd' h
  rcases Nat.lt_or_eq_of_le hfl with hlt | heq
  · have h1 := roundPattern_nearest_le_succ n d hd
    have h2 := roundPattern_floor_le_nearest n' d' hd'
    omega
  · rw [roundPattern_nearest_eq n d hd, roundPattern_nearest_eq n' d' hd', heq]
    generalize roundPattern (· / ·) n' d' = f
    generalize patternUnits f + patternUnits (f + 1) = M
    have key1 : M * d ≤ 2 * n → M * d' ≤ 2 * n' := fun hM => by
      refine Nat.le_of_mul_le_mul_right ?_ hd
      calc M * d' * d = M * d * d' := by ring
        _ ≤ 2 * n * d' := Nat.mul_le_mul_right d' hM
        _ = 2 * (n * d') := by ring
        _ ≤ 2 * (n' * d) := by omega
        _ = 2 * n' * d := by ring
    have key2 : M * d < 2 * n → M * d' < 2 * n' := fun hM => by
      refine Nat.lt_of_mul_lt_mul_right (a := d) ?_
      calc M * d' * d = M * d * d' := by ring
        _ < 2 * n * d' := Nat.mul_lt_mul_of_pos_right hM hd'
        _ = 2 * (n * d') := by ring
        _ ≤ 2 * (n' * d) := by omega
        _ = 2 * n' * d := by ring
    split_ifs <;> omega

/-- A representable magnitude rounds to its own pattern, whatever the rounding. -/
theorem roundPattern_exact {rnd : Nat → Nat → Nat} (hr : Rounds rnd) (p d : Nat) (hd : 0 < d) :
    roundPattern rnd (patternUnits p * d) d = p := by
  have hfl : roundPattern (· / ·) (patternUnits p * d) d = p := by
    refine le_antisymm ?_ ((roundPattern_floor_ge_iff hd).2 le_rfl)
    exact patternUnits_le_iff.1 (Nat.le_of_mul_le_mul_right (roundPattern_floor_le _ d hd) hd)
  have hce : roundPattern divCeil (patternUnits p * d) d = p := by
    refine le_antisymm ((roundPattern_ceil_le_iff hd).2 le_rfl) ?_
    have := (roundPattern_ceil_le_iff (n := patternUnits p * d) hd).1 le_rfl
    exact patternUnits_le_iff.1 (Nat.le_of_mul_le_mul_right this hd)
  have hD : 0 < d * 2 ^ Nat.log2 (patternUnits p * d / d / 2 ^ 23) :=
    Nat.mul_pos hd (Nat.two_pow_pos _)
  have h1 := Nat.add_le_add_left (hr.below (patternUnits p * d) _ hD)
    (Nat.log2 (patternUnits p * d / d / 2 ^ 23) * 2 ^ 23)
  have h2 := Nat.add_le_add_left (hr.above (patternUnits p * d) _ hD)
    (Nat.log2 (patternUnits p * d / d / 2 ^ 23) * 2 ^ 23)
  exact le_antisymm (h2.trans hce.le) (hfl.ge.trans h1)

/-- Of two bounds a ≤ n < b, the nearer one is nearer to n than any c outside (a, b). -/
theorem nearest_of_bounds {n a b c : Nat} (ha : a ≤ n) (hb : n < b) (hc : c ≤ a ∨ b ≤ c) :
    (2 * n ≤ a + b → |(n : Int) - (a : Int)| ≤ |(n : Int) - (c : Int)|) ∧
      (a + b ≤ 2 * n → |(n : Int) - (b : Int)| ≤ |(n : Int) - (c : Int)|) := by
  simp only [abs_eq_max_neg]; omega

/-- No magnitude is nearer to n / d than the nearest rounding. -/
theorem roundPattern_nearest_closest (n d : Nat) (hd : 0 < d) (p : Nat) :
    |(n : Int) - (patternUnits (roundPattern divNearest n d) * d : Nat)| ≤
      |(n : Int) - (patternUnits p * d : Nat)| := by
  have hlo := roundPattern_floor_le n d hd
  have hhi := lt_roundPattern_floor_succ n d hd
  have hp : patternUnits p * d ≤ patternUnits (roundPattern (· / ·) n d) * d ∨
      patternUnits (roundPattern (· / ·) n d + 1) * d ≤ patternUnits p * d := by
    rcases Nat.lt_or_ge (roundPattern (· / ·) n d) p with h | h
    · exact .inr (Nat.mul_le_mul_right d (patternUnits_le_iff.2 h))
    · exact .inl (Nat.mul_le_mul_right d (patternUnits_le_iff.2 h))
  obtain ⟨hdown, hup⟩ := nearest_of_bounds hlo hhi hp
  rw [← Nat.add_mul] at hdown hup
  have heq := roundPattern_nearest_eq n d hd
  dsimp only at heq
  split_ifs at heq with h1 h2
  · rw [heq]; exact hdown h1.le
  · rw [heq]; exact hup h2.le
  · rcases Nat.mod_two_eq_zero_or_one (roundPattern (· / ·) n d) with h | h
    · rw [heq, h, Nat.add_zero]; exact hdown (Nat.le_of_not_lt h2)
    · rw [heq, h]; exact hup (Nat.le_of_not_lt h1)

/-! ### Data from patterns -/

theorem signed_toNat (neg : Bool) (p : Nat) (hp : p < 2 ^ 31) :
    (signed neg p).toNat = if neg then 2 ^ 31 + p else p := by
  unfold signed
  cases neg <;> simp <;> omega

theorem signed_mod (neg : Bool) (p : Nat) (hp : p < 2 ^ 31) :
    (signed neg p).toNat % 2 ^ 31 = p := by
  rw [signed_toNat neg p hp]
  cases neg
  · exact Nat.mod_eq_of_lt hp
  · simp only [if_true]; omega

@[simp] theorem magnitude_signed (neg : Bool) (p : Nat) (hp : p < 2 ^ 31) :
    magnitude (signed neg p) = patternUnits p := by
  rw [magnitude_eq_patternUnits, signed_mod neg p hp]

theorem isNegative_iff (x : F32) : isNegative x = decide (2 ^ 31 ≤ x.toNat) := by
  have := x.isLt
  simp only [isNegative, BitVec.getLsbD, Nat.testBit_eq_decide_div_mod_eq]
  rw [decide_eq_decide]; omega

@[simp] theorem isNegative_signed (neg : Bool) (p : Nat) (hp : p < 2 ^ 31) :
    isNegative (signed neg p) = neg := by
  rw [isNegative_iff, signed_toNat neg p hp]
  cases neg
  · simp only [Bool.false_eq_true, if_false, decide_eq_false_iff_not]; omega
  · simp only [if_true, decide_eq_true_eq]; omega

theorem scaled_signed (neg : Bool) (p : Nat) (hp : p < 2 ^ 31) :
    scaled (signed neg p) = if neg then -(patternUnits p : Int) else patternUnits p := by
  rw [scaled, isNegative_signed neg p hp, magnitude_signed neg p hp]

/-- Every datum is its sign and its bits 30:0. -/
theorem signed_self (x : F32) : signed (isNegative x) (x.toNat % 2 ^ 31) = x := by
  have := x.isLt
  apply BitVec.eq_of_toNat_eq
  rw [signed_toNat _ _ (Nat.mod_lt _ (by decide)), isNegative_iff]
  simp only [decide_eq_true_eq]; split_ifs <;> omega

theorem expField_eq (x : F32) : expField x = x.toNat % 2 ^ 31 / 2 ^ 23 := by
  simp [expField, BitVec.extractLsb'_toNat, Nat.shiftRight_eq_div_pow]; omega

theorem fracField_eq (x : F32) : fracField x = x.toNat % 2 ^ 23 := by
  simp [fracField, BitVec.extractLsb'_toNat]

theorem isFinite_iff (x : F32) : isFinite x = true ↔ x.toNat % 2 ^ 31 < 0x7F800000 := by
  simp only [isFinite, expField_eq, bne_iff_ne]; omega

theorem isNaN_iff (x : F32) : isNaN x = true ↔ 0x7F800000 < x.toNat % 2 ^ 31 := by
  simp only [isNaN, expField_eq, fracField_eq, Bool.and_eq_true, beq_iff_eq, bne_iff_ne]; omega

theorem isInf_iff (x : F32) : isInf x = true ↔ x.toNat % 2 ^ 31 = 0x7F800000 := by
  simp only [isInf, expField_eq, fracField_eq, Bool.and_eq_true, beq_iff_eq]; omega

theorem isNaN_of_isFinite {x : F32} (h : isFinite x = true) : isNaN x = false := by
  rw [isFinite_iff] at h
  rw [Bool.eq_false_iff, ne_eq, isNaN_iff]; omega

theorem isInf_of_isFinite {x : F32} (h : isFinite x = true) : isInf x = false := by
  rw [isFinite_iff] at h
  rw [Bool.eq_false_iff, ne_eq, isInf_iff]; omega

theorem isFinite_signed (neg : Bool) (p : Nat) (hp : p < 0x7F800000) :
    isFinite (signed neg p) = true := by
  rw [isFinite_iff, signed_mod neg p (by omega)]; exact hp

theorem isNaN_signed (neg : Bool) (p : Nat) (hp : p ≤ 0x7F800000) : isNaN (signed neg p) = false := by
  rw [Bool.eq_false_iff, ne_eq, isNaN_iff, signed_mod neg p (by omega)]; omega

/-- A finite value is determined by its pattern up to the sign of zero. -/
theorem scaled_injective_of_ne_zero {x y : F32} (h : scaled x = scaled y) (h0 : scaled x ≠ 0) :
    x = y := by
  have hx := magnitude_eq_patternUnits x
  have hy := magnitude_eq_patternUnits y
  have hmag : magnitude x = magnitude y ∧ isNegative x = isNegative y := by
    simp only [scaled] at h h0
    cases hnx : isNegative x <;> cases hny : isNegative y <;> simp [hnx, hny] at h h0 ⊢ <;> omega
  rw [← signed_self x, ← signed_self y, hmag.2]
  rw [hx, hy] at hmag
  rw [patternUnits_strictMono.injective hmag.1]

theorem f32Lt_iff {a b : F32} (ha : isNaN a = false) (hb : isNaN b = false) :
    f32Lt a b = true ↔ scaled a < scaled b := by simp [f32Lt, ha, hb]

theorem f32Eq_iff {a b : F32} (ha : isNaN a = false) (hb : isNaN b = false) :
    f32Eq a b = true ↔ scaled a = scaled b := by simp [f32Eq, ha, hb]

/-- The greatest finite magnitude is FLT_MAX's. -/
theorem scaled_le_fltMax {x : F32} (h : isFinite x = true) :
    -(patternUnits 0x7F7FFFFF : Int) ≤ scaled x ∧ scaled x ≤ patternUnits 0x7F7FFFFF := by
  rw [isFinite_iff] at h
  have : magnitude x ≤ patternUnits 0x7F7FFFFF := by
    rw [magnitude_eq_patternUnits]; exact patternUnits_le_iff.2 (by omega)
  unfold scaled; split <;> omega

end Sys2Proof.Machine
end

