-- ==== Sys2Proof/Laws/Round.lean ====
section
/-! SUPPORT. One lemma per rounding operation: what rnd_up, the sign change, the next value above and the correctly rounded sum answer (00_scope.md R12; 40_smoother.md R70). -/

namespace Sys2Proof.Machine

/-- A finite datum as a sign and a pattern below the infinities. -/
theorem scaled_cases (x : F32) :
    scaled x = patternUnits (x.toNat % 2 ^ 31) ∨ scaled x = -(patternUnits (x.toNat % 2 ^ 31) : Int) := by
  unfold scaled; rw [magnitude_eq_patternUnits]; split
  · exact .inr rfl
  · exact .inl rfl

/-- A positive `rnd_up` is the rounded-up magnitude. -/
theorem rndUp_pos (z : Bool) {n den : Nat} (hpos : 0 < (n : Int))
    (hle : roundPattern divCeil n den ≤ 0x7F7FFFFF) :
    rndUp z (n : Int) den = signed false (roundPattern divCeil n den) := by
  unfold rndUp
  rw [if_pos hpos, Int.toNat_natCast, Nat.min_eq_left (by omega)]

theorem rndUp_nonpos (z : Bool) {num : Int} {n : Nat} (den : Nat) (hneg : num ≤ 0) (hn : -num = n) :
    rndUp z num den =
      if min (roundPattern (· / ·) n den) 0x7F7FFFFF = 0 then signed z 0
      else signed true (min (roundPattern (· / ·) n den) 0x7F7FFFFF) := by
  unfold rndUp
  rw [if_neg (not_lt.2 hneg), hn, Int.toNat_natCast]

theorem scaled_zero_or_signed (z : Bool) {m : Nat} (hm : m ≤ 0x7F7FFFFF) :
    scaled (if m = 0 then signed z 0 else signed true m) = -(patternUnits m : Int) := by
  split
  case isTrue h => rw [h]; cases z <;> decide
  case isFalse h => rw [scaled_signed _ _ (by omega)]; rfl

theorem isFinite_zero_or_signed (z : Bool) {m : Nat} (hm : m ≤ 0x7F7FFFFF) :
    isFinite (if m = 0 then signed z 0 else signed true m) = true := by
  have hlt : m < 0x7F800000 := Nat.lt_of_le_of_lt hm (by decide)
  split
  case isTrue h => cases z <;> decide
  case isFalse h => exact isFinite_signed _ _ hlt

/-- `rnd_up` of a value not above FLT_MAX is the least finite binary32 value not below it
(00_scope.md R12). -/
theorem rndUp_spec (z : Bool) {num : Int} {den : Nat} (hd : 0 < den)
    (hmax : num ≤ patternUnits 0x7F7FFFFF * den) :
    isFinite (rndUp z num den) = true ∧ num ≤ scaled (rndUp z num den) * den ∧
      ∀ w, isFinite w = true → num ≤ scaled w * den → scaled (rndUp z num den) ≤ scaled w := by
  rcases lt_or_ge 0 num with hpos | hneg
  · obtain ⟨n, rfl⟩ := Int.eq_ofNat_of_zero_le hpos.le
    rw [← Nat.cast_mul] at hmax
    have hle := (roundPattern_ceil_le_iff hd).2 (Int.ofNat_le.1 hmax)
    have hce := (roundPattern_ceil_le_iff (n := n) hd).1 le_rfl
    rw [rndUp_pos z hpos hle, scaled_signed _ _ (by omega)]
    refine ⟨isFinite_signed _ _ (by omega), ?_, fun w _ hw => ?_⟩
    · simp only [Bool.false_eq_true, if_false]; exact_mod_cast hce
    · simp only [Bool.false_eq_true, if_false]
      rcases scaled_cases w with h | h
      · rw [h] at hw ⊢
        exact_mod_cast patternUnits_le_iff.2 ((roundPattern_ceil_le_iff hd).2 (by exact_mod_cast hw))
      · have h2 : scaled w * den ≤ 0 := by
          rw [h]; exact mul_nonpos_of_nonpos_of_nonneg (by omega) (by omega)
        omega
  · obtain ⟨n, hn⟩ := Int.eq_ofNat_of_zero_le (Int.neg_nonneg.2 hneg)
    have hfl := roundPattern_floor_le n den hd
    have hcap := Nat.min_le_right (roundPattern (· / ·) n den) 0x7F7FFFFF
    rw [rndUp_nonpos z den hneg hn, scaled_zero_or_signed z hcap]
    refine ⟨isFinite_zero_or_signed z hcap, ?_, fun w hw hle => ?_⟩
    · have h1 := (Nat.mul_le_mul_right den (patternUnits_le_iff.2
        (Nat.min_le_left (roundPattern (· / ·) n den) 0x7F7FFFFF))).trans hfl
      generalize patternUnits (min (roundPattern (· / ·) n den) 0x7F7FFFFF) = a at *
      have h2 : (a : Int) * den ≤ n := by exact_mod_cast h1
      rw [Int.neg_mul]; omega
    · rcases scaled_cases w with h | h
      · rw [h]
        generalize patternUnits (min (roundPattern (· / ·) n den) 0x7F7FFFFF) = a
        omega
      · rw [isFinite_iff] at hw
        rw [h, Int.neg_mul] at hle
        have h1 : (patternUnits (w.toNat % 2 ^ 31) : Int) * den ≤ n := by omega
        have h2 := (roundPattern_floor_ge_iff hd).2 (by exact_mod_cast h1)
        have h4 := patternUnits_le_iff.2 (Nat.le_min.2 ⟨h2, Nat.le_of_lt_succ hw⟩)
        rw [h]
        exact Int.neg_le_neg (Int.ofNat_le.2 h4)

/-- `rnd_up` of a representable value is that value; of a zero, the chosen zero. -/
theorem rndUp_exact (x : F32) (hx : isFinite x = true) {den : Nat} (hd : 0 < den) :
    rndUp (isNegative x) (scaled x * den) den = x := by
  have hb := scaled_le_fltMax hx
  obtain ⟨_, h1, h2⟩ := rndUp_spec (isNegative x) hd
    (Int.mul_le_mul_of_nonneg_right hb.2 (Int.natCast_nonneg den))
  have hs : scaled (rndUp (isNegative x) (scaled x * den) den) = scaled x := by
    refine le_antisymm (h2 x hx le_rfl) ?_
    exact Int.le_of_mul_le_mul_right h1 (by exact_mod_cast hd)
  by_cases h0 : scaled x = 0
  · have hp : x.toNat % 2 ^ 31 = 0 := by
      apply patternUnits_strictMono.injective
      rcases scaled_cases x with h | h <;> rw [h] at h0 <;> simp at h0 ⊢ <;> omega
    rw [h0]
    conv_rhs => rw [← signed_self x, hp]
    simp [rndUp, roundPattern]
  · exact scaled_injective_of_ne_zero hs (by rw [hs]; exact h0)

theorem f32Neg_toNat (x : F32) :
    (f32Neg x).toNat % 2 ^ 31 = x.toNat % 2 ^ 31 ∧ isNegative (f32Neg x) = !isNegative x := by
  constructor
  · simp only [f32Neg, BitVec.toNat_xor]
    rw [show (0x80000000#32).toNat = 2 ^ 31 from rfl, Nat.xor_mod_two_pow]; simp
  · simp [f32Neg, isNegative]

@[simp] theorem scaled_f32Neg (x : F32) : scaled (f32Neg x) = -scaled x := by
  obtain ⟨h1, h2⟩ := f32Neg_toNat x
  simp only [scaled, magnitude_eq_patternUnits, h1, h2]
  cases isNegative x <;> simp

@[simp] theorem isFinite_f32Neg (x : F32) : isFinite (f32Neg x) = isFinite x := by
  rw [Bool.eq_iff_iff, isFinite_iff, isFinite_iff, (f32Neg_toNat x).1]

/-! ### The ramp (40_smoother.md R70) -/

/-- The facts under which `RAMP` is used (R70). -/
structure RampUse (o t : F32) (n e : Nat) : Prop where
  org : isFinite o = true
  tgt : isFinite t = true
  descends : scaled t < scaled o
  inside : e < n

theorem RampUse.numerator_gt {o t : F32} {n e : Nat} (h : RampUse o t n e) :
    scaled t * n < rampNumerator o t n e := by
  have h1 := h.descends; have h2 : (e : Int) < n := by exact_mod_cast h.inside
  unfold rampNumerator; nlinarith

theorem RampUse.numerator_le {o t : F32} {n e : Nat} (h : RampUse o t n e) :
    rampNumerator o t n e ≤ scaled o * n := by
  have h1 := h.descends; have h2 : (0 : Int) ≤ e := by omega
  unfold rampNumerator; nlinarith

/-- `RAMP` is the least finite binary32 value not below the exact point of the line. -/
theorem rampValue_spec {o t : F32} {n e : Nat} (h : RampUse o t n e) :
    isFinite (rampValue o t n e) = true ∧
      rampNumerator o t n e ≤ scaled (rampValue o t n e) * n ∧
      ∀ w, isFinite w = true → rampNumerator o t n e ≤ scaled w * n →
        scaled (rampValue o t n e) ≤ scaled w := by
  have hn : 0 < n := by have := h.inside; omega
  refine rndUp_spec _ hn (h.numerator_le.trans ?_)
  exact Int.mul_le_mul_of_nonneg_right (scaled_le_fltMax h.org).2 (Int.natCast_nonneg n)

/-- `val(t) < val(RAMP) ≤ val(o)` (R70). -/
theorem rampValue_bounds {o t : F32} {n e : Nat} (h : RampUse o t n e) :
    scaled t < scaled (rampValue o t n e) ∧ scaled (rampValue o t n e) ≤ scaled o := by
  obtain ⟨_, h1, h2⟩ := rampValue_spec h
  have hn : (0 : Int) < n := by have := h.inside; omega
  exact ⟨lt_of_mul_lt_mul_right (h.numerator_gt.trans_le h1) hn.le, h2 o h.org h.numerator_le⟩

/-- `RAMP(o, t, N, 0) = o` (R70). -/
theorem rampValue_zero {o t : F32} {n : Nat} (ho : isFinite o = true) (hn : 0 < n) :
    rampValue o t n 0 = o := by
  unfold rampValue
  rw [if_pos rfl, show rampNumerator o t n 0 = scaled o * n by simp [rampNumerator]]
  exact rndUp_exact o ho hn

end Sys2Proof.Machine
end

