-- ==== Sys2Proof/Laws/Log10.lean ====
section
/-! SUPPORT. The spec lemma of `logIndex`: it is the exact whole part of (log10(val(g)) + 45) x 2^50, stated with powers of whole and rational numbers (40_smoother.md R66). -/

namespace Sys2Proof.Machine

/-- The places that `logDigits` answers are those of log10(w): 10^d ≤ w^(2^k) < 10^(d+1). -/
theorem logDigits_spec (k : Nat) : ∀ (acc lo hi r : Nat) (w : ℚ), (lo : ℚ) ≤ w * 2 ^ 128 →
    w * 2 ^ 128 < hi → hi ≤ 10 * 2 ^ 128 → 2 ^ 128 ≤ lo → logDigits k acc lo hi = some r →
    ∃ d, r = acc * 2 ^ k + d ∧ (10 : ℚ) ^ d ≤ w ^ 2 ^ k ∧ w ^ 2 ^ k < (10 : ℚ) ^ (d + 1) := by
  induction k with
  | zero =>
    intro acc lo hi r w hlo hhi h10 h1 hr
    simp only [logDigits, Option.some.injEq] at hr
    have h1' : ((2 ^ 128 : Nat) : ℚ) ≤ lo := by exact_mod_cast h1
    have h10' : (hi : ℚ) ≤ ((10 * 2 ^ 128 : Nat) : ℚ) := by exact_mod_cast h10
    push_cast at h1' h10'
    refine ⟨0, by omega, ?_, ?_⟩ <;> norm_num <;> linarith
  | succ k ih =>
    intro acc lo hi r w hlo hhi h10 h1 hr
    have h1' : ((2 ^ 128 : Nat) : ℚ) ≤ lo := by exact_mod_cast h1
    push_cast at h1'
    have hwpos : 0 ≤ w * 2 ^ 128 := by linarith [show (0 : ℚ) ≤ 2 ^ 128 by positivity]
    have hlo2 : ((lo * lo / 2 ^ 128 : Nat) : ℚ) ≤ w ^ 2 * 2 ^ 128 := by
      have hdiv : ((lo * lo / 2 ^ 128 : Nat) : ℚ) ≤ ((lo * lo : Nat) : ℚ) / ((2 ^ 128 : Nat) : ℚ) :=
        Nat.cast_div_le
      have hsq : (lo : ℚ) * lo ≤ w * 2 ^ 128 * (w * 2 ^ 128) :=
        mul_le_mul hlo hlo (Nat.cast_nonneg _) hwpos
      push_cast at hdiv
      refine hdiv.trans ((div_le_iff₀ (by positivity)).2 (hsq.trans (le_of_eq ?_)))
      ring
    have hhi2 : w ^ 2 * 2 ^ 128 < ((hi * hi / 2 ^ 128 + 1 : Nat) : ℚ) := by
      have hdiv : hi * hi < (hi * hi / 2 ^ 128 + 1) * 2 ^ 128 := by
        have := Nat.lt_div_mul_add (a := hi * hi) (show 0 < 2 ^ 128 by decide)
        rw [Nat.succ_mul]; exact this
      have hdiv' : (hi : ℚ) * hi < ((hi * hi / 2 ^ 128 + 1 : Nat) : ℚ) * 2 ^ 128 := by
        exact_mod_cast hdiv
      have hsq : w * 2 ^ 128 * (w * 2 ^ 128) < (hi : ℚ) * hi := mul_lt_mul'' hhi hhi hwpos hwpos
      have : w ^ 2 * 2 ^ 128 * 2 ^ 128 < ((hi * hi / 2 ^ 128 + 1 : Nat) : ℚ) * 2 ^ 128 := by
        linarith
      exact lt_of_mul_lt_mul_right this (by positivity)
    have hone : 2 ^ 128 ≤ lo * lo / 2 ^ 128 :=
      (Nat.le_div_iff_mul_le (by decide)).2 (Nat.mul_le_mul h1 h1)
    simp only [logDigits] at hr
    generalize hl : lo * lo / 2 ^ 128 = lo2 at *
    generalize hh : hi * hi / 2 ^ 128 + 1 = hi2 at *
    split at hr
    case isTrue hsmall =>
      obtain ⟨d, hd, hge, hlt⟩ := ih (2 * acc) lo2 hi2 r (w ^ 2) hlo2 hhi2 hsmall hone hr
      have hpow : (w ^ 2) ^ 2 ^ k = w ^ 2 ^ (k + 1) := by rw [← pow_mul, pow_succ, Nat.mul_comm]
      rw [hpow] at hge hlt
      exact ⟨d, by rw [hd, pow_succ]; ring, hge, hlt⟩
    case isFalse =>
      split at hr
      case isFalse => cases hr
      case isTrue hbig =>
        have hlo3 : ((lo2 / 10 : Nat) : ℚ) ≤ w ^ 2 / 10 * 2 ^ 128 := by
          have : ((lo2 / 10 : Nat) : ℚ) ≤ (lo2 : ℚ) / ((10 : Nat) : ℚ) := Nat.cast_div_le
          push_cast at this; linarith
        have hhi3 : w ^ 2 / 10 * 2 ^ 128 < ((hi2 / 10 + 1 : Nat) : ℚ) := by
          have h : hi2 < (hi2 / 10 + 1) * 10 := by omega
          have h' : (hi2 : ℚ) < ((hi2 / 10 + 1 : Nat) : ℚ) * 10 := by exact_mod_cast h
          linarith
        have hone3 : 2 ^ 128 ≤ lo2 / 10 := (Nat.le_div_iff_mul_le (by decide)).2 (by omega)
        obtain ⟨d, hd, hge, hlt⟩ :=
          ih (2 * acc + 1) (lo2 / 10) (hi2 / 10 + 1) r (w ^ 2 / 10) hlo3 hhi3 hbig.2 hone3 hr
        have hpow : (w ^ 2 / 10) ^ 2 ^ k = w ^ 2 ^ (k + 1) / 10 ^ 2 ^ k := by
          rw [div_pow, ← pow_mul, pow_succ, Nat.mul_comm]
        rw [hpow] at hge hlt
        refine ⟨2 ^ k + d, by rw [hd, pow_succ]; ring, ?_, ?_⟩
        · rw [pow_add, mul_comm]; exact (le_div_iff₀ (by positivity)).1 hge
        · have := (div_lt_iff₀ (by positivity)).1 hlt
          rwa [← pow_add, show d + 1 + 2 ^ k = 2 ^ k + d + 1 by omega] at this

/-- val(g) x 10^45 as a rational. -/
theorem liftedGain_bounds {g : F32} (hpos : 0 < magnitude g) (hfin : isFinite g = true) :
    2 ^ 149 ≤ liftedGain g ∧ liftedGain g < 2 ^ 149 * 10 ^ 84 := by
  have hmax : magnitude g < 2 ^ 149 * 2 ^ 128 := by
    rw [isFinite_iff] at hfin
    rw [magnitude_eq_patternUnits]
    have h : patternUnits (g.toNat % 2 ^ 31) < patternUnits (254 * 2 ^ 23 + 2 ^ 23) :=
      patternUnits_lt_iff.2 (by omega)
    rw [patternUnits_step 254 (2 ^ 23) (by decide) (.inr le_rfl)] at h
    exact h.trans_le (le_of_eq (by rw [← pow_add, ← pow_add]))
  unfold liftedGain
  constructor
  · calc 2 ^ 149 ≤ 1 * 10 ^ 45 := by norm_num
      _ ≤ magnitude g * 10 ^ 45 := Nat.mul_le_mul_right _ hpos
  · calc magnitude g * 10 ^ 45 < 2 ^ 149 * 2 ^ 128 * 10 ^ 45 :=
          Nat.mul_lt_mul_of_pos_right hmax (by positivity)
      _ = 2 ^ 149 * (2 ^ 128 * 10 ^ 45) := Nat.mul_assoc _ _ _
      _ ≤ 2 ^ 149 * 10 ^ 84 := Nat.mul_le_mul_left _ (by norm_num)

/-- 10^d ≤ val(g) x 10^45 < 10^(d+1) for d = `decimalExponent g`. -/
theorem decimalExponent_spec {g : F32} (hpos : 0 < magnitude g) (hfin : isFinite g = true) :
    2 ^ 149 * 10 ^ decimalExponent g ≤ liftedGain g ∧
      liftedGain g < 2 ^ 149 * 10 ^ (decimalExponent g + 1) := by
  obtain ⟨hlo, hhi⟩ := liftedGain_bounds hpos hfin
  have hle : decimalExponent g ≤ 84 := Nat.findGreatest_le 84
  have hspec : 2 ^ 149 * 10 ^ decimalExponent g ≤ liftedGain g :=
    Nat.findGreatest_spec (P := fun d => 2 ^ 149 * 10 ^ d ≤ liftedGain g) (Nat.zero_le 84)
      (by rw [pow_zero, Nat.mul_one]; exact hlo)
  refine ⟨hspec, ?_⟩
  rcases Nat.lt_or_ge (decimalExponent g) 84 with h | h
  · exact Nat.lt_of_not_le (Nat.findGreatest_is_greatest
      (P := fun d => 2 ^ 149 * 10 ^ d ≤ liftedGain g) (Nat.lt_succ_self _) h)
  · rw [show decimalExponent g = 84 by omega] at hspec ⊢
    omega

/-- The exact search answers the whole part: with m its answer, 10^m ≤ (p/q)^(2^n) < 10^(m+1). -/
theorem powerSearch_spec (n p q : Nat) (hq : 0 < q) (hlo : q ≤ p) (hhi : p < q * 10 ^ 84) :
    (10 : ℚ) ^ Nat.findGreatest (fun k => pow10Le n k p q = true) (84 * 2 ^ n) ≤
        ((p : ℚ) / q) ^ 2 ^ n ∧
      ((p : ℚ) / q) ^ 2 ^ n <
        (10 : ℚ) ^ (Nat.findGreatest (fun k => pow10Le n k p q = true) (84 * 2 ^ n) + 1) := by
  have hN : (2 : Nat) ^ n ≠ 0 := by positivity
  have htop : ∀ k, pow10Le n k p q = true ↔ 10 ^ k * q ^ 2 ^ n ≤ p ^ 2 ^ n := fun k => by
    simp [pow10Le]
  have hlim : p ^ 2 ^ n < 10 ^ (84 * 2 ^ n) * q ^ 2 ^ n := by
    calc p ^ 2 ^ n < (q * 10 ^ 84) ^ 2 ^ n := Nat.pow_lt_pow_left hhi hN
      _ = 10 ^ (84 * 2 ^ n) * q ^ 2 ^ n := by rw [Nat.mul_pow, ← pow_mul, Nat.mul_comm]
  have h0 : pow10Le n 0 p q = true := by
    rw [htop, pow_zero, Nat.one_mul]; exact Nat.pow_le_pow_left hlo _
  have hspec := Nat.findGreatest_spec (P := fun k => pow10Le n k p q = true)
    (Nat.zero_le (84 * 2 ^ n)) h0
  have hgreat := fun k hk => Nat.findGreatest_is_greatest (P := fun k => pow10Le n k p q = true)
    (n := 84 * 2 ^ n) (k := k) hk
  generalize Nat.findGreatest (fun k => pow10Le n k p q = true) (84 * 2 ^ n) = m at *
  have hle : 10 ^ m * q ^ 2 ^ n ≤ p ^ 2 ^ n := (htop m).1 hspec
  have hlt : p ^ 2 ^ n < 10 ^ (m + 1) * q ^ 2 ^ n := by
    rcases Nat.lt_or_ge m (84 * 2 ^ n) with h | h
    · exact Nat.lt_of_not_le fun hle => hgreat (m + 1) (Nat.lt_succ_self m) h ((htop _).2 hle)
    · exact hlim.trans_le
        (Nat.mul_le_mul_right _ (Nat.pow_le_pow_right (by decide) (h.trans (Nat.le_succ m))))
  have hqn : (0 : ℚ) < (q : ℚ) ^ 2 ^ n := by positivity
  rw [div_pow, le_div_iff₀ hqn, div_lt_iff₀ hqn]
  exact ⟨by exact_mod_cast hle, by exact_mod_cast hlt⟩

/-- The computed places, put after the decimal exponent, are those of log10 of the whole gain. -/
theorem logDigits_lifted {L d n digits : Nat} (hdlo : 2 ^ 149 * 10 ^ d ≤ L)
    (hdhi : L < 2 ^ 149 * 10 ^ (d + 1))
    (heq : logDigits n 0 (L * 2 ^ 128 / (2 ^ 149 * 10 ^ d)) (L * 2 ^ 128 / (2 ^ 149 * 10 ^ d) + 1) =
      some digits) :
    (10 : ℚ) ^ (d * 2 ^ n + digits) ≤ ((L : ℚ) / 2 ^ 149) ^ 2 ^ n ∧
      ((L : ℚ) / 2 ^ 149) ^ 2 ^ n < (10 : ℚ) ^ (d * 2 ^ n + digits + 1) := by
  have hq : 0 < 2 ^ 149 * 10 ^ d := by positivity
  have hq' : (0 : ℚ) < 2 ^ 149 * 10 ^ d := by positivity
  have hfloor : ((L * 2 ^ 128 / (2 ^ 149 * 10 ^ d) : Nat) : ℚ) ≤
      (L : ℚ) / (2 ^ 149 * 10 ^ d) * 2 ^ 128 := by
    have : ((L * 2 ^ 128 / (2 ^ 149 * 10 ^ d) : Nat) : ℚ) ≤
      ((L * 2 ^ 128 : Nat) : ℚ) / ((2 ^ 149 * 10 ^ d : Nat) : ℚ) := Nat.cast_div_le
    push_cast at this
    exact this.trans (le_of_eq (by ring))
  have hceil : (L : ℚ) / (2 ^ 149 * 10 ^ d) * 2 ^ 128 <
      ((L * 2 ^ 128 / (2 ^ 149 * 10 ^ d) + 1 : Nat) : ℚ) := by
    have h := Nat.lt_div_mul_add (a := L * 2 ^ 128) hq
    rw [← Nat.succ_mul] at h
    have h' : (((L * 2 ^ 128 : Nat) : ℚ)) <
        ((((L * 2 ^ 128 / (2 ^ 149 * 10 ^ d)).succ * (2 ^ 149 * 10 ^ d) : Nat)) : ℚ) :=
      Nat.cast_lt.2 h
    rw [div_mul_eq_mul_div, div_lt_iff₀ hq']
    push_cast at h' ⊢
    exact h'
  have htop : L * 2 ^ 128 / (2 ^ 149 * 10 ^ d) + 1 ≤ 10 * 2 ^ 128 := by
    refine Nat.succ_le_of_lt ((Nat.div_lt_iff_lt_mul hq).2 ?_)
    calc L * 2 ^ 128 < 2 ^ 149 * 10 ^ (d + 1) * 2 ^ 128 :=
          Nat.mul_lt_mul_of_pos_right hdhi (by positivity)
      _ = 10 * 2 ^ 128 * (2 ^ 149 * 10 ^ d) := by ring
  have hone : 2 ^ 128 ≤ L * 2 ^ 128 / (2 ^ 149 * 10 ^ d) := by
    refine (Nat.le_div_iff_mul_le hq).2 ?_
    rw [Nat.mul_comm]; exact Nat.mul_le_mul_right _ hdlo
  obtain ⟨e, he, hge, hlt⟩ := logDigits_spec n 0 _ _ digits _ hfloor hceil htop hone heq
  rw [Nat.zero_mul, Nat.zero_add] at he
  subst he
  have hv : ((L : ℚ) / 2 ^ 149) ^ 2 ^ n =
      ((L : ℚ) / (2 ^ 149 * 10 ^ d)) ^ 2 ^ n * 10 ^ (d * 2 ^ n) := by
    rw [pow_mul, ← mul_pow]
    congr 1
    field_simp
  rw [hv]
  constructor
  · rw [pow_add, mul_comm]; exact mul_le_mul_of_nonneg_right hge (by positivity)
  · rw [Nat.add_assoc, pow_add, mul_comm ((10 : ℚ) ^ (d * 2 ^ n))]
    exact mul_lt_mul_of_pos_right hlt (by positivity)

/-- `logIndex g` is ⌊(log10(val(g)) + 45) x 2^50⌋: with v = val(g) x 10^45 and n = 2^50, it is the
k with 10^k ≤ v^n < 10^(k+1). -/
theorem logIndex_spec {g : F32} (hpos : 0 < magnitude g) (hfin : isFinite g = true) :
    (10 : ℚ) ^ logIndex g ≤ ((liftedGain g : ℚ) / 2 ^ 149) ^ 2 ^ logPlaces ∧
      ((liftedGain g : ℚ) / 2 ^ 149) ^ 2 ^ logPlaces < (10 : ℚ) ^ (logIndex g + 1) := by
  obtain ⟨hdlo, hdhi⟩ := decimalExponent_spec hpos hfin
  obtain ⟨hlo, hhi⟩ := liftedGain_bounds hpos hfin
  have hex := powerSearch_spec logPlaces (liftedGain g) (2 ^ 149) (by positivity) hlo hhi
  rw [Nat.cast_pow, Nat.cast_ofNat] at hex
  rw [logIndex, if_neg (Nat.pos_iff_ne_zero.1 hpos)]
  split
  case h_1 digits heq =>
    rw [leadingPlaces, leadingGain] at heq
    exact logDigits_lifted hdlo hdhi heq
  case h_2 => rw [logIndexExact]; exact hex

/-- All that `log10Choice` can answer: one of the two nearest values. -/
theorem log10Choice_eq (split : F32 → F32) (g : F32) (k : Nat) :
    (log10Choice split g k = lowerNearest k ∧ f32Lt g (split (lowerNearest k)) = true) ∨
      (log10Choice split g k = nextUp (lowerNearest k) ∧
        ((nextUp (lowerNearest k) = log10OfIndex k ∧ isWholeLog (nextUp (lowerNearest k)) = true) ∨
          f32Lt g (split (lowerNearest k)) = false)) := by
  simp only [log10Choice]
  split
  · exact .inr ⟨rfl, .inl ‹_›⟩
  · split
    · exact .inl ⟨rfl, ‹_›⟩
    · exact .inr ⟨rfl, .inr (Bool.eq_false_iff.2 ‹_›)⟩

/-- Where the lower nearest value lies: the two nearest enclose the logarithm or lie on one side. -/
theorem lowerNearest_eq (k : Nat) :
    lowerNearest k = log10OfIndex k ∨ lowerNearest k = nextDown (log10OfIndex k) ∨
      lowerNearest k = nextUp (log10OfIndex k) := by
  simp only [lowerNearest]
  split
  · exact .inr (.inl rfl)
  · split
    · exact .inl rfl
    · exact .inr (.inr rfl)

/-- All that `log10With` can answer: the exact logarithm of a power of ten, or the choice. -/
theorem log10With_eq (split : F32 → F32) (g : F32) :
    (isPowerOfTen g = true ∧ log10With split g = log10Below g) ∨
      (isPowerOfTen g = false ∧ log10With split g = log10Choice split g (logIndex g)) := by
  rw [log10With]
  split
  · exact .inl ⟨‹_›, rfl⟩
  · exact .inr ⟨Bool.eq_false_iff.2 ‹_›, rfl⟩

end Sys2Proof.Machine
end

