-- ==== Sys2Proof/Laws/State.lean ====
section
/-! SUPPORT. One lemma per field per update of the state, each true by rfl, so that no proof unfolds a record update. -/

namespace Sys2Proof.Machine

/-! ### `State.setLevels` -/

@[simp] theorem State.setLevels_left (s : State) (l r : F32) :
    (s.setLevels l r).left = s.left := rfl

@[simp] theorem State.setLevels_right (s : State) (l r : F32) :
    (s.setLevels l r).right = s.right := rfl

@[simp] theorem State.setLevels_enc (s : State) (l r : F32) :
    (s.setLevels l r).enc = { lvlL := l, lvlR := r } := rfl

@[simp] theorem State.setLevels_status (s : State) (l r : F32) :
    (s.setLevels l r).status = s.status := rfl

@[simp] theorem State.setLevels_out (s : State) (l r : F32) :
    (s.setLevels l r).out = s.out := rfl

@[simp] theorem State.setLevels_port (s : State) (l r : F32) :
    (s.setLevels l r).port = s.port := rfl

@[simp] theorem State.setLevels_inputs (s : State) (l r : F32) :
    (s.setLevels l r).inputs = s.inputs := rfl

@[simp] theorem State.setLevels_responses (s : State) (l r : F32) :
    (s.setLevels l r).responses = s.responses := rfl

@[simp] theorem State.setLevels_channel (s : State) (l r : F32) (c : Chan) :
    (s.setLevels l r).channel c = s.channel c := by cases c <;> rfl

/-! ### `State.respond` -/

@[simp] theorem State.respond_left (s : State) (code : BitVec 4) (data : BitVec 32) :
    (s.respond code data).left = s.left := rfl

@[simp] theorem State.respond_right (s : State) (code : BitVec 4) (data : BitVec 32) :
    (s.respond code data).right = s.right := rfl

@[simp] theorem State.respond_enc (s : State) (code : BitVec 4) (data : BitVec 32) :
    (s.respond code data).enc = s.enc := rfl

@[simp] theorem State.respond_status (s : State) (code : BitVec 4) (data : BitVec 32) :
    (s.respond code data).status = s.status := rfl

@[simp] theorem State.respond_out (s : State) (code : BitVec 4) (data : BitVec 32) :
    (s.respond code data).out = s.out := rfl

@[simp] theorem State.respond_port (s : State) (code : BitVec 4) (data : BitVec 32) :
    (s.respond code data).port = s.port := rfl

@[simp] theorem State.respond_inputs (s : State) (code : BitVec 4) (data : BitVec 32) :
    (s.respond code data).inputs = s.inputs := rfl

@[simp] theorem State.respond_responses (s : State) (code : BitVec 4) (data : BitVec 32) :
    (s.respond code data).responses = s.responses ++ [{ port := s.port, word := responseWord code data }] := rfl

@[simp] theorem State.respond_channel (s : State) (code : BitVec 4) (data : BitVec 32) (c : Chan) :
    (s.respond code data).channel c = s.channel c := by cases c <;> rfl

/-! ### `State.emit` -/

@[simp] theorem State.emit_left (s : State) (b : Byte) :
    (s.emit b).left = s.left := rfl

@[simp] theorem State.emit_right (s : State) (b : Byte) :
    (s.emit b).right = s.right := rfl

@[simp] theorem State.emit_enc (s : State) (b : Byte) :
    (s.emit b).enc = s.enc := rfl

@[simp] theorem State.emit_status (s : State) (b : Byte) :
    (s.emit b).status = s.status := rfl

@[simp] theorem State.emit_out (s : State) (b : Byte) :
    (s.emit b).out = s.out ++ [b] := rfl

@[simp] theorem State.emit_port (s : State) (b : Byte) :
    (s.emit b).port = s.port := rfl

@[simp] theorem State.emit_inputs (s : State) (b : Byte) :
    (s.emit b).inputs = s.inputs := rfl

@[simp] theorem State.emit_responses (s : State) (b : Byte) :
    (s.emit b).responses = s.responses := rfl

@[simp] theorem State.emit_channel (s : State) (b : Byte) (c : Chan) :
    (s.emit b).channel c = s.channel c := by cases c <;> rfl

/-! ### `State.raiseError` -/

@[simp] theorem State.raiseError_left (s : State) (x : Cause) :
    (s.raiseError x).left = s.left := rfl

@[simp] theorem State.raiseError_right (s : State) (x : Cause) :
    (s.raiseError x).right = s.right := rfl

@[simp] theorem State.raiseError_enc (s : State) (x : Cause) :
    (s.raiseError x).enc = s.enc := rfl

@[simp] theorem State.raiseError_status (s : State) (x : Cause) :
    (s.raiseError x).status = recordFirst x (setErrorBit x s.status) := rfl

@[simp] theorem State.raiseError_out (s : State) (x : Cause) :
    (s.raiseError x).out = s.out := rfl

@[simp] theorem State.raiseError_port (s : State) (x : Cause) :
    (s.raiseError x).port = s.port := rfl

@[simp] theorem State.raiseError_inputs (s : State) (x : Cause) :
    (s.raiseError x).inputs = s.inputs := rfl

@[simp] theorem State.raiseError_responses (s : State) (x : Cause) :
    (s.raiseError x).responses = s.responses ++ [{ port := s.port, word := responseWord (causeCode x) 0#32 }] := rfl

@[simp] theorem State.raiseError_channel (s : State) (x : Cause) (c : Chan) :
    (s.raiseError x).channel c = s.channel c := by cases c <;> rfl

/-! ### `State.acceptCommand` -/

@[simp] theorem State.acceptCommand_left (s : State) (p : Port) (rest : List Input) :
    (s.acceptCommand p rest).left = s.left := rfl

@[simp] theorem State.acceptCommand_right (s : State) (p : Port) (rest : List Input) :
    (s.acceptCommand p rest).right = s.right := rfl

@[simp] theorem State.acceptCommand_enc (s : State) (p : Port) (rest : List Input) :
    (s.acceptCommand p rest).enc = s.enc := rfl

@[simp] theorem State.acceptCommand_status (s : State) (p : Port) (rest : List Input) :
    (s.acceptCommand p rest).status = s.status := rfl

@[simp] theorem State.acceptCommand_out (s : State) (p : Port) (rest : List Input) :
    (s.acceptCommand p rest).out = s.out := rfl

@[simp] theorem State.acceptCommand_port (s : State) (p : Port) (rest : List Input) :
    (s.acceptCommand p rest).port = p := rfl

@[simp] theorem State.acceptCommand_inputs (s : State) (p : Port) (rest : List Input) :
    (s.acceptCommand p rest).inputs = rest := rfl

@[simp] theorem State.acceptCommand_responses (s : State) (p : Port) (rest : List Input) :
    (s.acceptCommand p rest).responses = s.responses := rfl

@[simp] theorem State.acceptCommand_channel (s : State) (p : Port) (rest : List Input) (c : Chan) :
    (s.acceptCommand p rest).channel c = s.channel c := by cases c <;> rfl

/-! ### `State.setChannel` -/

@[simp] theorem State.setChannel_enc (s : State) (c : Chan) (k : Channel) :
    (s.setChannel c k).enc = s.enc := by cases c <;> rfl

@[simp] theorem State.setChannel_status (s : State) (c : Chan) (k : Channel) :
    (s.setChannel c k).status = s.status := by cases c <;> rfl

@[simp] theorem State.setChannel_out (s : State) (c : Chan) (k : Channel) :
    (s.setChannel c k).out = s.out := by cases c <;> rfl

@[simp] theorem State.setChannel_port (s : State) (c : Chan) (k : Channel) :
    (s.setChannel c k).port = s.port := by cases c <;> rfl

@[simp] theorem State.setChannel_inputs (s : State) (c : Chan) (k : Channel) :
    (s.setChannel c k).inputs = s.inputs := by cases c <;> rfl

@[simp] theorem State.setChannel_responses (s : State) (c : Chan) (k : Channel) :
    (s.setChannel c k).responses = s.responses := by cases c <;> rfl

@[simp] theorem State.setChannel_left_left (s : State) (k : Channel) :
    (s.setChannel .left k).left = k := rfl

@[simp] theorem State.setChannel_left_right (s : State) (k : Channel) :
    (s.setChannel .left k).right = s.right := rfl

@[simp] theorem State.setChannel_right_left (s : State) (k : Channel) :
    (s.setChannel .right k).left = s.left := rfl

@[simp] theorem State.setChannel_right_right (s : State) (k : Channel) :
    (s.setChannel .right k).right = k := rfl

@[simp] theorem State.setChannel_channel_self (s : State) (c : Chan) (k : Channel) :
    (s.setChannel c k).channel c = k := by cases c <;> rfl

theorem State.setChannel_channel_of_ne (s : State) {c d : Chan} (h : d ≠ c) (k : Channel) :
    (s.setChannel c k).channel d = s.channel d := by cases c <;> cases d <;> simp_all [State.channel]

@[simp] theorem State.channel_left (s : State) : s.channel .left = s.left := rfl

@[simp] theorem State.channel_right (s : State) : s.channel .right = s.right := rfl

/-! ### `emitAll` and `resetInput` -/

@[simp] theorem emitAll_frame (s : State) (b₁ b₂ b₃ : Byte) :
    emitAll s [b₁, b₂, b₃] = { s with out := s.out ++ [b₁, b₂, b₃] } := by
  simp [emitAll, State.emit]

@[simp] theorem resetInput_inputs (rest : List Input) : (resetInput rest).inputs = rest := rfl

end Sys2Proof.Machine
end

