-- ==== Sys2Proof/Laws/Ops.lean ====
section
/-! SUPPORT. One lemma per shared operation that says all it can answer, and the equations of exec and step in those terms. -/

namespace Sys2Proof.Machine

/-- A command that its port may issue runs; any other raises PortViolation (60_exceptions.md R104). -/
theorem guardPort_eq (i : Instr) (s : State) (run : State → Result) :
    (accepts s.port i = true ∧ guardPort i s run = run s) ∨
      (accepts s.port i = false ∧ guardPort i s run = .next (s.raiseError .portViolation)) := by
  unfold guardPort failWith
  cases accepts s.port i <;> simp

theorem guardPort_of_accepts {i : Instr} {s : State} (run : State → Result)
    (h : accepts s.port i = true) : guardPort i s run = run s := by simp [guardPort, h]

theorem guardPort_of_not_accepts {i : Instr} {s : State} (run : State → Result)
    (h : accepts s.port i = false) : guardPort i s run = .next (s.raiseError .portViolation) := by
  simp [guardPort, failWith, h]

/-- An initialised channel's command runs; any other raises NotInitialised (R107). -/
theorem guardReady_eq (c : Chan) (s : State) (run : State → Result) :
    ((s.channel c).ready = true ∧ guardReady c s run = run s) ∨
      ((s.channel c).ready = false ∧ guardReady c s run = .next (s.raiseError .notInitialised)) := by
  unfold guardReady failWith
  cases (s.channel c).ready <;> simp

theorem guardReady_of_ready {c : Chan} {s : State} (run : State → Result)
    (h : (s.channel c).ready = true) : guardReady c s run = run s := by simp [guardReady, h]

theorem guardReady_of_not_ready {c : Chan} {s : State} (run : State → Result)
    (h : (s.channel c).ready = false) :
    guardReady c s run = .next (s.raiseError .notInitialised) := by
  simp [guardReady, failWith, h]

@[simp] theorem done_eq (s : State) (data : BitVec 32) : done s data = .next (s.respond 0#4 data) := rfl

@[simp] theorem failWith_eq (s : State) (x : Cause) : failWith s x = .next (s.raiseError x) := rfl

@[simp] theorem rejectIllegal_eq (s : State) :
    rejectIllegal s = .next (s.raiseError .illegalCommand) := rfl

@[simp] theorem recordFirst_eIll (x : Cause) (st : Status) : (recordFirst x st).eIll = st.eIll := by
  unfold recordFirst; split <;> rfl

@[simp] theorem recordFirst_ePort (x : Cause) (st : Status) :
    (recordFirst x st).ePort = st.ePort := by
  unfold recordFirst; split <;> rfl

@[simp] theorem recordFirst_eNotInit (x : Cause) (st : Status) :
    (recordFirst x st).eNotInit = st.eNotInit := by
  unfold recordFirst; split <;> rfl

@[simp] theorem recordFirst_eConfig (x : Cause) (st : Status) :
    (recordFirst x st).eConfig = st.eConfig := by
  unfold recordFirst; split <;> rfl

/-- FIRST is written only while it is 0 (10_state.md R21). -/
theorem recordFirst_first (x : Cause) (st : Status) :
    (recordFirst x st).first = if st.first = 0#4 then causeCode x else st.first := by
  unfold recordFirst; split <;> rfl

@[simp] theorem setErrorBit_first (x : Cause) (st : Status) :
    (setErrorBit x st).first = st.first := by cases x <;> rfl

/-- CODE of a response word (30_encoding.md R55). -/
@[simp] theorem responseWord_code (code : BitVec 4) (data : BitVec 32) :
    (responseWord code data).extractLsb' 0 4 = code := by
  unfold responseWord
  apply BitVec.eq_of_getLsbD_eq
  intro i hi
  simp only [BitVec.getLsbD_extractLsb', BitVec.getLsbD_append, Nat.zero_add, hi, decide_true,
    Bool.true_and, if_true]

/-- DATA of a response word (30_encoding.md R55). -/
@[simp] theorem responseWord_data (code : BitVec 4) (data : BitVec 32) :
    (responseWord code data).extractLsb' 4 32 = data := by
  unfold responseWord
  apply BitVec.eq_of_getLsbD_eq
  intro i hi
  simp only [BitVec.getLsbD_extractLsb', BitVec.getLsbD_append, hi, decide_true, Bool.true_and]
  simp [show ¬ 4 + i < 4 by omega]

/-- Every command answers a next state. -/
theorem exec_next (i : Instr) (s : State) : ∃ t, exec i s = .next t := by
  cases i <;>
    simp only [exec, execNop, execInit, execAdvance, execUpdate, execGetcur, execSample, execSetlevels,
      execEncode, execGetdisp, execGetstat, guardPort, guardReady, done, failWith] <;>
    (repeat' split) <;> exact ⟨_, rfl⟩

/-- All that a command accepted on its port can make of a state, instruction by instruction. -/
def Accepted (i : Instr) (s t : State) : Prop :=
  match i with
  | .nop => t = s.respond 0#4 0#32
  | .init c fs x =>
    (∃ n, configuredLength fs x = some n ∧ t = (s.setChannel c (initChannel n)).respond 0#4 0#32) ∨
      (configuredLength fs x = none ∧ t = s.raiseError .configError)
  | .advance c n =>
    ((s.channel c).ready = true ∧
        t = (s.setChannel c (advanceChannel (s.channel c) n.toNat)).respond 0#4 0#32) ∨
      ((s.channel c).ready = false ∧ t = s.raiseError .notInitialised)
  | .update c g =>
    ((s.channel c).ready = true ∧
        t = (s.setChannel c (registerReading (s.channel c) (gainToDb g))).respond 0#4 0#32) ∨
      ((s.channel c).ready = false ∧ t = s.raiseError .notInitialised)
  | .getcur c => t = s.respond 0#4 (s.channel c).cur
  | .sample => t = (s.setLevels s.left.cur s.right.cur).respond 0#4 0#32
  | .setlevels l r => t = (s.setLevels l r).respond 0#4 0#32
  | .encode =>
    t = ({ s with out := s.out ++ [quantize s.enc.lvlL, quantize s.enc.lvlR, 0#8] } : State).respond
      0#4 0#32
  | .getdisp => t = s.respond 0#4 (displayLevel s.enc.lvlL s.enc.lvlR)
  | .getstat => t = s.respond 0#4 (statusWord s)

/-- Everything `exec` can do: PortViolation, or the effect of the command (R104). -/
theorem exec_cases {i : Instr} {s t : State} (h : exec i s = .next t) :
    (accepts s.port i = false ∧ t = s.raiseError .portViolation) ∨
      (accepts s.port i = true ∧ Accepted i s t) := by
  cases ha : accepts s.port i with
  | false =>
    left
    refine ⟨rfl, ?_⟩
    cases i <;>
      simp only [exec, execNop, execInit, execAdvance, execUpdate, execGetcur, execSample,
        execSetlevels, execEncode, execGetdisp, execGetstat, guardPort_of_not_accepts _ ha,
        Host.Outcome.next.injEq] at h <;> exact h.symm
  | true =>
    right
    refine ⟨rfl, ?_⟩
    cases i with
    | init c fs x =>
      simp only [exec, execInit, guardPort_of_accepts _ ha] at h
      cases hc : configuredLength fs x with
      | none => rw [hc] at h; cases h; exact .inr ⟨hc, rfl⟩
      | some n => rw [hc] at h; cases h; exact .inl ⟨n, hc, rfl⟩
    | advance c n =>
      simp only [exec, execAdvance, guardPort_of_accepts _ ha] at h
      rcases guardReady_eq c s fun s =>
        done (s.setChannel c (advanceChannel (s.channel c) n.toNat)) 0#32 with ⟨hr, he⟩ | ⟨hr, he⟩ <;>
        rw [he] at h <;> cases h
      · exact .inl ⟨hr, rfl⟩
      · exact .inr ⟨hr, rfl⟩
    | update c g =>
      simp only [exec, execUpdate, guardPort_of_accepts _ ha] at h
      rcases guardReady_eq c s fun s =>
        done (s.setChannel c (registerReading (s.channel c) (gainToDb g))) 0#32 with
        ⟨hr, he⟩ | ⟨hr, he⟩ <;> rw [he] at h <;> cases h
      · exact .inl ⟨hr, rfl⟩
      · exact .inr ⟨hr, rfl⟩
    | nop => simp only [exec, execNop, guardPort_of_accepts _ ha] at h; cases h; rfl
    | getcur c => simp only [exec, execGetcur, guardPort_of_accepts _ ha] at h; cases h; rfl
    | sample => simp only [exec, execSample, guardPort_of_accepts _ ha] at h; cases h; rfl
    | setlevels l r => simp only [exec, execSetlevels, guardPort_of_accepts _ ha] at h; cases h; rfl
    | encode =>
      simp only [exec, execEncode, guardPort_of_accepts _ ha, frameOf, emitAll_frame] at h
      cases h; rfl
    | getdisp => simp only [exec, execGetdisp, guardPort_of_accepts _ ha] at h; cases h; rfl
    | getstat => simp only [exec, execGetstat, guardPort_of_accepts _ ha] at h; cases h; rfl

/-- The one step from a pending command. -/
theorem step_command {s : State} {p : Port} {w : CommandWord} {rest : List Input}
    (h : s.inputs = .command p w :: rest) : step s = execute w (s.acceptCommand p rest) := by
  simp [step, h]

theorem execute_ok {w : CommandWord} {i : Instr} (h : decode w = .ok i) (s : State) :
    execute w s = exec i s := by simp [execute, h]

theorem execute_error {w : CommandWord} {e : EncodingError} (h : decode w = .error e) (s : State) :
    execute w s = .next (s.raiseError .illegalCommand) := by simp [execute, h]

end Sys2Proof.Machine
end

