-- ==== Sys2Proof/Laws/PerInstr.lean ====
section
/-! SUPPORT. The family LegalFields: the word the assembler writes for an instruction is legal (30_encoding.md R54, R59), one lemma per constructor. -/

namespace Sys2Proof.Laws.LegalFields

/-- The fields written for the instruction pass every check of 30_encoding.md R54. -/
def Statement (i : Instr) : Prop := (fieldsOfInstr i).wellFormed = true

theorem nop : Statement .nop := rfl

theorem init (c : Chan) (fs t : F32) : Statement (.init c fs t) := by cases c <;> rfl

theorem advance (c : Chan) (n : U32) : Statement (.advance c n) := by cases c <;> rfl

theorem update (c : Chan) (g : F32) : Statement (.update c g) := by cases c <;> rfl

theorem getcur (c : Chan) : Statement (.getcur c) := by cases c <;> rfl

theorem sample : Statement .sample := rfl

theorem setlevels (l r : F32) : Statement (.setlevels l r) := rfl

theorem encode : Statement .encode := rfl

theorem getdisp : Statement .getdisp := rfl

theorem getstat : Statement .getstat := rfl

end Sys2Proof.Laws.LegalFields
end

