-- ==== Sys2Proof/Laws/Smoother.lean ====
section
/-! SUPPORT. What the shared operations of the smoother can make of a channel, said once each (40_smoother.md R69, R71, R72). -/

namespace Sys2Proof.Machine

/-- ADVANCE lands on the target or leaves a shorter ramp at a point of its line (R69). -/
theorem advanceChannel_eq (k : Channel) (n : Nat) :
    (k.cnt ≤ n ∧ advanceChannel k n = { k with cur := k.tgt, cnt := 0 }) ∨
      (n < k.cnt ∧ advanceChannel k n =
        { k with cnt := k.cnt - n, cur := rampValue k.org k.tgt k.len (k.len - (k.cnt - n)) }) := by
  unfold advanceChannel
  split
  · exact .inl ⟨‹_›, rfl⟩
  · exact .inr ⟨by omega, rfl⟩

@[simp] theorem advanceChannel_tgt (k : Channel) (n : Nat) : (advanceChannel k n).tgt = k.tgt := by
  rcases advanceChannel_eq k n with ⟨-, h⟩ | ⟨-, h⟩ <;> rw [h]

@[simp] theorem advanceChannel_org (k : Channel) (n : Nat) : (advanceChannel k n).org = k.org := by
  rcases advanceChannel_eq k n with ⟨-, h⟩ | ⟨-, h⟩ <;> rw [h]

@[simp] theorem advanceChannel_len (k : Channel) (n : Nat) : (advanceChannel k n).len = k.len := by
  rcases advanceChannel_eq k n with ⟨-, h⟩ | ⟨-, h⟩ <;> rw [h]

@[simp] theorem advanceChannel_ready (k : Channel) (n : Nat) :
    (advanceChannel k n).ready = k.ready := by
  rcases advanceChannel_eq k n with ⟨-, h⟩ | ⟨-, h⟩ <;> rw [h]

/-- A reading settles the channel at once, leaves it alone, or starts a full ramp from cur (R71, R72). -/
theorem registerReading_eq (k : Channel) (v : F32) :
    ((f32Lt v k.cur = false ∨ (f32Eq v k.tgt = false ∧ k.len = 0)) ∧
        registerReading k v = settledAt k v) ∨
      (f32Lt v k.cur = true ∧ f32Eq v k.tgt = true ∧ registerReading k v = k) ∨
      (f32Lt v k.cur = true ∧ f32Eq v k.tgt = false ∧ k.len ≠ 0 ∧
        registerReading k v = { k with org := k.cur, tgt := v, cnt := k.len }) := by
  unfold registerReading setTarget
  cases f32Lt v k.cur <;> cases f32Eq v k.tgt <;> by_cases h : k.len = 0 <;> simp [h]

@[simp] theorem registerReading_len (k : Channel) (v : F32) : (registerReading k v).len = k.len := by
  rcases registerReading_eq k v with ⟨-, h⟩ | ⟨-, -, h⟩ | ⟨-, -, -, h⟩ <;> (rw [h]; try rfl)

@[simp] theorem registerReading_ready (k : Channel) (v : F32) :
    (registerReading k v).ready = k.ready := by
  rcases registerReading_eq k v with ⟨-, h⟩ | ⟨-, -, h⟩ | ⟨-, -, -, h⟩ <;> (rw [h]; try rfl)

end Sys2Proof.Machine
end

