-- ==== Sys2Proof/Tests/Slice0.lean ====
section
/-! SUPPORT. Tests of the model against words, values and vectors written out from spec/ (30_encoding.md, 95_test_vectors.md), and a witness for the hypotheses of each obligation that has some. -/

open Sys2Proof Sys2Proof.Machine Sys2Proof.Certificates

namespace Sys2Proof.Tests

/-! ### Well-formedness and decoding -/

/-- The fields of NOP with one of them changed by each test below. -/
def plainFields : Fields := { op := 0#4, ch := 0#1, rsv := 0#3, a := 0#32, b := 0#32 }

theorem test_plain_fields_accepted : plainFields.wellFormed = true := by decide

theorem test_reserved_operation_refused :
    { plainFields with op := 10#4 }.violation = some .reservedOperation ∧
    { plainFields with op := 9#4 }.wellFormed = true := by decide

theorem test_reserved_bits_refused :
    { plainFields with rsv := 1#3 }.violation = some .reservedBits := by decide

theorem test_channel_bit_refused :
    { plainFields with op := 5#4, ch := 1#1 }.violation = some .channelBit ∧
    { plainFields with op := 4#4, ch := 1#1 }.wellFormed = true := by decide

/-- The assembler's port check (R59). -/
theorem test_line_port_refused :
    ({ port := .pe, instr := .update .left 0#32 } : Line).wellFormed = false ∧
    ({ port := .pe, instr := .getcur .left } : Line).wellFormed = true := by decide

/-- Words of the examples of R67, R69, R71, R73, R87 to R90, R101 and R102, B_A_low as printed. -/
theorem test_decode_words :
    decodeTableWord 72 0xFFFFFFFFFFFFFFFF00 = some .nop ∧
    decodeTableWord 72 0x3F000000473B800001 = some (.init .left 0x473B8000#32 0x3F000000#32) ∧
    decodeTableWord 72 0x3F000000473B800011 = some (.init .right 0x473B8000#32 0x3F000000#32) ∧
    decodeTableWord 72 0x00000000000001E002 = some (.advance .left 480#32) ∧
    decodeTableWord 72 0x000000003DCCCCCD13 = some (.update .right 0x3DCCCCCD#32) ∧
    decodeTableWord 72 0x000000000000000014 = some (.getcur .right) ∧
    decodeTableWord 72 0x000000000000000005 = some .sample ∧
    decodeTableWord 72 0x41200000C220000006 = some (.setlevels 0xC2200000#32 0x41200000#32) ∧
    decodeTableWord 72 0x000000000000000007 = some .encode ∧
    decodeTableWord 72 0x000000000000000008 = some .getdisp ∧
    decodeTableWord 72 0x000000000000000009 = some .getstat := by decide

/-- Illegal words of V-X-1, V-X-2, V-X-3, V-X-9 and V-X-10. -/
theorem test_decode_illegal :
    decode 0x0A#72 = .error .reservedOperation ∧ decode 0x21#72 = .error .reservedBits ∧
    decode 0x15#72 = .error .channelBit ∧ decode 0xF0#72 = .error .reservedBits ∧
    decode 0x19#72 = .error .channelBit := by decide

theorem test_encode_words :
    encode (.init .right 0x473B8000#32 0x3F000000#32) = 0x3F000000473B800011#72 ∧
    encode (.setlevels 0xC2200000#32 0x41200000#32) = 0x41200000C220000006#72 := by decide

/-! ### Helpers: small states and what a command makes of them -/

/-- A channel that is ready. -/
def channelOf (cur tgt org : F32) (cnt len : Nat) : Channel :=
  { cur := cur, tgt := tgt, org := org, cnt := cnt, len := len, ready := true }

/-- Reset, but for the left channel and the port. -/
def leftIs (k : Channel) (p : Port) : State := { State.reset with left := k, port := p }

/-- Reset on a port with one command pending, then others. -/
def pending (s : State) (p : Port) (w : CommandWord) : State := { s with inputs := [.command p w] }

/-- Some part of the state a command leaves. -/
def part {α : Type} (f : State → α) (r : Result) : Option α :=
  match r with
  | .next t => some (f t)
  | _ => none

/-- The settled state of V-S-12: 0 dB, N = 24000. -/
def settledZero : State := leftIs (channelOf 0#32 0#32 0#32 0 24000) .pa

/-- The start of the release of V-S-4: from 0 dB to -20 dB in 24000 samples. -/
def releasing : State := leftIs (channelOf 0#32 0xC1A00000#32 0#32 24000 24000) .pa

/-- The start of a release from 0 dB to the floor in 24000 samples, the end of V-S-12. -/
def releasingToFloor : State := leftIs (channelOf 0#32 0xC2C80000#32 0#32 24000 24000) .pa

/-- Settled at 0 dB with no ramp configured, N = 0 (V-S-22). -/
def settledInstant : State := leftIs (channelOf 0#32 0#32 0#32 0 0) .pa

/-- Settled at the floor after INIT L, 48000, 0.5 (V-INIT-1). -/
def settledFloor : State :=
  leftIs (channelOf 0xC2C80000#32 0xC2C80000#32 0xC2C80000#32 0 24000) .pa

/-! ### Vectors of 95_test_vectors.md -/

/-- V-INIT-1 and V-INIT-6. -/
theorem test_init_length :
    part (·.left) (exec (.init .left 0x473B8000#32 0x3F000000#32) State.reset) =
      some (channelOf 0xC2C80000#32 0xC2C80000#32 0xC2C80000#32 0 24000) ∧
    configuredLength 0x472C4400#32 0x3DCCCCCD#32 = some 4411 := by decide

/-- V-INIT-10, 13, 14, 16 to 26: the accepted and the rejected operands. -/
theorem test_init_operands :
    [(0x00000001#32, 0x3F000000#32), (0x4B800000#32, 0x3F800000#32), (0x473B8000#32, 0x0DA24260#32),
      (0x473B8000#32, 0x80000000#32), (0x4B800001#32, 0x3F800000#32), (0x00000000#32, 0x3F000000#32),
      (0x80000000#32, 0x3F000000#32), (0xC73B8000#32, 0x3F000000#32), (0x7FC00000#32, 0x3F000000#32),
      (0x7F800000#32, 0x3F000000#32), (0x473B8000#32, 0xBF000000#32), (0x473B8000#32, 0x7F800000#32),
      (0x473B8000#32, 0x7FC00000#32), (0x7F7FC99E#32, 0x3F000000#32)].map
      (fun x => configuredLength x.1 x.2) =
    [some 1, some 16777216, some 1, some 0, none, none, none, none, none, none, none, none, none,
      none] := by decide

/-- V-S-8: halfway down the ramp of V-S-4. -/
theorem test_advance_halfway :
    part (·.left) (exec (.advance .left 12000#32) releasing) =
      some (channelOf 0xC1200000#32 0xC1A00000#32 0#32 12000 24000) := by decide

/-- V-S-1 k = 1, V-S-4, V-S-5 and V-S-7: rounding toward +∞, and the landing on the target. -/
theorem test_advance_rounding :
    [480#32, 1#32, 23999#32, 0xFFFFFFFF#32].map
      (fun n => part (·.left.cur) (exec (.advance .left n) releasing)) =
    [some 0xBECCCCCC#32, some 0xBA5A740D#32, some 0xC19FFE4B#32, some 0xC1A00000#32] := by decide

/-- V-S-12, V-S-14 and V-S-21. -/
theorem test_update_special_gains :
    part (·.left) (exec (.update .left 0x7FC00000#32) settledZero) =
      some (channelOf 0#32 0xC2C80000#32 0#32 24000 24000) ∧
    part (·.left.cur) (exec (.update .left 0x7F800000#32) settledZero) = some 0x7F7FFFFF#32 ∧
    part (·.left) (exec (.update .left 0x7FC00000#32) settledFloor) = some settledFloor.left := by
  decide

/-- V-DB-1, 16, 7, 8, 9 and 10, where LOG10 is fixed by L3 and L4. -/
theorem test_decibels_fixed :
    [0x3F800000#32, 0x41200000#32, 0x80000000#32, 0x7FA00001#32, 0xBF000000#32, 0xFF800000#32].map
      gainToDb =
    [0x00000000#32, 0x41A00000#32, 0xC2C80000#32, 0xC2C80000#32, 0xC2C80000#32, 0xC2C80000#32] := by
  decide

set_option maxRecDepth 4000 in
/-- V-DB-2, 3, 6, 15, 17, 20 and 24: the vectors of the correctly rounded LOG10 are one of the two values
the free choice leaves, lower then upper. -/
theorem test_decibels_bracketed :
    ([(0x3DCCCCCD#32, 0xC1A00000#32), (0x3C23D70A#32, 0xC2200000#32), (0x358637BD#32, 0xC2C80000#32),
      (0x40000000#32, 0x40C0A8C2#32), (0x3F000000#32, 0xC0C0A8C2#32), (0x3F7FFFFF#32, 0xB50AF968#32),
      (0x3F004DCE#32, 0xC0C00000#32)].all fun v =>
      v.2 == gainToDbWith (log10With fun _ => Config.posInf) v.1 ||
        v.2 == gainToDbWith (log10With fun _ => Config.posZero) v.1) = true := by decide

set_option maxRecDepth 4000 in
/-- R66, L4 read at its word beside a power of two, by hand: log10 of 0x404A62C2 is 0.5 + 5.3e-9 and of
0x3DCCCCCC -1 - 2.6e-8, so that the two nearest values lie on one side of it; log10 of 0x42C80001 is
2 + 3.3e-8, where L2 leaves 2.0 alone because LOG10(100.0) is 2.0. -/
theorem test_log10_nearest :
    [0x404A62C2#32, 0x3DCCCCCC#32, 0x42C80001#32].map
      (fun g => (log10With (fun _ => Config.posInf) g, log10With (fun _ => Config.posZero) g)) =
    [(0x3EFFFFFF#32, 0x3F000000#32), (0xBF800000#32, 0xBF7FFFFF#32),
      (0x40000000#32, 0x40000000#32)] := by decide

/-- V-X-12 and V-S-8's value read on PE. -/
theorem test_getcur :
    part (·.responses) (exec (.getcur .right) State.reset) =
      some [{ port := .pa, word := 0xC2C800000#36 }] := by decide

/-- V-E-21's SAMPLE: both channels in one step. -/
theorem test_sample :
    part (·.enc) (exec .sample
      { leftIs (channelOf 0xC0000000#32 0xC1A00000#32 0#32 21600 24000) .pe with
        right := channelOf 0xC0C0A8C2#32 0xC0C0A8C2#32 0xC0C0A8C2#32 0 24000 }) =
      some { lvlL := 0xC0000000#32, lvlR := 0xC0C0A8C2#32 } := by decide

/-- V-E-9: a NaN payload is stored as given. -/
theorem test_setlevels :
    part (·.enc) (exec (.setlevels 0xFFC00001#32 0x3F800000#32) { State.reset with port := .pe }) =
      some { lvlL := 0xFFC00001#32, lvlR := 0x3F800000#32 } := by decide

/-- The level bytes of V-E-1 to V-E-12 that differ, and R92's -12.500001. -/
theorem test_quantizer :
    [0xC2200000#32, 0x41200000#32, 0xC1480000#32, 0x00000000#32, 0x7FC00000#32, 0xFF800000#32,
      0x00000001#32, 0x3F800000#32, 0xC1A00000#32, 0xC0C0A8C1#32, 0xC1480001#32, 0xC1200000#32].map
      quantize =
    [0x01#8, 0xFF#8, 0x80#8, 0xDA#8, 0x01#8, 0x01#8, 0xDA#8, 0xE1#8, 0x49#8, 0xAF#8, 0x80#8, 0x92#8] := by
  decide

/-- V-E-1: `01 FF 00`, left first. -/
theorem test_encode_frame :
    part (·.out) (exec .encode
      { State.reset with port := .pe, enc := { lvlL := 0xC2200000#32, lvlR := 0x41200000#32 } }) =
      some [0x01#8, 0xFF#8, 0x00#8] := by decide

/-- V-E-1, 3, 5, 6, 8, 9, 10 and 11. -/
theorem test_getdisp_values :
    [displayLevel 0xC2200000#32 0x41200000#32, displayLevel 0xC1480000#32 0x00000000#32,
      displayLevel 0x7F800000#32 0xFF800000#32, displayLevel 0x7F7FFFFF#32 0x7F7FFFFF#32,
      displayLevel 0x00000001#32 0x00000000#32, displayLevel 0xFFC00001#32 0x3F800000#32,
      displayLevel 0xC1A00000#32 0xC0C0A8C1#32, displayLevel 0x80000000#32 0x80000000#32] =
    [0xC1700000#32, 0xC0C80000#32, 0x7FC00000#32, 0x7F800000#32, 0x00000000#32, 0x7FC00000#32,
      0xC1502A30#32, 0x80000000#32] := by decide

/-- V-E-31. -/
theorem test_getdisp :
    part (·.responses) (exec .getdisp { State.reset with port := .pe }) =
      some [{ port := .pe, word := 0xC2C800000#36 }] := by decide

/-- V-C-6: STATUS 0x00000212 after an INIT on PE, with channel L ready. -/
theorem test_getstat :
    part (·.responses) (exec .getstat
      { leftIs settledFloor.left .pe with
        status := { State.reset.status with ePort := true, first := 2#4 } }) =
      some [{ port := .pe, word := 0x000002120#36 }] := by decide

/-- V-C-2: NOP ignores A and B. -/
theorem test_nop :
    part (·.responses) (step (pending State.reset .pe 0xFFFFFFFFFFFFFFFF00#72)) =
      some [{ port := .pe, word := 0#36 }] := by decide

/-- V-X-1 and V-X-5: STATUS and the response of an error. -/
theorem test_errors :
    part (fun t => (statusWord t, t.responses)) (step (pending State.reset .pa 0x0A#72)) =
      some (0x00000101#32, [{ port := .pa, word := 1#36 }]) ∧
    part (fun t => (statusWord t, t.responses)) (step (pending State.reset .pe 0x000000000000000102#72)) =
      some (0x00000202#32, [{ port := .pe, word := 2#36 }]) := by decide

/-- `withFetchWord` delivers the word, and the next step runs it, on PE where only PE may. -/
theorem test_fetch_word :
    part (·.out) (step (State.reset.withFetchWord 8 0x07)) = some [1#8, 1#8, 0#8] ∧
    part (·.left.len) (step (State.reset.withFetchWord 72 0x3F000000473B800001)) = some 24000 := by decide

/-- Literals of R60: 0.1 is 0x3DCCCCCD, 1e-5 is 0x3727C5AC (V-DB-5). -/
theorem test_literals :
    [literalBits (.decimal false 1 (-1)), literalBits (.decimal false 1 (-5)),
      literalBits (.decimal true 125 (-1)), literalBits (.decimal false 48000 0)] =
    [0x3DCCCCCD#32, 0x3727C5AC#32, 0xC1480000#32, 0x473B8000#32] := by decide

/-- `1e-5` of R60 is read; a plus sign is not (log 18). -/
theorem test_plus_sign_rejected :
    readValue "1e-5".toList = some 0x3727C5AC#32 ∧ readValue "1e+5".toList = none ∧
    readValue "+1".toList = none := by decide

/-- The text of P6's first BLOCK2 line. -/
theorem test_assembler_block2 :
    assemble ["PA: BLOCK2 480, 1.0, 1.0"] =
      some [.command .pa 0x00000000000001E002#72, .command .pa 0x000000003F80000003#72,
        .command .pa 0x00000000000001E012#72, .command .pa 0x000000003F80000013#72] := by decide

/-! ### Witnesses: concrete values that meet the hypotheses of each obligation -/

theorem value_le_iff (x y : F32) : value x ≤ value y ↔ scaled x ≤ scaled y := by
  unfold value
  rw [div_le_div_iff_of_pos_right (by positivity), Int.cast_le]

theorem value_lt_iff (x y : F32) : value x < value y ↔ scaled x < scaled y := by
  rw [← not_le, value_le_iff, not_le]

theorem value_eq_iff (x y : F32) : value x = value y ↔ scaled x = scaled y := by
  rw [le_antisymm_iff, value_le_iff, value_le_iff, ← le_antisymm_iff]

theorem value_zero : value 0#32 = 0 := by
  have : scaled 0#32 = 0 := by decide
  simp [value, this]

theorem value_one : value 0x3F800000#32 = 1 := by
  have : scaled 0x3F800000#32 = 2 ^ 149 := by decide
  rw [value, this]; norm_num

theorem value_half : value 0x3F000000#32 = 1 / 2 := by
  have : scaled 0x3F000000#32 = 2 ^ 148 := by decide
  rw [value, this]; norm_num

theorem value_rate : value 0x473B8000#32 = 48000 := by
  have : scaled 0x473B8000#32 = 48000 * 2 ^ 149 := by decide
  rw [value, this]; norm_num

theorem value_largestRate : value 0x4B800000#32 = 2 ^ 24 := by
  have : scaled 0x4B800000#32 = 2 ^ 24 * 2 ^ 149 := by decide
  rw [value, this]; norm_num

theorem value_ten : value 0x41200000#32 = 10 := by
  have : scaled 0x41200000#32 = 10 * 2 ^ 149 := by decide
  rw [value, this]; norm_num

/-- IllegalEncodings, NonzeroReservedBitsIllegal: a word for each cause. -/
theorem witness_IllegalEncodings :
    (∀ w ∈ [0x0A#72, 0x0F#72, 0x20#72, 0xE3#72, 0x10#72, 0x15#72, 0x19#72], ∃ e, decode w = .error e) ∧
    (0x20#72 : CommandWord).extractLsb' 5 3 ≠ 0#3 ∧
    (pending State.reset .pe 0x0A#72).inputs = .command .pe 0x0A#72 :: [] := by
  refine ⟨?_, by decide, rfl⟩
  intro w hw
  simp only [List.mem_cons, List.not_mem_nil, or_false] at hw
  rcases hw with rfl | rfl | rfl | rfl | rfl | rfl | rfl <;> exact ⟨_, rfl⟩

/-- StepRunsDecodedCommand, OneResponsePerCommand: a pending ENCODE. -/
theorem witness_StepRunsDecodedCommand :
    (pending State.reset .pe 0x07#72).inputs = .command .pe 0x07#72 :: [] ∧
    decode 0x07#72 = .ok .encode ∧ expectedCode .pe 0x07#72 (pending State.reset .pe 0x07#72) = 0#4 := by
  decide

/-- OneResponsePerCommand: one pending command for every CODE. -/
theorem witness_OneResponsePerCommand :
    [expectedCode .pa 0x0A#72 State.reset, expectedCode .pa 0x07#72 State.reset,
      expectedCode .pa 0x02#72 State.reset, expectedCode .pa 0x01#72 State.reset,
      expectedCode .pa 0x09#72 State.reset] = [1#4, 2#4, 3#4, 4#4, 0#4] := by decide

theorem witness_IdleHoldsState : State.reset.inputs = [] := rfl

/-- StepTakesHeadOfItsPort, StatusRecordsErrors: a step that answers next, for q = p and q ≠ p. -/
theorem witness_StepTakesHeadOfItsPort :
    (pending State.reset .pa 0x07#72).inputs = .command .pa 0x07#72 :: [] ∧
    (∃ t, step (pending State.reset .pa 0x07#72) = .next t) ∧ Port.pe ≠ Port.pa :=
  ⟨rfl, ⟨_, rfl⟩, by decide⟩

/-- OnlyResetClears: an illegal word after an earlier error and an INIT. -/
theorem witness_OnlyResetClears :
    let s := pending { settledZero with
      status := { State.reset.status with ePort := true, first := 2#4 } } .pa 0x0A#72
    (∀ rest, s.inputs ≠ .reset :: rest) ∧ (∃ t, step s = .next t) ∧
    errorBit .portViolation s.status = true ∧ s.status.first ≠ 0#4 ∧
    (s.channel .left).ready = true := by
  refine ⟨?_, ⟨_, rfl⟩, by decide, by decide, by decide⟩
  intro rest h
  cases h

theorem witness_ResetInputRestoresReset :
    ({ releasing with inputs := [.reset] } : State).inputs = .reset :: [] := rfl

/-- PortViolations, NotInitialisedErrors, and the statements with a premise on the port alone:
SampleCopiesBoth, SetlevelsStoresPatterns, EncodeAppendsFrame and GetdispBlends. -/
theorem witness_ports :
    State.reset.port = .pa ∧ ({ State.reset with port := .pe } : State).port = .pe ∧
    (State.reset.channel .left).ready = false ∧ (State.reset.channel .right).ready = false ∧
    (State.reset.channel .left).FreshUntilReady := by decide

/-- InitSettlesChannel: 48000 Hz with 0.5 s, with 0 s (N = 0), and the largest N. -/
theorem witness_InitSettlesChannel :
    InitOperandsValid 0x473B8000#32 0x3F000000#32 ∧ InitOperandsValid 0x473B8000#32 0x00000000#32 ∧
    InitOperandsValid 0x4B800000#32 0x3F800000#32 := by
  unfold InitOperandsValid
  rw [value_rate, value_half, value_zero, value_largestRate, value_one]
  refine ⟨⟨⟨by decide, by norm_num⟩, ⟨by decide, by norm_num⟩, ?_⟩,
    ⟨⟨by decide, by norm_num⟩, ⟨by decide, by norm_num⟩, ?_⟩,
    ⟨⟨by decide, by norm_num⟩, ⟨by decide, by norm_num⟩, ?_⟩⟩ <;>
  · rw [Nat.ceil_le]; norm_num

/-- ConfigErrors: operands of each of the two kinds, on PA. -/
theorem witness_ConfigErrors :
    State.reset.port = .pa ∧ ¬ InitOperandsValid 0x00000000#32 0x3F000000#32 ∧
    InitOperandsValid 0x473B8000#32 0x3F000000#32 :=
  ⟨rfl, fun h => by have := h.1.2; rw [value_zero] at this; exact lt_irrefl _ this,
    witness_InitSettlesChannel.1⟩

theorem witness_RampLengthIsCeiling : 0 ≤ value 0x473B8000#32 ∧ 0 ≤ value 0x00000000#32 := by
  rw [value_rate, value_zero]; norm_num

theorem witness_StatusWordBits : [0, 5, 6, 8, 11, 12, 31].all (· < 32) = true := by decide

/-- ConformingCommandsKeepStatusClean: GETSTAT from a clean state with both channels ready. -/
theorem witness_ConformingCommandsKeepStatusClean :
    State.reset.status.Clean ∧ decode 0x09#72 = .ok .getstat ∧
    permitted .getstat ((pending State.reset .pe 0x09#72).acceptCommand .pe []) = true ∧
    part (fun t => (t.left.ready, t.right.ready))
      (step (pending { settledZero with right := settledZero.left } .pe 0x09#72)) =
      some (true, true) := by decide

/-- ResultsIndependentOfStatus, AccessMatrixWrites, PortsOwnTheirRegisters: commands that answer next. -/
theorem witness_exec_next :
    (∃ t, exec .sample { State.reset with status := State.reset.status } = .next t) ∧
    (∃ t, exec (.init .left 0x473B8000#32 0x3F000000#32) State.reset = .next t) ∧
    (∃ t, exec .encode { State.reset with port := .pe } = .next t) ∧
    Instr.nop ≠ .encode ∧ Instr.nop ≠ .sample ∧ Instr.nop ≠ .getstat ∧
    (∀ l r, Instr.nop ≠ .setlevels l r) ∧ (∀ c f x, Instr.nop ≠ .init c f x) ∧
    (∀ c g, Instr.nop ≠ .update c g) ∧ (∀ c n, Instr.nop ≠ .advance c n) :=
  ⟨⟨_, rfl⟩, ⟨_, rfl⟩, ⟨_, rfl⟩, by decide, by decide, by decide,
    nofun, nofun, nofun, nofun⟩

theorem witness_NopDoesNothing :
    (0xFFFFFFFFFFFFFFFF00#72 : CommandWord).extractLsb' 0 8 = 0#8 ∧
    (0xE0#72 : CommandWord).extractLsb' 0 4 = 0#4 ∧ (0xE0#72 : CommandWord).extractLsb' 5 3 ≠ 0#3 ∧
    (0x10#72 : CommandWord).extractLsb' 0 4 = 0#4 ∧ (0x10#72 : CommandWord).extractLsb' 4 1 = 1#1 := by
  decide

/-- AdvanceEndsRamp at n = cnt; AdvanceFollowsLine, RampDescendsWithoutOvershoot, AdvancesAdd at the
first and the last sample of the ramp. -/
theorem witness_AdvanceFollowsLine :
    releasing.port = .pa ∧ (releasing.channel .left).ready = true ∧ (releasing.channel .left).Inv ∧
    (releasing.channel .left).cnt ≤ (24000#32).toNat ∧
    (23999#32).toNat < (releasing.channel .left).cnt ∧ (0#32).toNat < (releasing.channel .left).cnt ∧
    (releasing.channel .left).cnt - (0#32).toNat = (releasing.channel .left).len ∧
    (0xFFFFFFFE#32).toNat + (1#32).toNat < 2 ^ 32 := by decide

theorem witness_RampDescendsWithoutOvershoot :
    isFinite 0#32 = true ∧ isFinite 0xC1A00000#32 = true ∧ value 0xC1A00000#32 < value 0#32 ∧
    0 ≤ 23999 ∧ 0 < 24000 ∧ 23999 < 24000 := by
  refine ⟨by decide, by decide, ?_, by decide, by decide, by decide⟩
  rw [value_lt_iff]; decide

/-- ReleaseFollowsLineToTarget: a block with no reading and one with a reading at the target, before
and past the end of the ramp. -/
theorem witness_ReleaseFollowsLineToTarget :
    (releasingToFloor.channel .left).ready = true ∧ (releasingToFloor.channel .left).Inv ∧
    0 < (releasingToFloor.channel .left).cnt ∧
    (releasingToFloor.channel .left).cnt = (releasingToFloor.channel .left).len ∧
    (releasingToFloor.channel .left).cur = (releasingToFloor.channel .left).org ∧
    gainToDb 0#32 = (releasingToFloor.channel .left).tgt ∧
    (∀ b ∈ [(480#32, none), (23519#32, some 0#32)], ∀ g, b.2 = some g →
      gainToDb g = (releasingToFloor.channel .left).tgt) ∧
    ([(480#32, none), (23519#32, some 0#32)].map
      fun b : U32 × Option F32 => b.1.toNat).sum < (releasingToFloor.channel .left).len ∧
    ¬ ([(480#32, some 0#32), (23520#32, none)].map
      fun b : U32 × Option F32 => b.1.toNat).sum < (releasingToFloor.channel .left).len := by
  refine ⟨rfl, by decide, by decide, rfl, rfl, by decide, ?_, by decide, by decide⟩
  intro b hb g hg
  simp only [List.mem_cons, List.not_mem_nil, or_false] at hb
  rcases hb with rfl | rfl
  · cases hg
  · cases hg; decide

/-- UpdateAttacksAtOnce and InstantAttackIsRead: 1.0 and, at equality, 0 on a channel at the floor. -/
theorem witness_UpdateAttacksAtOnce :
    settledFloor.port = .pa ∧ (settledFloor.channel .left).ready = true ∧
    isFinite (settledFloor.channel .left).cur = true ∧
    value (settledFloor.channel .left).cur ≤ value (gainToDb 0x3F800000#32) ∧
    value (settledFloor.channel .left).cur ≤ value (gainToDb 0#32) := by
  rw [value_le_iff, value_le_iff]; decide

/-- UpdateReleases: gain 0 with the floor as target already, with N = 0, and with N > 0. -/
theorem witness_UpdateReleases :
    (∀ s ∈ [releasingToFloor, settledInstant, settledZero], s.port = .pa ∧
      (s.channel .left).ready = true ∧ isFinite (s.channel .left).cur = true ∧
      isFinite (s.channel .left).tgt = true ∧ value (gainToDb 0#32) < value (s.channel .left).cur) ∧
    value (gainToDb 0#32) = value (releasingToFloor.channel .left).tgt ∧
    value (gainToDb 0#32) ≠ value (settledInstant.channel .left).tgt ∧
    (settledInstant.channel .left).len = 0 ∧ (settledZero.channel .left).len ≠ 0 := by
  simp only [value_lt_iff, value_eq_iff, ne_eq, List.forall_mem_cons]
  refine ⟨⟨by decide, by decide, by decide, fun _ h => by cases h⟩, ?_⟩
  decide

/-- DecibelsOfGain: a gain of each kind. -/
theorem witness_DecibelsOfGain :
    isNaN 0x7FC00000#32 = true ∧ magnitude 0x80000000#32 = 0 ∧ isNegative 0xFF800000#32 = true ∧
    isFinite 0x3DCCCCCD#32 = true ∧ isNegative 0x3DCCCCCD#32 = false ∧
    magnitude 0x3DCCCCCD#32 ≠ 0 := by decide

/-- NoNaNFromGains: a NaN gain, and an UPDATE that answers next from a state of the invariant. -/
theorem witness_NoNaNFromGains :
    isNaN 0x7FA00001#32 = true ∧ isFinite 0#32 = true ∧ isFinite 0xC1A00000#32 = true ∧
    value 0xC1A00000#32 < value 0#32 ∧ 0 < 24000 ∧ releasing.left.Inv ∧ releasing.right.Inv ∧
    ∃ t, exec (.update .left 0x7FA00001#32) releasing = .next t := by
  refine ⟨by decide, by decide, by decide, ?_, by decide, by decide, by decide, exec_next _ _⟩
  rw [value_lt_iff]; decide

/-- Log10IsFaithful: gain 10.0, whose logarithm is the binary32 value 1.0. -/
theorem witness_Log10IsFaithful :
    isFinite 0x41200000#32 = true ∧ 0 < value 0x41200000#32 ∧
    ∃ y : F32, isFinite y = true ∧ realValue y = Real.logb 10 (realValue 0x41200000#32) := by
  refine ⟨by decide, by rw [value_ten]; norm_num, 0x3F800000#32, by decide, ?_⟩
  unfold realValue
  rw [value_one, value_ten]
  norm_num

theorem witness_Log10IsMonotone :
    isFinite 0x3DCCCCCD#32 = true ∧ isFinite 0x3F800000#32 = true ∧ 0 < value 0x3DCCCCCD#32 ∧
    value 0x3DCCCCCD#32 ≤ value 0x3F800000#32 := by
  rw [← value_zero, value_lt_iff, value_le_iff]; decide

theorem witness_UpdateMonotoneInGain :
    (releasing.channel .left).Inv ∧ GainNotAbove 0x7FC00000#32 0x00000000#32 ∧
    GainNotAbove 0x80000000#32 0x00000000#32 ∧ GainNotAbove 0x3F800000#32 0x7F800000#32 := by
  unfold GainNotAbove; decide

/-- RetargetingIsFirstOrder: gain 0 on a channel at 0 dB, at the smallest and the largest n < N. -/
theorem witness_RetargetingIsFirstOrder :
    settledZero.port = .pa ∧ (settledZero.channel .left).ready = true ∧
    (settledZero.channel .left).Inv ∧ value (gainToDb 0#32) < value (settledZero.channel .left).cur ∧
    value (gainToDb 0#32) ≠ value (settledZero.channel .left).tgt ∧
    (0#32).toNat < (settledZero.channel .left).len ∧
    (23999#32).toNat < (settledZero.channel .left).len := by
  rw [value_lt_iff, ne_eq, value_eq_iff]; decide

/-- ZeroOnlyAtFrameEnds: the three offsets of one frame. -/
theorem witness_ZeroOnlyAtFrameEnds :
    framed ({ State.reset with out := [1#8, 255#8, 0#8] } : State).out = true ∧
    0 < [1#8, 255#8, 0#8].length ∧ 2 < [1#8, 255#8, 0#8].length ∧ 2 % 3 = 2 := by decide

theorem witness_LevelRangeForEveryResolution : (1 ≤ 1 ∧ 1 ≤ 8) ∧ (1 ≤ 8 ∧ 8 ≤ 8) := by decide

/-- QuantizerIsMonotoneOnto: ordered levels, and levels at and beyond both ends. -/
theorem witness_QuantizerIsMonotoneOnto :
    isNaN 0xC1F00000#32 = false ∧ f32Lt 0xC1480000#32 0xC1F00000#32 = false ∧
    f32Lt 0xC1F00000#32 0xC1F00000#32 = false ∧ f32Lt 0xC1F00000#32 0xFF800000#32 = false ∧
    f32Lt 0x409FFFFC#32 0x409FFFFC#32 = false ∧ f32Lt 0x7F800000#32 0x409FFFFC#32 = false ∧
    1 ≤ 1 ∧ 255 ≤ 255 := by decide

set_option maxRecDepth 4000 in
/-- QuantizerThresholdForm: the first and the last threshold, and a value below each. -/
theorem witness_QuantizerThresholdForm :
    thresholds.length = 254 ∧ thresholds[0]? = some 0xC1EEE5CB#32 ∧
    thresholds[253]? = some 0x409FFFFC#32 ∧ f32Lt 0xC1F00000#32 0xC1EEE5CB#32 = true ∧
    f32Lt 0x409FFFFB#32 0x409FFFFC#32 = true := by
  decide

/-- GetdispBlends: a NaN level, opposite infinities, an infinity beside a finite level and beside itself,
and finite levels with a finite sum and without. -/
theorem witness_GetdispBlends :
    isNaN 0xFFC00001#32 = true ∧ isInf 0x7F800000#32 = true ∧ isInf 0xFF800000#32 = true ∧
    isNegative 0x7F800000#32 ≠ isNegative 0xFF800000#32 ∧ isFinite 0x7F7FFFFF#32 = true ∧
    isNegative 0xFF800000#32 = isNegative 0xFF800000#32 ∧
    isFinite (f32Add 0x7F7FFFFF#32 0x7F7FFFFF#32) = false ∧
    isFinite (f32Add 0xC1F00000#32 0x40A00000#32) = true := by decide

/-- ArithmeticIsCorrectlyRounded: finite operands, the divisor not zero. -/
theorem witness_ArithmeticIsCorrectlyRounded :
    isFinite 0x3F800000#32 = true ∧ isFinite 0x00000001#32 = true ∧ value 0x3F800000#32 ≠ 0 := by
  rw [value_one]; exact ⟨by decide, by decide, one_ne_zero⟩

theorem witness_ChannelsAreIndependent :
    Chan.right ≠ Chan.left ∧
    Instr.getcur .left ∈ [Instr.init .left 0#32 0#32, .advance .left 0#32, .update .left 0#32,
      .getcur .left] := by decide

theorem witness_FrameDependsOnLevelsAlone :
    ({ State.reset with port := .pe } : State).port = .pe ∧
    ({ State.reset with port := .pe } : State).enc = ({ releasing with port := .pe } : State).enc := by
  decide

/-- StepKeepsInvariant: a state of the invariant with a ramp in progress, and a step from it. -/
theorem witness_StepKeepsInvariant :
    (pending releasing .pa 0x00000000000001E002#72).Inv ∧
    ∃ t, step (pending releasing .pa 0x00000000000001E002#72) = .next t := by
  refine ⟨by decide, ?_⟩
  rw [step_command rfl, execute_ok (i := .advance .left 480#32) (by decide)]
  exact exec_next _ _

/-- AssemblerForms: operand texts of each kind, and a line that is read. -/
theorem witness_AssemblerForms :
    readChan ['R'] = some .right ∧ readCount ['4', '8', '0'] = some 480#32 ∧
    readCount ['0', 'x', 'F', 'F', 'F', 'F', 'F', 'F', 'F', 'F'] = some 0xFFFFFFFF#32 ∧
    readValue ['0', '.', '1'] = some 0x3DCCCCCD#32 ∧ readValue ['-', 'i', 'n', 'f'] = some 0xFF800000#32 ∧
    readLine "PE: GETCUR L" = some [{ port := .pe, instr := .getcur .left }] := by decide

/-- LiteralForms: the digits of `-12.5` and of `1e-5`. -/
theorem witness_LiteralForms :
    ([1, 2] : List Nat) ≠ [] ∧ (∀ d ∈ [1, 2] ++ [5], d < 10) ∧
    (∀ e ∈ (some (true, [5]) : Option (Bool × List Nat)), e.2 ≠ [] ∧ ∀ d ∈ e.2, d < 10) ∧
    decimalText true [1, 2] [5] none = "-12.5".toList ∧
    decimalText false [1] [] (some (true, [5])) = "1e-5".toList ∧
    patternDigits 0x3EA1E89B#32 = "3ea1e89b".toList := by
  refine ⟨by decide, by decide, ?_, by decide, by decide, by decide⟩
  intro e he
  cases he
  decide

end Sys2Proof.Tests
end

