-- ==== Sys2Proof/Proofs/Rounding.lean ====
section
/-! PROOFS. Correct rounding of the four binary32 operations (00_scope.md R12). One lemma, `roundNearest_spec`, says that `roundNearest` is IEEE's rounding of a signed quotient of units; each operation is then its exact result written as such a quotient. -/

open Sys2Proof Sys2Proof.Machine Sys2Proof.Certificates

namespace Sys2Proof.Proofs

/-! ### The nearest pattern: ties and overflow -/

/-- The strict companion of `nearest_of_bounds`: off the midpoint, every other candidate is farther. -/
theorem nearer_of_bounds {n a b c : Nat} (ha : a ≤ n) (hb : n < b) :
    (2 * n < a + b → c < a ∨ b ≤ c → |(n : Int) - (a : Int)| < |(n : Int) - (c : Int)|) ∧
      (a + b < 2 * n → c ≤ a ∨ b < c → |(n : Int) - (b : Int)| < |(n : Int) - (c : Int)|) := by
  simp only [abs_eq_max_neg]; omega

/-- Where another magnitude is as near to n / d as the nearest rounding, n / d is a midpoint and the
rounding took the even pattern. -/
theorem roundPattern_nearest_even_of_tie {n d p : Nat} (hd : 0 < d)
    (hne : p ≠ roundPattern divNearest n d)
    (htie : |(n : Int) - (patternUnits (roundPattern divNearest n d) * d : Nat)| =
      |(n : Int) - (patternUnits p * d : Nat)|) :
    roundPattern divNearest n d % 2 = 0 := by
  obtain ⟨hdown, hup⟩ := nearer_of_bounds (c := patternUnits p * d)
    (roundPattern_floor_le n d hd) (lt_roundPattern_floor_succ n d hd)
  simp only [Nat.mul_lt_mul_right hd, Nat.mul_le_mul_right_iff hd, patternUnits_lt_iff,
    patternUnits_le_iff, ← Nat.add_mul] at hdown hup
  have heq := roundPattern_nearest_eq n d hd
  dsimp only at heq
  split_ifs at heq with hbelow habove
  · rw [heq] at hne htie
    exact absurd htie (hdown hbelow (by omega)).ne
  · rw [heq] at hne htie
    exact absurd htie (hup habove (by omega)).ne
  · omega

/-- A quotient rounds to an odd pattern or below exactly when it lies below the midpoint that follows
the pattern. -/
theorem roundPattern_nearest_le_odd_iff {n d p : Nat} (hd : 0 < d) (hodd : p % 2 = 1) :
    roundPattern divNearest n d ≤ p ↔ 2 * n < (patternUnits p + patternUnits (p + 1)) * d := by
  have hlo := roundPattern_floor_le n d hd
  have hhi := lt_roundPattern_floor_succ n d hd
  have heq := roundPattern_nearest_eq n d hd
  dsimp only at heq
  rcases Nat.lt_trichotomy (roundPattern (· / ·) n d) p with hlt | rfl | hgt
  · have hp := Nat.mul_le_mul_right d (patternUnits_le_iff.2 (Nat.add_one_le_iff.2 hlt))
    have hp' := Nat.mul_le_mul_right d (patternUnits_lt_succ p).le
    have hle := roundPattern_nearest_le_succ n d hd
    rw [Nat.add_mul]
    constructor <;> omega
  · split_ifs at heq <;> omega
  · have hp := Nat.mul_le_mul_right d (patternUnits_le_iff.2 (Nat.add_one_le_iff.2 hgt))
    have hp' := Nat.mul_le_mul_right d (patternUnits_lt_succ p).le
    have hle := roundPattern_floor_le_nearest n d hd
    rw [Nat.add_mul]
    constructor <;> omega

theorem patternUnits_fltMax : patternUnits 0x7F7FFFFF = (2 ^ 24 - 1) * 2 ^ 253 := by decide

theorem patternUnits_inf : patternUnits 0x7F800000 = 2 ^ 24 * 2 ^ 253 := by decide

/-- A quotient rounds to a finite pattern exactly below FLT_MAX plus half a unit in the last place. -/
theorem roundPattern_nearest_finite_iff {n d : Nat} (hd : 0 < d) :
    roundPattern divNearest n d ≤ 0x7F7FFFFF ↔ (n / d : ℚ) / 2 ^ 149 < 2 ^ 128 - 2 ^ 103 := by
  have hd' : (0 : ℚ) < d := by exact_mod_cast hd
  rw [roundPattern_nearest_le_odd_iff hd (by decide), patternUnits_fltMax, patternUnits_inf,
    div_lt_iff₀ (by positivity), div_lt_iff₀ hd', ← Nat.cast_lt (α := ℚ)]
  push_cast
  constructor <;> intro h <;> linarith

/-! ### The nearest units among the signed magnitudes -/

/-- The distance of a magnitude from a quotient, cleared of the denominator. -/
theorem units_distance (n p : Nat) {d : Nat} (hd : 0 < d) :
    |(patternUnits p : ℚ) - n / d| = ((|(n : Int) - (patternUnits p * d : Nat)| : Int) : ℚ) / d := by
  have hd' : (0 : ℚ) < d := by exact_mod_cast hd
  have hclear : ((patternUnits p : ℚ) - n / d) * d = patternUnits p * d - n := by
    rw [sub_mul, div_mul_cancel₀ _ hd'.ne']
  rw [eq_div_iff hd'.ne']
  calc |(patternUnits p : ℚ) - n / d| * d
      = |(patternUnits p : ℚ) * d - n| := by rw [← hclear, abs_mul, abs_of_pos hd']
    _ = _ := by rw [abs_sub_comm]; push_cast; rfl

/-- Among the magnitudes, the rounded one is nearest to n / d, and even where another is as near. -/
theorem nearest_magnitude (n p : Nat) {d : Nat} (hd : 0 < d) :
    |(patternUnits (roundPattern divNearest n d) : ℚ) - n / d| ≤ |(patternUnits p : ℚ) - n / d| ∧
      (|(patternUnits (roundPattern divNearest n d) : ℚ) - n / d| = |(patternUnits p : ℚ) - n / d| →
        p ≠ roundPattern divNearest n d → roundPattern divNearest n d % 2 = 0) := by
  have hd' : (0 : ℚ) < d := by exact_mod_cast hd
  rw [units_distance n _ hd, units_distance n p hd, div_le_div_iff_of_pos_right hd',
    div_left_inj' hd'.ne', Int.cast_le, Int.cast_inj]
  exact ⟨roundPattern_nearest_closest n d hd p,
    fun htie hne => roundPattern_nearest_even_of_tie hd hne htie⟩

/-- The same among the magnitudes with either sign: one of the other sign is no nearer than 0. -/
theorem nearest_signed_magnitude (n p : Nat) {d : Nat} (hd : 0 < d) {k : ℚ}
    (hk : k = patternUnits p ∨ k = -patternUnits p) :
    |(patternUnits (roundPattern divNearest n d) : ℚ) - n / d| ≤ |k - n / d| ∧
      (|(patternUnits (roundPattern divNearest n d) : ℚ) - n / d| = |k - n / d| →
        k ≠ patternUnits (roundPattern divNearest n d) → roundPattern divNearest n d % 2 = 0) := by
  rcases hk with rfl | rfl
  · obtain ⟨hle, htie⟩ := nearest_magnitude n p hd
    exact ⟨hle, fun h hne => htie h fun hp => hne (by rw [hp])⟩
  · obtain ⟨hle, htie⟩ := nearest_magnitude n 0 hd
    have hx : (0 : ℚ) ≤ n / d := by positivity
    have hp : (0 : ℚ) ≤ patternUnits p := Nat.cast_nonneg _
    have hfar : |-(patternUnits p : ℚ) - n / d| = patternUnits p + n / d := by
      rw [← abs_neg, abs_of_nonneg] <;> linarith
    have hzero : |((patternUnits 0 : Nat) : ℚ) - n / d| = n / d := by
      rw [patternUnits_zero, Nat.cast_zero, zero_sub, abs_neg, abs_of_nonneg hx]
    rw [hzero] at hle htie
    rw [hfar]
    refine ⟨by linarith, fun h hne => ?_⟩
    have hp0 : (patternUnits p : ℚ) = 0 := by linarith
    refine htie (by linarith) fun h0 => hne ?_
    rw [hp0, ← h0, patternUnits_zero, Nat.cast_zero, neg_zero]

/-! ### Signs -/

/-- The sign of a datum as a factor. -/
def signFactor (neg : Bool) : ℚ := if neg then -1 else 1

theorem signFactor_mul_self (neg : Bool) : signFactor neg * signFactor neg = 1 := by
  cases neg <;> norm_num [signFactor]

@[simp] theorem abs_signFactor (neg : Bool) : |signFactor neg| = 1 := by
  cases neg <;> norm_num [signFactor]

/-- The sign of a product is the exclusive or of the signs (log 11). -/
theorem signFactor_bne (s t : Bool) : signFactor (s != t) = signFactor s * signFactor t := by
  cases s <;> cases t <;> norm_num [signFactor]

/-- The sign of a quotient is that of the product, since a sign is its own inverse. -/
theorem signFactor_bne_eq_div (s t : Bool) : signFactor (s != t) = signFactor s / signFactor t := by
  rw [signFactor_bne, div_eq_mul_inv, inv_eq_of_mul_eq_one_right (signFactor_mul_self t)]

/-- val(x) as sign and magnitude. -/
theorem value_eq_signFactor (x : F32) :
    value x = signFactor (isNegative x) * (magnitude x / 2 ^ 149) := by
  unfold value scaled signFactor
  split <;> push_cast <;> ring

/-- val(x) as a sign chosen freely and units of that sign, whose magnitude is one of a pattern. -/
theorem value_eq_signed_units (neg : Bool) (x : F32) :
    ∃ k : ℚ, value x = signFactor neg * (k / 2 ^ 149) ∧
      (k = patternUnits (x.toNat % 2 ^ 31) ∨ k = -patternUnits (x.toNat % 2 ^ 31)) := by
  refine ⟨signFactor neg * scaled x, ?_, ?_⟩
  · rw [value, ← mul_div_assoc, ← mul_assoc, signFactor_mul_self, one_mul]
  · rcases scaled_cases x with h | h <;> rw [h] <;> cases neg <;> simp [signFactor]

theorem value_signed (neg : Bool) {p : Nat} (hp : p < 2 ^ 31) :
    value (signed neg p) = signFactor neg * (patternUnits p / 2 ^ 149) := by
  rw [value_eq_signFactor, isNegative_signed neg p hp, magnitude_signed neg p hp]

theorem signed_getLsbD_zero (neg : Bool) {p : Nat} (heven : p % 2 = 0) :
    (signed neg p).getLsbD 0 = false := by
  cases neg <;> simp [signed, BitVec.getLsbD, Nat.testBit_zero] <;> omega

/-! ### `roundNearest` and `roundSum` -/

/-- Distances between data of one sign, in units. -/
theorem abs_signFactor_mul_sub (neg : Bool) (k x : ℚ) :
    |signFactor neg * (k / 2 ^ 149) - signFactor neg * (x / 2 ^ 149)| = |k - x| / 2 ^ 149 := by
  rw [← mul_sub, ← sub_div, abs_mul, abs_signFactor, one_mul, abs_div,
    abs_of_pos (by positivity : (0 : ℚ) < 2 ^ 149)]

/-- `roundNearest` is the rounding to nearest, ties to even, of n / d units with a sign (00_scope.md
R12). -/
theorem roundNearest_spec (neg : Bool) (n : Nat) {d : Nat} (hd : 0 < d) :
    IsRoundedNearest (signFactor neg * ((n / d : ℚ) / 2 ^ 149)) (roundNearest neg n d) := by
  have hx : (0 : ℚ) ≤ (n / d : ℚ) / 2 ^ 149 := by positivity
  have hfin := roundPattern_nearest_finite_iff (n := n) hd
  unfold IsRoundedNearest roundNearest
  rw [abs_mul, abs_signFactor, one_mul, abs_of_nonneg hx]
  split
  case isTrue hlt =>
    have hP := hfin.2 hlt
    rw [Nat.min_eq_left (by omega)]
    refine ⟨isFinite_signed _ _ (by omega), fun z _ => ?_⟩
    obtain ⟨k, hz, hk⟩ := value_eq_signed_units neg z
    obtain ⟨hle, htie⟩ := nearest_signed_magnitude n _ hd hk
    rw [value_signed neg (by omega), hz, abs_signFactor_mul_sub, abs_signFactor_mul_sub,
      div_le_div_iff_of_pos_right (by positivity), div_left_inj' (by positivity)]
    exact ⟨hle, fun h hne => signed_getLsbD_zero neg (htie h fun hkP => hne (by rw [hkP]))⟩
  case isFalse hge =>
    have hP := mt hfin.1 hge
    have hpos : 0 < (n / d : ℚ) / 2 ^ 149 :=
      lt_of_lt_of_le (by norm_num) (not_lt.1 hge)
    rw [Nat.min_eq_right (by omega)]
    cases neg
    · rw [if_pos (by simpa only [signFactor, Bool.false_eq_true, if_false, one_mul] using hpos)]
      rfl
    · rw [if_neg (by simp only [signFactor, if_true]; linarith)]
      rfl

/-- An exact sum of r units is rounded correctly whatever sign a zero takes. -/
theorem roundSum_spec (bothNegative : Bool) (r : Int) :
    IsRoundedNearest (r / 2 ^ 149) (roundSum bothNegative r) := by
  unfold roundSum
  split
  case isTrue h0 =>
    simpa [h0, roundNearest, roundPattern, divNearest] using
      roundNearest_spec bothNegative 0 one_pos
  case isFalse =>
    have h := roundNearest_spec (decide (r < 0)) r.natAbs one_pos
    have hr : signFactor (decide (r < 0)) * r.natAbs = r := by
      rw [Nat.cast_natAbs, Int.cast_abs]
      rcases lt_or_ge r 0 with hneg | hpos
      · rw [decide_eq_true hneg, abs_of_neg (by exact_mod_cast hneg)]
        simp [signFactor]
      · rw [decide_eq_false (not_lt.2 hpos), abs_of_nonneg (by exact_mod_cast hpos)]
        simp [signFactor]
    rwa [Nat.cast_one, div_one, ← mul_div_assoc, hr] at h

/-! ### The operations on finite operands -/

section Finite

variable {a b : F32} (ha : isFinite a = true) (hb : isFinite b = true)
include ha hb

theorem f32Add_finite :
    f32Add a b = roundSum (isNegative a && isNegative b) (scaled a + scaled b) := by
  simp [f32Add, isNaN_of_isFinite, isInf_of_isFinite, ha, hb]

theorem f32Mul_finite :
    f32Mul a b =
      roundNearest (isNegative a != isNegative b) (magnitude a * magnitude b) (2 ^ 149) := by
  simp [f32Mul, isNaN_of_isFinite, isInf_of_isFinite, ha, hb]

theorem f32Div_finite (h0 : magnitude b ≠ 0) :
    f32Div a b =
      roundNearest (isNegative a != isNegative b) (magnitude a * 2 ^ 149) (magnitude b) := by
  simp [f32Div, isNaN_of_isFinite, isInf_of_isFinite, ha, hb, h0]

theorem f32Add_isRoundedNearest : IsRoundedNearest (value a + value b) (f32Add a b) := by
  have hsum : value a + value b = ((scaled a + scaled b : Int) : ℚ) / 2 ^ 149 := by
    rw [value, value, ← add_div, Int.cast_add]
  rw [f32Add_finite ha hb, hsum]
  exact roundSum_spec _ _

theorem f32Sub_isRoundedNearest : IsRoundedNearest (value a - value b) (f32Sub a b) := by
  have hneg : value a - value b = value a + value (f32Neg b) := by
    simp only [value, scaled_f32Neg, Int.cast_neg]; ring
  rw [hneg]
  exact f32Add_isRoundedNearest ha ((isFinite_f32Neg b).trans hb)

theorem f32Mul_isRoundedNearest : IsRoundedNearest (value a * value b) (f32Mul a b) := by
  have hprod : value a * value b = signFactor (isNegative a != isNegative b) *
      (((magnitude a * magnitude b : Nat) / (2 ^ 149 : Nat) : ℚ) / 2 ^ 149) := by
    rw [value_eq_signFactor a, value_eq_signFactor b, signFactor_bne]
    push_cast; ring
  rw [f32Mul_finite ha hb, hprod]
  exact roundNearest_spec _ _ (by positivity)

theorem f32Div_isRoundedNearest (h0 : value b ≠ 0) :
    IsRoundedNearest (value a / value b) (f32Div a b) := by
  have hmag : magnitude b ≠ 0 := fun h => h0 (by rw [value_eq_signFactor, h]; simp)
  have hquot : value a / value b = signFactor (isNegative a != isNegative b) *
      (((magnitude a * 2 ^ 149 : Nat) / magnitude b : ℚ) / 2 ^ 149) := by
    rw [value_eq_signFactor a, value_eq_signFactor b, signFactor_bne_eq_div, mul_div_mul_comm,
      Nat.cast_mul, Nat.cast_pow, Nat.cast_ofNat, div_div_div_cancel_right₀ (by positivity),
      div_right_comm, mul_div_cancel_right₀ _ (by positivity)]
  rw [f32Div_finite ha hb hmag, hquot]
  exact roundNearest_spec _ _ (Nat.pos_of_ne_zero hmag)

end Finite

/-- Settles O50: each operation's exact result is a signed quotient of units, which `roundNearest`
rounds correctly (`roundNearest_spec`). -/
theorem arithmeticIsCorrectlyRounded : Obligations.ArithmeticIsCorrectlyRounded := by
  intro a b ha hb
  exact ⟨f32Add_isRoundedNearest ha hb, f32Sub_isRoundedNearest ha hb,
    f32Mul_isRoundedNearest ha hb, f32Div_isRoundedNearest ha hb⟩

end Sys2Proof.Proofs
end

section
/-! PROOFS. Where the results of the data path lie: every level byte is at least 1 and every reading in decibels is finite and at or above the floor (41_quantizer_framer.md R86; 40_smoother.md R65). A correctly rounded result lies between any two finite binary32 values that its exact value lies between. -/

open Sys2Proof Sys2Proof.Machine Sys2Proof.Certificates

namespace Sys2Proof.Proofs

/-! ### Rounding stays between binary32 values -/

theorem value_le_iff {x y : F32} : value x ≤ value y ↔ scaled x ≤ scaled y := by
  unfold value
  rw [div_le_div_iff_of_pos_right (by positivity), Int.cast_le]

/-- A whole number of dB or of levels, in units of 2^-149. -/
theorem value_eq_of_scaled {x : F32} {n : Int} (h : scaled x = n * 2 ^ 149) : value x = n := by
  rw [value, h, Int.cast_mul, Int.cast_pow, Int.cast_ofNat, mul_div_cancel_right₀ _ (by positivity)]

/-- Finite values stay below the bound from which a result overflows (00_scope.md R12). -/
theorem abs_value_lt_overflow {x : F32} (hx : isFinite x = true) :
    |value x| < 2 ^ 128 - 2 ^ 103 := by
  obtain ⟨hlo, hhi⟩ := scaled_le_fltMax hx
  rw [patternUnits_fltMax] at hlo hhi
  have hlo' : -(((2 ^ 24 - 1) * 2 ^ 253 : Nat) : ℚ) ≤ scaled x := by exact_mod_cast hlo
  have hhi' : (scaled x : ℚ) ≤ ((2 ^ 24 - 1) * 2 ^ 253 : Nat) := by exact_mod_cast hhi
  rw [value, abs_div, abs_of_pos (by positivity : (0 : ℚ) < 2 ^ 149), div_lt_iff₀ (by positivity)]
  refine lt_of_le_of_lt (abs_le.2 ⟨hlo', hhi'⟩) ?_
  norm_num

/-- Rounding to nearest is monotone against the values that need no rounding. -/
theorem isRoundedNearest_between {r : ℚ} {y lo hi : F32} (h : IsRoundedNearest r y)
    (hlo : isFinite lo = true) (hhi : isFinite hi = true) (hr : value lo ≤ r) (hr' : r ≤ value hi) :
    isFinite y = true ∧ value lo ≤ value y ∧ value y ≤ value hi := by
  have hlt : |r| < 2 ^ 128 - 2 ^ 103 :=
    lt_of_le_of_lt (abs_le_max_abs_abs hr hr')
      (max_lt (abs_value_lt_overflow hlo) (abs_value_lt_overflow hhi))
  rw [IsRoundedNearest, if_pos hlt] at h
  obtain ⟨hfin, hnear⟩ := h
  refine ⟨hfin, ?_, ?_⟩
  · by_contra hbelow
    have hdist := (hnear lo hlo).1
    rw [abs_of_nonpos (by linarith), abs_of_nonpos (by linarith)] at hdist
    linarith
  · by_contra habove
    have hdist := (hnear hi hhi).1
    rw [abs_of_nonneg (by linarith), abs_of_nonneg (by linarith)] at hdist
    linarith

/-- The order of the patterns of bits 30:0 is that of the magnitudes. -/
theorem pattern_le_iff {x : F32} {p : Nat} :
    x.toNat % 2 ^ 31 ≤ p ↔ -(patternUnits p : Int) ≤ scaled x ∧ scaled x ≤ patternUnits p := by
  rw [← patternUnits_le_iff]
  rcases scaled_cases x with h | h <;> rw [h] <;> omega

/-- A datum between two finite values is finite: infinities and NaN patterns have greater magnitudes. -/
theorem isFinite_of_scaled_between {x lo hi : F32} (hlo : isFinite lo = true)
    (hhi : isFinite hi = true) (h : scaled lo ≤ scaled x) (h' : scaled x ≤ scaled hi) :
    isFinite x = true := by
  have hpattern : x.toNat % 2 ^ 31 ≤ 0x7F7FFFFF :=
    pattern_le_iff.2 ⟨(scaled_le_fltMax hlo).1.trans h, h'.trans (scaled_le_fltMax hhi).2⟩
  rw [isFinite_iff]
  omega

/-! ### The quantiser (41_quantizer_framer.md R85, R86) -/

theorem isFinite_posZero : isFinite Config.posZero = true := by decide

theorem isFinite_one : isFinite Config.one = true := by decide

theorem isFinite_clampLo : isFinite Config.clampLo = true := by decide

theorem isFinite_clampHi : isFinite Config.clampHi = true := by decide

theorem value_posZero : value Config.posZero = 0 := by
  simpa using value_eq_of_scaled (x := Config.posZero) (n := 0) (by decide)

theorem value_one : value Config.one = 1 := by
  simpa using value_eq_of_scaled (x := Config.one) (n := 1) (by decide)

theorem value_clampLo : value Config.clampLo = -30 := by
  simpa using value_eq_of_scaled (x := Config.clampLo) (n := -30) (by decide)

theorem value_clampHi : value Config.clampHi = 5 := by
  simpa using value_eq_of_scaled (x := Config.clampHi) (n := 5) (by decide)

/-- The clamp leaves a finite level between its two bounds, NaN and the infinities included. -/
theorem clampLevel_range (x : F32) :
    isFinite (clampLevel x) = true ∧ scaled Config.clampLo ≤ scaled (clampLevel x) ∧
      scaled (clampLevel x) ≤ scaled Config.clampHi := by
  have hle : scaled Config.clampLo ≤ scaled Config.clampHi := by decide
  unfold clampLevel
  split_ifs with hnan hbelow habove
  · exact ⟨isFinite_clampLo, le_rfl, hle⟩
  · exact ⟨isFinite_clampLo, le_rfl, hle⟩
  · exact ⟨isFinite_clampHi, hle, le_rfl⟩
  · rw [Bool.not_eq_true] at hnan
    rw [f32Lt_iff hnan (isNaN_of_isFinite isFinite_clampLo), not_lt] at hbelow
    rw [f32Lt_iff (isNaN_of_isFinite isFinite_clampHi) hnan, not_lt] at habove
    exact ⟨isFinite_of_scaled_between isFinite_clampLo isFinite_clampHi hbelow habove, hbelow,
      habove⟩

/-- The constant divisor of step 2 is exactly CLAMP_HI - CLAMP_LO = 35. -/
theorem clampWidth_eq : f32Sub Config.clampHi Config.clampLo = 0x420C0000#32 := by decide

theorem value_clampWidth : value 0x420C0000#32 = 35 := by
  simpa using value_eq_of_scaled (x := 0x420C0000#32) (n := 35) (by decide)

theorem isFinite_clampWidth : isFinite (0x420C0000#32 : F32) = true := by decide

/-- The place of a clamped level between the two clamps is a fraction from 0 to 1. -/
theorem levelFraction_range {x : F32} (hx : isFinite x = true)
    (hlo : scaled Config.clampLo ≤ scaled x) (hhi : scaled x ≤ scaled Config.clampHi) :
    isFinite (f32Div (f32Sub x Config.clampLo) 0x420C0000#32) = true ∧
      0 ≤ value (f32Div (f32Sub x Config.clampLo) 0x420C0000#32) ∧
      value (f32Div (f32Sub x Config.clampLo) 0x420C0000#32) ≤ 1 := by
  rw [← value_le_iff, value_clampLo] at hlo
  rw [← value_le_iff, value_clampHi] at hhi
  obtain ⟨hfin, hmin, hmax⟩ := isRoundedNearest_between
    (f32Sub_isRoundedNearest hx isFinite_clampLo) isFinite_posZero isFinite_clampWidth
    (by rw [value_posZero, value_clampLo]; linarith)
    (by rw [value_clampWidth, value_clampLo]; linarith)
  rw [value_posZero] at hmin
  rw [value_clampWidth] at hmax
  have hquot := f32Div_isRoundedNearest hfin isFinite_clampWidth (by rw [value_clampWidth]; norm_num)
  rw [value_clampWidth] at hquot
  have h := isRoundedNearest_between hquot isFinite_posZero isFinite_one
    (by rw [value_posZero]; positivity) (by rw [value_one, div_le_one (by norm_num)]; exact hmax)
  rwa [value_posZero, value_one] at h

/-- Step 2 of Q on a clamped level: 1 plus a fraction of the span. -/
theorem affineLevel_range {b : Nat} {x top : F32} (hx : isFinite x = true)
    (hlo : scaled Config.clampLo ≤ scaled x) (hhi : scaled x ≤ scaled Config.clampHi)
    (hspan : isFinite (levelSpan b) = true) (hspan0 : 0 ≤ value (levelSpan b))
    (htop : isFinite top = true) (htopv : value top = 1 + value (levelSpan b)) :
    1 ≤ value (affineLevel b x) ∧ value (affineLevel b x) ≤ value top := by
  obtain ⟨hfrac, hfrac0, hfrac1⟩ := levelFraction_range hx hlo hhi
  obtain ⟨hpart, hpart0, hpart1⟩ := isRoundedNearest_between (f32Mul_isRoundedNearest hfrac hspan)
    isFinite_posZero hspan (by rw [value_posZero]; positivity) (mul_le_of_le_one_left hspan0 hfrac1)
  rw [value_posZero] at hpart0
  obtain ⟨-, hmin, hmax⟩ := isRoundedNearest_between (f32Add_isRoundedNearest isFinite_one hpart)
    isFinite_one htop (by linarith) (by rw [htopv, value_one]; linarith)
  rw [affineLevel, clampWidth_eq]
  exact ⟨value_one ▸ hmin, hmax⟩

/-- The whole part of a level from 1 on. -/
theorem truncU_range {y : F32} {m : Nat} (hlo : 1 ≤ value y) (hhi : value y ≤ m) :
    1 ≤ truncU y ∧ truncU y ≤ m := by
  rw [value, le_div_iff₀ (by positivity), one_mul] at hlo
  rw [value, div_le_iff₀ (by positivity)] at hhi
  have hlo' : (2 ^ 149 : Int) ≤ scaled y := by exact_mod_cast hlo
  have hhi' : scaled y ≤ m * 2 ^ 149 := by exact_mod_cast hhi
  have hmag : scaled y = magnitude y := by
    unfold scaled at hlo' ⊢
    split_ifs at hlo' ⊢
    · have := Int.natCast_nonneg (magnitude y); omega
    · rfl
  rw [hmag] at hlo' hhi'
  unfold truncU
  constructor
  · rw [Nat.le_div_iff_mul_le (by positivity), one_mul]; exact_mod_cast hlo'
  · exact Nat.div_le_of_le_mul (by rw [Nat.mul_comm]; exact_mod_cast hhi')

/-- The span and the top level of every resolution are exact (R86). -/
theorem levelConstants {b : Nat} (hb : 1 ≤ b) (hb' : b ≤ 8) :
    (isFinite (levelSpan b) = true ∧ value (levelSpan b) = 2 ^ b - 2) ∧
      isFinite (f32OfNat (2 ^ b - 1)) = true ∧ value (f32OfNat (2 ^ b - 1)) = 2 ^ b - 1 := by
  have htable : ∀ b ∈ Finset.Icc 1 8,
      (isFinite (levelSpan b) = true ∧ scaled (levelSpan b) = (2 ^ b - 2 : Int) * 2 ^ 149) ∧
        isFinite (f32OfNat (2 ^ b - 1)) = true ∧
        scaled (f32OfNat (2 ^ b - 1)) = (2 ^ b - 1 : Int) * 2 ^ 149 := by decide
  obtain ⟨⟨hspan, hspanv⟩, htop, htopv⟩ := htable b (Finset.mem_Icc.2 ⟨hb, hb'⟩)
  exact ⟨⟨hspan, by simpa using value_eq_of_scaled hspanv⟩, htop,
    by simpa using value_eq_of_scaled htopv⟩

/-- Q of a DAC of b bits is a level from 1 to 2^b - 1, for every pattern (R86). -/
theorem quantizeFor_range {b : Nat} (hb : 1 ≤ b) (hb' : b ≤ 8) (x : F32) :
    1 ≤ quantizeFor b x ∧ quantizeFor b x ≤ 2 ^ b - 1 := by
  obtain ⟨⟨hspan, hspanv⟩, htop, htopv⟩ := levelConstants hb hb'
  obtain ⟨hx, hlo, hhi⟩ := clampLevel_range x
  have hpow : (2 : ℚ) ≤ 2 ^ b := by simpa using pow_le_pow_right₀ (by norm_num : (1 : ℚ) ≤ 2) hb
  obtain ⟨hmin, hmax⟩ := affineLevel_range hx hlo hhi hspan (by linarith) htop (by linarith)
  refine truncU_range hmin (hmax.trans_eq ?_)
  rw [htopv, Nat.cast_sub Nat.one_le_two_pow]; simp

/-- No level byte is the terminator's 0 (R86; 30_encoding.md R58). -/
theorem quantize_ne_zero (x : F32) : quantize x ≠ 0#8 := by
  intro h0
  have hmod : quantizeFor Config.dacBits x % 256 = 0 := by
    simpa [quantize] using congrArg BitVec.toNat h0
  obtain ⟨hmin, hmax⟩ : 1 ≤ quantizeFor Config.dacBits x ∧ quantizeFor Config.dacBits x ≤ 255 :=
    quantizeFor_range (by decide) (by decide) x
  omega

/-! ### Decibels of a gain (40_smoother.md R65, R66) -/

/-- A rational power below a power of ten bounds the exponent. -/
theorem exponent_lt_of_pow_le {x : ℚ} {k d m : Nat} (hx0 : 0 ≤ x) (hx : x < 10 ^ d) (hm : m ≠ 0)
    (h : (10 : ℚ) ^ k ≤ x ^ m) : k < d * m := by
  have hlt : (10 : ℚ) ^ k < 10 ^ (d * m) :=
    calc (10 : ℚ) ^ k ≤ x ^ m := h
      _ < (10 ^ d) ^ m := pow_lt_pow_left₀ hx hx0 hm
      _ = 10 ^ (d * m) := (pow_mul _ _ _).symm
  exact (pow_lt_pow_iff_right₀ (by norm_num)).1 hlt

theorem logIndex_lt {g : F32} (hpos : 0 < magnitude g) (hfin : isFinite g = true) :
    logIndex g < 84 * 2 ^ logPlaces := by
  refine exponent_lt_of_pow_le (by positivity) ?_ (Nat.two_pow_pos _).ne' (logIndex_spec hpos hfin).1
  rw [div_lt_iff₀ (by positivity), mul_comm]
  exact_mod_cast (liftedGain_bounds hpos hfin).2

/-- The logarithm of the index of a gain has a magnitude of at most 45. -/
theorem log10OfIndex_pattern_le {k : Nat} (hk : k < 84 * 2 ^ logPlaces) :
    (log10OfIndex k).toNat % 2 ^ 31 ≤ 0x42340000 := by
  have hunits : patternUnits 0x42340000 = 45 * 2 ^ 149 := by decide
  have htop : scaled (0x42340000#32 : F32) = 45 * 2 ^ 149 := by decide
  have hk' : (k : Int) < 84 * 2 ^ 50 := by exact_mod_cast hk
  have hmin : -(45 * 2 ^ 149) ≤ (45 * 2 ^ logPlaces - (k : Int)) * 2 ^ 99 := by
    rw [logPlaces]; omega
  have hmax : (45 * 2 ^ logPlaces - (k : Int)) * 2 ^ 99 ≤ 45 * 2 ^ 149 := by
    rw [logPlaces]; omega
  obtain ⟨-, hge, hleast⟩ := rndUp_spec true (den := 1)
    (num := (45 * 2 ^ logPlaces - (k : Int)) * 2 ^ 99) one_pos
    (hmax.trans (by rw [patternUnits_fltMax]; decide))
  have hle := hleast 0x42340000#32 (by decide) (by rwa [htop, Nat.cast_one, mul_one])
  rw [htop] at hle
  rw [Nat.cast_one, mul_one] at hge
  rw [log10OfIndex, (f32Neg_toNat _).1, pattern_le_iff, hunits]
  exact ⟨hmin.trans hge, hle⟩

/-- The neighbours of a value lie at most one pattern farther from zero. -/
theorem nextUp_pattern_le (x : F32) : (nextUp x).toNat % 2 ^ 31 ≤ x.toNat % 2 ^ 31 + 1 := by
  unfold nextUp
  split_ifs with hzero hneg
  · simp
  · have hpattern : x.toNat % 2 ^ 31 ≠ 0 := fun h => hzero (by rw [magnitude_eq_patternUnits, h]; rfl)
    rw [isNegative_iff, decide_eq_true_eq] at hneg
    bv_omega
  · rw [isNegative_iff, decide_eq_true_eq] at hneg
    bv_omega

theorem nextDown_pattern_le (x : F32) : (nextDown x).toNat % 2 ^ 31 ≤ x.toNat % 2 ^ 31 + 1 := by
  have h := nextUp_pattern_le (f32Neg x)
  rwa [(f32Neg_toNat x).1, ← (f32Neg_toNat (nextUp (f32Neg x))).1] at h

theorem lowerNearest_pattern_le (k : Nat) :
    (lowerNearest k).toNat % 2 ^ 31 ≤ (log10OfIndex k).toNat % 2 ^ 31 + 1 := by
  rcases lowerNearest_eq k with h | h | h <;> rw [h]
  · exact Nat.le_succ _
  · exact nextDown_pattern_le _
  · exact nextUp_pattern_le _

/-- Whatever the free choice, LOG10 of a positive finite gain lies within two patterns of that of its
index, so between -64 and 64 (R66). -/
theorem log10_range {g : F32} (hpos : 0 < magnitude g) (hfin : isFinite g = true) :
    isFinite (log10 g) = true ∧ -64 ≤ value (log10 g) ∧ value (log10 g) ≤ 64 := by
  have hindex := log10OfIndex_pattern_le (logIndex_lt hpos hfin)
  have hlower := lowerNearest_pattern_le (logIndex g)
  have hupper := nextUp_pattern_le (lowerNearest (logIndex g))
  have hpattern : (log10 g).toNat % 2 ^ 31 ≤ 0x42800000 := by
    unfold log10
    rcases log10With_eq Config.log10Split g with ⟨-, h⟩ | ⟨-, h⟩ <;> rw [h]
    · rw [log10Below]; omega
    · rcases log10Choice_eq Config.log10Split g (logIndex g) with ⟨h, -⟩ | ⟨h, -⟩ <;> rw [h] <;> omega
  refine ⟨(isFinite_iff _).2 (by omega), ?_⟩
  have hunits : patternUnits 0x42800000 = 64 * 2 ^ 149 := by decide
  rw [pattern_le_iff, hunits] at hpattern
  rw [value, le_div_iff₀ (by positivity), div_le_iff₀ (by positivity)]
  exact_mod_cast hpattern

theorem value_twenty : value Config.twenty = 20 := by
  simpa using value_eq_of_scaled (x := Config.twenty) (n := 20) (by decide)

/-- DB of a positive finite gain before the floor is finite (R65). -/
theorem isFinite_twenty_mul_log10 {g : F32} (hpos : 0 < magnitude g) (hfin : isFinite g = true) :
    isFinite (f32Mul Config.twenty (log10 g)) = true := by
  have hlo : isFinite (0xC4A00000#32 : F32) = true := by decide
  have hhi : isFinite (0x44A00000#32 : F32) = true := by decide
  have hvlo : value 0xC4A00000#32 = -1280 := by
    simpa using value_eq_of_scaled (x := 0xC4A00000#32) (n := -1280) (by decide)
  have hvhi : value 0x44A00000#32 = 1280 := by
    simpa using value_eq_of_scaled (x := 0x44A00000#32) (n := 1280) (by decide)
  obtain ⟨hlog, hmin, hmax⟩ := log10_range hpos hfin
  exact (isRoundedNearest_between
    (f32Mul_isRoundedNearest (by decide : isFinite Config.twenty = true) hlog) hlo hhi
    (by rw [hvlo, value_twenty]; linarith) (by rw [hvhi, value_twenty]; linarith)).1

/-- A gain above 0 other than +inf is positive and finite. -/
theorem magnitude_pos_and_isFinite_of_pos {g : F32} (h : f32Lt Config.posZero g = true)
    (hinf : g ≠ Config.posInf) : 0 < magnitude g ∧ isFinite g = true := by
  simp only [f32Lt, Bool.and_eq_true, Bool.not_eq_true', decide_eq_true_eq,
    show scaled Config.posZero = 0 by decide] at h
  obtain ⟨⟨-, hnan⟩, hpos⟩ := h
  have hneg : isNegative g = false := by
    by_contra hneg
    rw [scaled, if_pos (by simpa using hneg)] at hpos
    omega
  rw [scaled, hneg] at hpos
  refine ⟨by simpa using hpos, ?_⟩
  have hpattern : g.toNat % 2 ^ 31 ≠ 0x7F800000 := fun hp =>
    hinf (by rw [← signed_self g, hneg, hp]; rfl)
  rw [Bool.eq_false_iff, ne_eq, isNaN_iff] at hnan
  rw [isFinite_iff]
  omega

theorem isFinite_floorDb : isFinite Config.floorDb = true := by decide

/-- `DB(g)` is finite and at or above the floor, for every pattern g (R65). -/
theorem gainToDb_range (g : F32) :
    isFinite (gainToDb g) = true ∧ scaled Config.floorDb ≤ scaled (gainToDb g) := by
  unfold gainToDb gainToDbWith
  dsimp only
  split_ifs with hpos hinf hbelow
  · exact ⟨by decide, by decide⟩
  · exact ⟨isFinite_floorDb, le_rfl⟩
  · obtain ⟨hmag, hfin⟩ := magnitude_pos_and_isFinite_of_pos hpos hinf
    have hr := isFinite_twenty_mul_log10 hmag hfin
    rw [f32Lt_iff (isNaN_of_isFinite hr) (isNaN_of_isFinite isFinite_floorDb), not_lt] at hbelow
    exact ⟨hr, hbelow⟩
  · exact ⟨isFinite_floorDb, le_rfl⟩

end Sys2Proof.Proofs
end

section
/-! PROOFS. What a step can do to the block's state, and what every step keeps (10_state.md R20, R21, R27, R30; 41_quantizer_framer.md R95). `step_cases` says it once: idle, reset, or one of the five effects of a command. -/

open Sys2Proof Sys2Proof.Machine Sys2Proof.Certificates

namespace Sys2Proof.Proofs

/-! ### The effects of a command -/

/-- What the three commands that name a channel write to it: INIT's registers, or the channel moved on,
or a reading registered; the last two only where it is initialised (40_smoother.md R67, R69, R71). -/
inductive ChannelWrite (c : Chan) (k : Channel) : Instr → Channel → Prop
  | init (fs x : F32) {n : Nat} (hn : n ≤ Config.nMax) :
      ChannelWrite c k (.init c fs x) (initChannel n)
  | advance (n : U32) (hready : k.ready = true) :
      ChannelWrite c k (.advance c n) (advanceChannel k n.toNat)
  | update (g : F32) (hready : k.ready = true) :
      ChannelWrite c k (.update c g) (registerReading k (gainToDb g))

/-- What executing a command word, decoded to `d`, makes of a state (60_exceptions.md R104). -/
inductive CommandEffect (s : State) (d : Except EncodingError Instr) : State → Prop
  | error (x : Cause) : CommandEffect s d (s.raiseError x)
  | answer (data : BitVec 32) : CommandEffect s d (s.respond 0#4 data)
  | channel {c : Chan} {i : Instr} {k : Channel} (hd : d = .ok i)
      (hk : ChannelWrite c (s.channel c) i k) :
      CommandEffect s d ((s.setChannel c k).respond 0#4 0#32)
  | levels (l r : F32) (hd : d = .ok .sample ∨ d = .ok (.setlevels l r)) :
      CommandEffect s d ((s.setLevels l r).respond 0#4 0#32)
  | frame (hd : d = .ok .encode) : CommandEffect s d
      (({ s with out := s.out ++ [quantize s.enc.lvlL, quantize s.enc.lvlR, 0#8] } : State).respond
        0#4 0#32)

theorem le_nMax_of_configuredLength {fs x : F32} {n : Nat} (h : configuredLength fs x = some n) :
    n ≤ Config.nMax := by
  unfold configuredLength at h
  split_ifs at h with hvalid
  cases h
  simp only [Bool.and_eq_true, decide_eq_true_eq] at hvalid
  exact hvalid.2

theorem exec_effect {i : Instr} {s t : State} (h : exec i s = .next t) :
    CommandEffect s (.ok i) t := by
  rcases exec_cases h with ⟨-, rfl⟩ | ⟨-, hacc⟩
  · exact .error _
  · cases i with
    | init c fs x =>
      rcases hacc with ⟨n, hn, rfl⟩ | ⟨-, rfl⟩
      · exact .channel rfl (.init fs x (le_nMax_of_configuredLength hn))
      · exact .error _
    | advance c n =>
      rcases hacc with ⟨hready, rfl⟩ | ⟨-, rfl⟩
      · exact .channel rfl (.advance n hready)
      · exact .error _
    | update c g =>
      rcases hacc with ⟨hready, rfl⟩ | ⟨-, rfl⟩
      · exact .channel rfl (.update g hready)
      · exact .error _
    | nop | getcur | getdisp | getstat => cases hacc; exact .answer _
    | sample => cases hacc; exact .levels _ _ (.inl rfl)
    | setlevels l r => cases hacc; exact .levels l r (.inr rfl)
    | encode => cases hacc; exact .frame rfl

theorem execute_effect {w : CommandWord} {s t : State} (h : execute w s = .next t) :
    CommandEffect s (decode w) t := by
  cases hw : decode w with
  | ok i => exact exec_effect (execute_ok hw s ▸ h)
  | error e => rw [execute_error hw] at h; cases h; exact .error _

/-- Everything a step can do: hold the state, take the reset input, or take one command. -/
theorem step_cases {s t : State} (h : step s = .next t) :
    (s.inputs = [] ∧ t = s) ∨ (∃ rest, s.inputs = .reset :: rest ∧ t = resetInput rest) ∨
      ∃ p w rest, s.inputs = .command p w :: rest ∧
        CommandEffect (s.acceptCommand p rest) (decode w) t := by
  unfold step at h
  split at h
  case h_1 hin => cases h; exact .inl ⟨hin, rfl⟩
  case h_2 rest hin => cases h; exact .inr (.inl ⟨rest, hin, rfl⟩)
  case h_3 p w rest hin => exact .inr (.inr ⟨p, w, rest, hin, execute_effect h⟩)

/-! ### STATUS: what an error records (10_state.md R21; 60_exceptions.md R104) -/

theorem causeCode_ne_zero (x : Cause) : causeCode x ≠ 0#4 := by cases x <;> decide

@[simp] theorem errorBit_recordFirst (x y : Cause) (st : Status) :
    errorBit y (recordFirst x st) = errorBit y st := by
  cases y <;> simp [errorBit]

@[simp] theorem errorBit_setErrorBit_self (x : Cause) (st : Status) :
    errorBit x (setErrorBit x st) = true := by cases x <;> rfl

theorem errorBit_setErrorBit_of_errorBit (x : Cause) {y : Cause} {st : Status}
    (h : errorBit y st = true) : errorBit y (setErrorBit x st) = true := by
  cases x <;> cases y <;> simp_all [errorBit, setErrorBit]

/-- FIRST names a cause whose bit is set, unless no error has occurred (R21). -/
theorem consistent_iff {st : Status} :
    st.Consistent ↔ st.Clean ∨ ∃ x, st.first = causeCode x ∧ errorBit x st = true := by
  refine or_congr_right ⟨?_, ?_⟩
  · rintro (h | h | h | h)
    exacts [⟨.illegalCommand, h⟩, ⟨.portViolation, h⟩, ⟨.notInitialised, h⟩, ⟨.configError, h⟩]
  · rintro ⟨x, h⟩
    cases x
    exacts [.inl h, .inr (.inl h), .inr (.inr (.inl h)), .inr (.inr (.inr h))]

/-- The first error names itself; a later one leaves the first and its bit. -/
theorem consistent_raise (x : Cause) {st : Status} (h : st.Consistent) :
    (recordFirst x (setErrorBit x st)).Consistent := by
  rw [consistent_iff] at h ⊢
  right
  rcases h with ⟨-, -, -, -, hfirst⟩ | ⟨y, hfirst, hbit⟩
  · refine ⟨x, ?_, by simp⟩
    rw [recordFirst_first, setErrorBit_first, if_pos hfirst]
  · refine ⟨y, ?_, by simpa using errorBit_setErrorBit_of_errorBit x hbit⟩
    rw [recordFirst_first, setErrorBit_first, if_neg (hfirst ▸ causeCode_ne_zero y), hfirst]

/-! ### The invariant of a channel (10_state.md R27) -/

/-- A channel with no ramp in progress meets R27 when it stands on a finite target at or above the
floor. -/
theorem channel_inv_of_cnt_zero {k : Channel} (hcnt : k.cnt = 0) (hcur : k.cur = k.tgt)
    (htgt : isFinite k.tgt = true) (horg : isFinite k.org = true)
    (hfloor : scaled Config.floorDb ≤ scaled k.tgt) (hlen : k.len ≤ Config.nMax) : k.Inv :=
  ⟨hcur ▸ htgt, htgt, horg, hfloor, hcur ▸ hfloor, fun _ => hcur,
    fun h => absurd hcnt h.ne', hcnt ▸ Nat.zero_le _, hlen⟩

theorem channel_reset_inv : Channel.reset.Inv :=
  channel_inv_of_cnt_zero rfl rfl isFinite_floorDb isFinite_floorDb le_rfl (Nat.zero_le _)

theorem initChannel_inv {n : Nat} (hn : n ≤ Config.nMax) : (initChannel n).Inv :=
  channel_inv_of_cnt_zero rfl rfl isFinite_floorDb isFinite_floorDb le_rfl hn

/-- A ramp in progress is moved on along its line, which stays above the target (40_smoother.md R70). -/
theorem advanceChannel_inv {k : Channel} (h : k.Inv) (n : Nat) : (advanceChannel k n).Inv := by
  obtain ⟨-, htgt, horg, hfloor, -, -, hramp, -, hmax⟩ := h
  rcases advanceChannel_eq k n with ⟨-, heq⟩ | ⟨hn, heq⟩ <;> rw [heq]
  · exact channel_inv_of_cnt_zero rfl rfl htgt horg hfloor hmax
  · obtain ⟨hlen, hle, hdesc, -, -⟩ := hramp (by omega)
    have huse : RampUse k.org k.tgt k.len (k.len - (k.cnt - n)) := ⟨horg, htgt, hdesc, by omega⟩
    obtain ⟨habove, hbelow⟩ := rampValue_bounds huse
    have hle' : k.cnt - n ≤ k.len := by omega
    exact ⟨(rampValue_spec huse).1, htgt, horg, hfloor, hfloor.trans habove.le,
      fun h0 => absurd h0 (Nat.sub_ne_zero_of_lt hn), fun _ => ⟨hlen, hle', hdesc, habove, hbelow⟩,
      hle', hmax⟩

/-- A reading settles the channel or starts a ramp that descends to it from `cur` (R71, R72). -/
theorem registerReading_inv {k : Channel} (h : k.Inv) {v : F32} (hv : isFinite v = true)
    (hvfloor : scaled Config.floorDb ≤ scaled v) : (registerReading k v).Inv := by
  have ⟨hcur, _, _, _, hcurfloor, _, _, _, hmax⟩ := h
  rcases registerReading_eq k v with ⟨-, heq⟩ | ⟨-, -, heq⟩ | ⟨hlt, -, hlen, heq⟩ <;> rw [heq]
  · exact channel_inv_of_cnt_zero rfl rfl hv hv hvfloor hmax
  · exact h
  · rw [f32Lt_iff (isNaN_of_isFinite hv) (isNaN_of_isFinite hcur)] at hlt
    exact ⟨hcur, hv, hcur, hvfloor, hcurfloor, fun h0 => absurd h0 hlen,
      fun hpos => ⟨hpos, le_rfl, hlt, hlt, le_rfl⟩, le_rfl, hmax⟩

section ChannelWrite

variable {c : Chan} {i : Instr} {k k' : Channel} (h : ChannelWrite c k i k')
include h

theorem ChannelWrite.inv (hk : k.Inv) : k'.Inv := by
  cases h with
  | init _ _ hn => exact initChannel_inv hn
  | advance n => exact advanceChannel_inv hk n.toNat
  | update g => exact registerReading_inv hk (gainToDb_range g).1 (gainToDb_range g).2

/-- Only an initialised channel is written, or one that the write initialises. -/
theorem ChannelWrite.ready : k'.ready = true := by
  cases h with
  | init => rfl
  | advance n hready => rwa [advanceChannel_ready]
  | update g hready => rwa [registerReading_ready]

end ChannelWrite

/-! ### The output stream (41_quantizer_framer.md R95) -/

theorem framed_append {xs ys : List Byte} (hxs : framed xs = true) (hys : framed ys = true) :
    framed (xs ++ ys) = true := by
  induction xs using framed.induct with
  | case1 => exact hys
  | case2 l r z rest ih =>
    simp only [framed, Bool.and_eq_true] at hxs
    simp only [List.cons_append, framed, Bool.and_eq_true]
    exact ⟨hxs.1, ih hxs.2⟩
  | case3 xs hnil hframe => simp [framed] at hxs

/-- Any two readings make a whole frame, since no level byte is 0. -/
theorem framed_levels (l r : F32) : framed [quantize l, quantize r, 0#8] = true := by
  simp [framed, quantize_ne_zero]

/-! ### The invariant of the machine -/

/-- Settles O58: every clause holds of the reset values. -/
theorem invariantAtReset : Obligations.InvariantAtReset :=
  ⟨channel_reset_inv, channel_reset_inv, fun _ => rfl, fun _ => rfl, .inl (by decide), rfl⟩

theorem setChannel_inv {s : State} (h : s.Inv) (c : Chan) {k : Channel} (hk : k.Inv)
    (hready : k.ready = true) : (s.setChannel c k).Inv := by
  obtain ⟨hl, hr, hfl, hfr, hst, hout⟩ := h
  have hfresh : k.FreshUntilReady := fun h0 => absurd hready (by simp [h0])
  cases c with
  | left => exact ⟨hk, hr, hfresh, hfr, hst, hout⟩
  | right => exact ⟨hl, hk, hfl, hfresh, hst, hout⟩

theorem channel_inv {s : State} (h : s.Inv) (c : Chan) : (s.channel c).Inv := by
  obtain ⟨hl, hr, -⟩ := h
  cases c with
  | left => exact hl
  | right => exact hr

theorem CommandEffect.inv {s t : State} {d : Except EncodingError Instr}
    (h : CommandEffect s d t) (hs : s.Inv) : t.Inv := by
  have ⟨hl, hr, hfl, hfr, hst, hout⟩ := hs
  cases h with
  | error x => exact ⟨hl, hr, hfl, hfr, consistent_raise x hst, hout⟩
  | answer | levels => exact hs
  | channel _ hk => exact setChannel_inv hs _ (hk.inv (channel_inv hs _)) hk.ready
  | frame => exact ⟨hl, hr, hfl, hfr, hst, framed_append hout (framed_levels _ _)⟩

/-- Settles O59: an idle step holds the state, the reset input restores the reset values, and each
effect of a command keeps the invariant. -/
theorem stepKeepsInvariant : Obligations.StepKeepsInvariant := by
  intro s t hs hstep
  rcases step_cases hstep with ⟨-, rfl⟩ | ⟨rest, -, rfl⟩ | ⟨p, w, rest, -, heffect⟩
  · exact hs
  · exact invariantAtReset
  · exact heffect.inv hs

/-! ### What only reset clears -/

section Sticky

variable {s t : State} {d : Except EncodingError Instr} (h : CommandEffect s d t)
include h

theorem CommandEffect.errorBit {x : Cause} (hx : errorBit x s.status = true) :
    errorBit x t.status = true := by
  cases h with
  | error y => simpa using errorBit_setErrorBit_of_errorBit y hx
  | channel => simpa using hx
  | answer | levels | frame => exact hx

theorem CommandEffect.first (hfirst : s.status.first ≠ 0#4) : t.status.first = s.status.first := by
  cases h with
  | error x => rw [State.raiseError_status, recordFirst_first, setErrorBit_first, if_neg hfirst]
  | channel => simp
  | answer | levels | frame => rfl

theorem CommandEffect.ready {c : Chan} (hc : (s.channel c).ready = true) :
    (t.channel c).ready = true := by
  cases h with
  | @channel e _ k _ hk =>
    rw [State.respond_channel]
    by_cases hce : c = e
    · rw [hce, State.setChannel_channel_self]; exact hk.ready
    · rwa [State.setChannel_channel_of_ne s hce]
  | error | answer | levels => simpa using hc
  | frame => cases c <;> exact hc

theorem CommandEffect.out : ∃ bytes, t.out = s.out ++ bytes := by
  cases h with
  | frame => exact ⟨_, rfl⟩
  | error | answer | channel | levels => exact ⟨[], by simp⟩

end Sticky

/-- Settles O19: without a reset input a step is idle or has one of the effects of a command, none of
which clears anything. -/
theorem onlyResetClears : Obligations.OnlyResetClears := by
  intro s t hnoreset hstep
  rcases step_cases hstep with ⟨-, rfl⟩ | ⟨rest, hreset, -⟩ | ⟨p, w, rest, -, heffect⟩
  · exact ⟨fun _ => id, fun _ => rfl, fun _ => id, [], by simp⟩
  · exact absurd hreset (hnoreset rest)
  · exact ⟨fun _ => heffect.errorBit, heffect.first,
      fun c hc => heffect.ready (by rwa [State.acceptCommand_channel]), heffect.out⟩

end Sys2Proof.Proofs
end

section
/-! PROOFS. The registers as they stand after reset, as STATUS shows them, and as the commands may write and read them (10_state.md R21, R28, R32, R33). -/

open Sys2Proof Sys2Proof.Machine Sys2Proof.Certificates

namespace Sys2Proof.Proofs

/-! ### Values after reset and the bits of STATUS -/

/-- Settles O11: each register is read off the reset state. -/
theorem resetValues : Obligations.ResetValues :=
  ⟨fun c => by cases c <;> rfl, rfl, by decide, rfl⟩

/-- A one-bit field below the rest of a register. -/
theorem getLsbD_append_ofBool_zero {w : Nat} (x : BitVec w) (b : Bool) :
    (x ++ BitVec.ofBool b).getLsbD 0 = b := by
  rw [BitVec.getLsbD_append, if_pos one_pos, BitVec.getLsbD_ofBool]; simp

theorem getLsbD_append_ofBool_succ {w : Nat} (x : BitVec w) (b : Bool) (k : Nat) :
    (x ++ BitVec.ofBool b).getLsbD (k + 1) = x.getLsbD k := by
  simp [BitVec.getLsbD_append]

/-- FIRST between the reserved bits: two below it and twenty above. -/
theorem getLsbD_first (first : BitVec 4) (k : Nat) :
    (0#20 ++ first ++ 0#2).getLsbD k = if 2 ≤ k ∧ k ≤ 5 then first.getLsbD (k - 2) else false := by
  simp only [BitVec.getLsbD_append, BitVec.getLsbD_zero]
  grind

/-- Settles O17: the six one-bit fields are taken off from below, and FIRST and the reserved bits are
left. -/
theorem statusWordBits : Obligations.StatusWordBits := by
  intro s k _
  unfold statusWord
  match k with
  | 0 | 1 | 2 | 3 | 4 | 5 =>
    simp only [getLsbD_append_ofBool_succ, getLsbD_append_ofBool_zero]; rfl
  | k + 6 =>
    simp only [getLsbD_append_ofBool_succ, getLsbD_first]
    simp [show k + 6 - 8 = k - 2 by omega]

/-! ### The columns of writes (10_state.md R33) -/

/-- No command changes the pending inputs or the issuing port. -/
theorem exec_port_inputs {i : Instr} {s t : State} (h : exec i s = .next t) :
    t.port = s.port ∧ t.inputs = s.inputs := by
  cases exec_effect h <;> simp

section Writes

variable {i : Instr} {s t : State} (h : exec i s = .next t)
include h

theorem exec_enc (hset : ∀ l r, i ≠ .setlevels l r) (hsample : i ≠ .sample) : t.enc = s.enc := by
  cases exec_effect h with
  | levels l r hd =>
    rcases hd with hd | hd <;> cases hd
    · exact absurd rfl hsample
    · exact absurd rfl (hset l r)
  | error | answer | channel | frame => simp

theorem exec_out (hencode : i ≠ .encode) : t.out = s.out := by
  cases exec_effect h with
  | frame hd => cases hd; exact absurd rfl hencode
  | error | answer | channel | levels => simp

/-- A channel is kept, or written by a command that names it (40_smoother.md R84). -/
theorem exec_channel (c : Chan) :
    t.channel c = s.channel c ∨ ∃ k, t.channel c = k ∧ ChannelWrite c (s.channel c) i k := by
  cases exec_effect h with
  | @channel e _ k hd hk =>
    cases hd
    rw [State.respond_channel]
    by_cases hce : c = e
    · subst hce
      exact .inr ⟨k, State.setChannel_channel_self s c k, hk⟩
    · exact .inl (State.setChannel_channel_of_ne s hce k)
  | error | answer | levels => exact .inl (by simp)
  | frame => exact .inl (by cases c <;> rfl)

end Writes

/-- Settles O51: of the commands that name a channel only INIT writes `N` and `ready`, and ADVANCE
writes neither target nor origin. -/
theorem accessMatrixWrites : Obligations.AccessMatrixWrites := by
  intro i s t h
  obtain ⟨hport, hinputs⟩ := exec_port_inputs h
  refine ⟨hport, hinputs, exec_enc h, exec_out h, fun c => ?_⟩
  rcases exec_channel h c with heq | ⟨k, heq, hk⟩ <;> rw [heq]
  · exact ⟨fun _ => ⟨rfl, rfl⟩, fun _ _ => ⟨rfl, rfl⟩, fun _ _ _ => rfl⟩
  · cases hk with
    | init fs x =>
      exact ⟨fun hi => absurd rfl (hi fs x), fun hi => absurd rfl (hi fs x),
        fun hi => absurd rfl (hi fs x)⟩
    | advance n => exact ⟨fun _ => by simp, fun _ _ => by simp, fun _ _ ha => absurd rfl (ha n)⟩
    | update g =>
      exact ⟨fun _ => by simp, fun _ hu => absurd rfl (hu g), fun _ hu => absurd rfl (hu g)⟩

/-! ### The registers that cannot be read (10_state.md R28) -/

/-- Two states that agree on everything but `tgt`, `org`, `cnt` and `N`. -/
structure AgreeOnVisible (s s' : State) : Prop where
  cur : ∀ c, (s'.channel c).cur = (s.channel c).cur
  ready : ∀ c, (s'.channel c).ready = (s.channel c).ready
  enc : s'.enc = s.enc
  status : s'.status = s.status
  out : s'.out = s.out
  port : s'.port = s.port
  responses : s'.responses = s.responses

theorem agreeOnVisible_setChannel (s : State) (c : Chan) {k : Channel}
    (hcur : k.cur = (s.channel c).cur) (hready : k.ready = (s.channel c).ready) :
    AgreeOnVisible s (s.setChannel c k) := by
  have hchan (d : Chan) : ((s.setChannel c k).channel d).cur = (s.channel d).cur ∧
      ((s.setChannel c k).channel d).ready = (s.channel d).ready := by
    by_cases hd : d = c
    · rw [hd, State.setChannel_channel_self]; exact ⟨hcur, hready⟩
    · rw [State.setChannel_channel_of_ne s hd]; exact ⟨rfl, rfl⟩
  constructor <;> simp [hchan]

/-- What the outside and the encoder see of a command: its response, OUT and the levels. -/
def SameOutcome (t t' : State) : Prop :=
  t'.responses = t.responses ∧ t'.out = t.out ∧ t'.enc = t.enc

section Agree

variable {s s' : State} (h : AgreeOnVisible s s')
include h

theorem AgreeOnVisible.statusWord : statusWord s' = statusWord s := by
  have hleft := h.ready .left
  have hright := h.ready .right
  rw [State.channel_left, State.channel_left] at hleft
  rw [State.channel_right, State.channel_right] at hright
  rw [Machine.statusWord, Machine.statusWord, h.status, hleft, hright]

theorem AgreeOnVisible.respond (code : BitVec 4) (data : BitVec 32) :
    SameOutcome (s.respond code data) (s'.respond code data) := by
  simp [SameOutcome, h.responses, h.port, h.out, h.enc]

theorem AgreeOnVisible.raiseError (x : Cause) :
    SameOutcome (s.raiseError x) (s'.raiseError x) := by
  simp [SameOutcome, h.responses, h.port, h.out, h.enc]

/-- Whatever is written to the channel, the outcome of the command does not show it. -/
theorem AgreeOnVisible.writeChannel (c : Chan) (k k' : Channel) :
    SameOutcome ((s.setChannel c k).respond 0#4 0#32) ((s'.setChannel c k').respond 0#4 0#32) := by
  simp [SameOutcome, h.responses, h.port, h.out, h.enc]

theorem AgreeOnVisible.writeLevels (l r : F32) :
    SameOutcome ((s.setLevels l r).respond 0#4 0#32) ((s'.setLevels l r).respond 0#4 0#32) := by
  simp [SameOutcome, h.responses, h.port, h.out]

/-- A command that passes the port check reads none of the hidden registers into its outcome. -/
theorem AgreeOnVisible.accepted {i : Instr} {t t' : State} (ht : Accepted i s t)
    (ht' : Accepted i s' t') : SameOutcome t t' := by
  cases i with
  | nop => cases ht; cases ht'; exact h.respond _ _
  | init c fs x =>
    rcases ht with ⟨n, hn, rfl⟩ | ⟨hn, rfl⟩ <;> rcases ht' with ⟨n', hn', rfl⟩ | ⟨hn', rfl⟩
    · exact h.writeChannel c _ _
    · simp [hn] at hn'
    · simp [hn] at hn'
    · exact h.raiseError _
  | advance c | update c =>
    rcases ht with ⟨hr, rfl⟩ | ⟨hr, rfl⟩ <;> rcases ht' with ⟨hr', rfl⟩ | ⟨hr', rfl⟩
    · exact h.writeChannel c _ _
    · simp [h.ready, hr] at hr'
    · simp [h.ready, hr] at hr'
    · exact h.raiseError _
  | getcur c => cases ht; cases ht'; rw [h.cur]; exact h.respond _ _
  | sample =>
    cases ht; cases ht'
    rw [← State.channel_left s', ← State.channel_right s', h.cur, h.cur]
    exact h.writeLevels _ _
  | setlevels l r => cases ht; cases ht'; exact h.writeLevels l r
  | encode =>
    cases ht; cases ht'
    simp [SameOutcome, h.responses, h.port, h.out, h.enc]
  | getdisp => cases ht; cases ht'; rw [h.enc]; exact h.respond _ _
  | getstat => cases ht; cases ht'; rw [h.statusWord]; exact h.respond _ _

theorem AgreeOnVisible.exec {i : Instr} {t t' : State} (ht : exec i s = .next t)
    (ht' : exec i s' = .next t') : SameOutcome t t' := by
  rcases exec_cases ht with ⟨ha, rfl⟩ | ⟨ha, hacc⟩ <;>
    rcases exec_cases ht' with ⟨ha', rfl⟩ | ⟨ha', hacc'⟩
  · exact h.raiseError _
  · simp [h.port, ha] at ha'
  · simp [h.port, ha] at ha'
  · exact h.accepted hacc hacc'

end Agree

/-- Settles O54: the two states agree on all that a command can show. -/
theorem hiddenRegistersAreNotRead : Obligations.HiddenRegistersAreNotRead := by
  intro s c i tgt org cnt len
  have hagree := agreeOnVisible_setChannel s c
    (k := { s.channel c with tgt := tgt, org := org, cnt := cnt, len := len }) rfl rfl
  obtain ⟨t, ht⟩ := exec_next i s
  obtain ⟨t', ht'⟩ := exec_next i
    (s.setChannel c { s.channel c with tgt := tgt, org := org, cnt := cnt, len := len })
  exact ⟨t, t', ht, ht', hagree.exec ht ht'⟩

end Sys2Proof.Proofs
end

section
/-! PROOFS. The total order of the commands: a step takes the first pending command and no other (20_memory.md R39). -/

open Sys2Proof Sys2Proof.Machine Sys2Proof.Certificates

namespace Sys2Proof.Proofs

/-- A pending command stands at the head of its own port's stream and in no other stream. -/
theorem portStream_command (q p : Port) (w : CommandWord) (rest : List Input) :
    portStream q (.command p w :: rest) =
      if q = p then w :: portStream q rest else portStream q rest := by
  simp only [portStream, eq_comm (a := p)]

/-- None of the effects of a command takes or adds an input. -/
theorem CommandEffect.inputs {s t : State} {d : Except EncodingError Instr}
    (h : CommandEffect s d t) : t.inputs = s.inputs := by
  cases h with
  | error | answer | channel | levels | frame => simp

/-- The step takes the command off the pending inputs, and its execution leaves what remains. -/
theorem step_command_inputs {s t : State} {p : Port} {w : CommandWord} {rest : List Input}
    (hin : s.inputs = .command p w :: rest) (hstep : step s = .next t) : t.inputs = rest := by
  rw [step_command hin] at hstep
  exact (execute_effect hstep).inputs.trans (State.acceptCommand_inputs s p rest)

/-- Settles O9: what remains after the step is the rest of the inputs, and the command taken was the
head of its own port's stream alone. -/
theorem stepTakesHeadOfItsPort : Obligations.StepTakesHeadOfItsPort := by
  intro s t p q w rest hin hstep
  have hrest := step_command_inputs hin hstep
  refine ⟨hrest, ?_⟩
  rw [hin, hrest]
  exact portStream_command q p w rest

end Sys2Proof.Proofs
end

section
/-! PROOFS. Command words and commands (30_encoding.md R48 to R54). The fields of a word and the word of the fields are inverse, so each statement about words is one about fields, and one lemma, `decodeFields_eq_ok_iff`, says which fields are which command. -/

open Sys2Proof Sys2Proof.Machine Sys2Proof.Certificates

namespace Sys2Proof.Proofs

/-! ### A word and its fields (30_encoding.md R48) -/

@[simp] theorem fieldsOf_wordOfFields (f : Fields) : fieldsOf (wordOfFields f) = f := by
  rcases f with ⟨op, ch, rsv, a, b⟩
  simp only [fieldsOf, wordOfFields, Fields.mk.injEq]
  refine ⟨?_, ?_, ?_, ?_, ?_⟩ <;> apply BitVec.eq_of_getLsbD_eq <;> intro k hk <;>
    simp only [BitVec.getLsbD_extractLsb', BitVec.getLsbD_append, hk, decide_true, Bool.true_and] <;>
    grind

@[simp] theorem wordOfFields_fieldsOf (w : CommandWord) : wordOfFields (fieldsOf w) = w := by
  apply BitVec.eq_of_getLsbD_eq
  intro k hk
  simp only [wordOfFields, fieldsOf, BitVec.getLsbD_extractLsb', BitVec.getLsbD_append]
  grind

@[simp] theorem fieldsOf_encode (i : Instr) : fieldsOf (encode i) = fieldsOfInstr i :=
  fieldsOf_wordOfFields _

/-- A word is the assembler's exactly when its fields are. -/
theorem eq_encode_iff (w : CommandWord) (i : Instr) : w = encode i ↔ fieldsOf w = fieldsOfInstr i :=
  ⟨fun h => by rw [h, fieldsOf_encode], fun h => by rw [encode, ← h, wordOfFields_fieldsOf]⟩

/-- The fields with those that the command's operation does not use set to 0 (R52). -/
def usedFields (i : Instr) (f : Fields) : Fields :=
  match i with
  | .init _ _ _ | .setlevels _ _ => f
  | .advance _ _ | .update _ _ => { f with b := 0#32 }
  | _ => { f with a := 0#32, b := 0#32 }

@[simp] theorem usedFields_fieldsOfInstr (i : Instr) :
    usedFields i (fieldsOfInstr i) = fieldsOfInstr i := by
  cases i <;> rfl

/-- Keeping the used bits of a word keeps its used fields. -/
theorem fieldsOf_and_usedBits (w : CommandWord) (i : Instr) :
    fieldsOf (w &&& usedBits i) = usedFields i (fieldsOf w) := by
  have hop (x : BitVec 4) : x &&& 15#4 = x := BitVec.and_allOnes
  have hch (x : BitVec 1) : x &&& 1#1 = x := BitVec.and_allOnes
  have hrsv (x : BitVec 3) : x &&& 7#3 = x := BitVec.and_allOnes
  have hoperand (x : BitVec 32) : x &&& 4294967295#32 = x := BitVec.and_allOnes
  cases i <;> simp [fieldsOf, usedFields, usedBits, BitVec.extractLsb'_and, hop, hch, hrsv, hoperand]

@[simp] theorem chanBit_chanOf (ch : BitVec 1) : chanBit (chanOf ch) = ch := by
  revert ch; decide

/-! ### Which fields are which command (R50, R52, R53, R54) -/

theorem violation_eq_none_iff (f : Fields) :
    f.violation = none ↔
      f.op.toNat < 10 ∧ f.rsv = 0#3 ∧ (f.ch = 1#1 → usesChannel f.op = true) := by
  unfold Fields.violation
  split_ifs with hop hrsv hch <;> simp_all

/-- The ten operations by number: INIT, ADVANCE, UPDATE and GETCUR name a channel, the others do not
(R50, R53). -/
theorem usesChannel_cases : ∀ n < 10,
    (usesChannel (BitVec.ofNat 4 n) = true ∧ (n = 1 ∨ n = 2 ∨ n = 3 ∨ n = 4)) ∨
      (usesChannel (BitVec.ofNat 4 n) = false ∧
        (n = 0 ∨ n = 5 ∨ n = 6 ∨ n = 7 ∨ n = 8 ∨ n = 9)) := by
  decide

/-- Fields that pass the checks of R54 have a row in the opcode map, and it is the row of a command
whose fields these are. -/
theorem exists_decodeFields_of_legal {f : Fields} (hf : f.violation = none) :
    ∃ i, decodeFields f = .ok i ∧ usedFields i f = fieldsOfInstr i := by
  obtain ⟨hop, hrsv, hch⟩ := (violation_eq_none_iff f).1 hf
  rcases f with ⟨op, ch, rsv, a, b⟩
  obtain ⟨n, hn, rfl⟩ : ∃ n < 10, op = BitVec.ofNat 4 n := ⟨op.toNat, hop, by simp⟩
  obtain rfl : rsv = 0#3 := hrsv
  unfold decodeFields
  rw [hf]
  rcases usesChannel_cases n hn with ⟨hu, rfl | rfl | rfl | rfl⟩ |
    ⟨hu, rfl | rfl | rfl | rfl | rfl | rfl⟩
  iterate 4 exact ⟨_, rfl, by simp [usedFields, fieldsOfInstr]⟩
  all_goals
    obtain rfl : ch = 0#1 :=
      (BitVec.eq_zero_or_eq_one ch).resolve_right fun h => absurd (hch h) (by simp [hu])
    exact ⟨_, rfl, rfl⟩

/-- The opcode map itself rejects nothing: fields are illegal exactly when they fail a check of R54. -/
theorem decodeFields_error_iff (f : Fields) :
    (∃ e, decodeFields f = .error e) ↔ f.violation ≠ none := by
  constructor
  · rintro ⟨e, he⟩ hf
    obtain ⟨i, hi, -⟩ := exists_decodeFields_of_legal hf
    rw [he] at hi
    cases hi
  · intro hf
    obtain ⟨e, he⟩ := Option.ne_none_iff_exists'.1 hf
    exact ⟨e, by rw [decodeFields, he]⟩

/-- Which fields are which command: those whose used part the assembler writes for it. -/
theorem decodeFields_eq_ok_iff (f : Fields) (i : Instr) :
    decodeFields f = .ok i ↔ usedFields i f = fieldsOfInstr i := by
  constructor
  · intro h
    cases hf : f.violation with
    | some e => rw [decodeFields, hf] at h; cases h
    | none =>
      obtain ⟨j, hj, hused⟩ := exists_decodeFields_of_legal hf
      rw [h] at hj
      cases hj
      exact hused
  · intro h
    rcases f with ⟨op, ch, rsv, a, b⟩
    cases i with
    | init c | advance c | update c | getcur c =>
      cases c <;> cases h <;> rfl
    | nop | sample | setlevels | encode | getdisp | getstat => cases h; rfl

/-! ### The statements about words -/

/-- Settles O1: the assembler writes the fields of the command, and they are the command's. -/
theorem decodeOfEncode : Obligations.DecodeOfEncode := by
  intro i
  rw [decode, fieldsOf_encode, decodeFields_eq_ok_iff, usedFields_fieldsOfInstr]

/-- Settles O2: both sides say that the used fields of the word are those of the command. -/
theorem wordDecodesIffUsedBitsMatch : Obligations.WordDecodesIffUsedBitsMatch := by
  intro w i
  rw [decode, decodeFields_eq_ok_iff, eq_encode_iff, fieldsOf_and_usedBits]

theorem decode_error_iff (w : CommandWord) :
    (∃ e, decode w = .error e) ↔ (fieldsOf w).violation ≠ none :=
  decodeFields_error_iff _

/-- Settles O4: RSV is checked apart from OP. -/
theorem nonzeroReservedBitsIllegal : Obligations.NonzeroReservedBitsIllegal := by
  intro w hrsv
  rw [decode_error_iff, ne_eq, violation_eq_none_iff]
  rintro ⟨-, hzero, -⟩
  exact hrsv hzero

/-- Settles O5: the decoder evaluated on each word. -/
theorem knownWordsDecode : Obligations.KnownWordsDecode := by
  unfold Obligations.KnownWordsDecode
  decide

/-- The operations without a channel, by number (R50, R53). -/
theorem usesChannel_eq_false_iff {op : BitVec 4} (hop : op.toNat < 10) :
    usesChannel op = false ↔ op.toNat ∈ [0, 5, 6, 7, 8, 9] := by
  revert op; decide

/-- The checks of R54 as the rule lists them. -/
theorem violation_ne_none_iff (f : Fields) :
    f.violation ≠ none ↔
      10 ≤ f.op.toNat ∨ f.rsv ≠ 0#3 ∨ (f.ch = 1#1 ∧ f.op.toNat ∈ [0, 5, 6, 7, 8, 9]) := by
  rw [ne_eq, violation_eq_none_iff]
  rcases Nat.lt_or_ge f.op.toNat 10 with hop | hop
  · rw [← usesChannel_eq_false_iff hop, ← Bool.not_eq_true]
    simp only [hop, true_and, not_and_or, Classical.not_imp, Nat.not_le.2 hop, false_or]
  · simp only [hop, Nat.not_lt.2 hop, false_and, not_false_eq_true, true_or]

/-- The checks read bits 7:0 alone (R54). -/
theorem violation_fieldsOf_and_lowByte (w : CommandWord) :
    (fieldsOf (w &&& 0xFF#72)).violation = (fieldsOf w).violation :=
  (congrArg Fields.violation (fieldsOf_and_usedBits w .nop)).trans rfl

theorem recordFirst_setErrorBit (x : Cause) (st : Status) :
    recordFirst x (setErrorBit x st) = raisedStatus (causeCode x) st := by
  unfold recordFirst raisedStatus
  rw [setErrorBit_first]
  split <;> cases x <;> simp [setErrorBit, causeCode]

/-- Raising an error in the model is the effect that R104 spells out. -/
theorem raiseError_eq_raised (s : State) (x : Cause) : s.raiseError x = raised s (causeCode x) := by
  rw [raised, ← recordFirst_setErrorBit]
  rfl

/-- Settles O3: legality is that of the fields (`violation_ne_none_iff`), and an illegal word only raises
IllegalCommand. -/
theorem illegalEncodings : Obligations.IllegalEncodings := by
  refine ⟨fun w => ?_, fun w e p rest s hw hin => ?_, fun w => ?_, ?_⟩
  · rw [decode_error_iff, violation_ne_none_iff]
    rfl
  · rw [step_command hin, execute_error hw, raiseError_eq_raised]
    rfl
  · rw [decode_error_iff, decode_error_iff, violation_fieldsOf_and_lowByte]
  · decide

end Sys2Proof.Proofs
end

section
/-! PROOFS. The response of a command (30_encoding.md R55; 60_exceptions.md R104, R110): whatever executing it does to the registers, it answers once, with the code of the first check that fails. -/

open Sys2Proof Sys2Proof.Machine Sys2Proof.Certificates

namespace Sys2Proof.Proofs

/-- The commands that respond with data: GETCUR, GETDISP and GETSTAT (R55). -/
def ReturnsData : Instr → Prop
  | .getcur _ | .getdisp | .getstat => True
  | _ => False

/-- From `s` to `t` one response was given, on the port of `s`, with this code; its data is 0 where the
code is an error or the command returns none. -/
def RespondsOnce (s t : State) (code : BitVec 4) (returnsData : Prop) : Prop :=
  ∃ d, t.responses = s.responses ++ [{ port := s.port, word := d ++ code }] ∧
    (code ≠ 0#4 ∨ ¬ returnsData → d = 0#32)

theorem respondsOnce_raiseError (s : State) (x : Cause) (returnsData : Prop) :
    RespondsOnce s (s.raiseError x) (causeCode x) returnsData :=
  ⟨0#32, State.raiseError_responses s x, fun _ => rfl⟩

/-- A command that writes registers and responds with DATA 0. -/
theorem respondsOnce_written {s s' : State} (hport : s'.port = s.port)
    (hresp : s'.responses = s.responses) (returnsData : Prop) :
    RespondsOnce s (s'.respond 0#4 0#32) 0#4 returnsData :=
  ⟨0#32, by rw [State.respond_responses, hport, hresp]; rfl, fun _ => rfl⟩

theorem respondsOnce_data (s : State) (data : BitVec 32) :
    RespondsOnce s (s.respond 0#4 data) 0#4 True :=
  ⟨data, State.respond_responses s 0#4 data, fun h => absurd trivial (h.resolve_left (· rfl))⟩

theorem expectedCode_of_error {w : CommandWord} {e : EncodingError} (hw : decode w = .error e) (p : Port)
    (s : State) : expectedCode p w s = causeCode .illegalCommand := by
  simp [expectedCode, hw, causeCode]

theorem expectedCode_of_not_accepts {w : CommandWord} {i : Instr} {p : Port} (hw : decode w = .ok i)
    (hport : accepts p i = false) (s : State) : expectedCode p w s = causeCode .portViolation := by
  simp [expectedCode, hw, hport, causeCode]

theorem accepted_respondsOnce {i : Instr} {w : CommandWord} {s t : State} (hw : decode w = .ok i)
    (hport : accepts s.port i = true) (h : Accepted i s t) :
    RespondsOnce s t (expectedCode s.port w s) (ReturnsData i) := by
  unfold expectedCode
  simp only [hw, hport, Bool.true_eq_false, if_false]
  cases i with
  | init c fs x =>
    rcases h with ⟨n, hn, rfl⟩ | ⟨hn, rfl⟩ <;> simp only [hn]
    · exact respondsOnce_written (by simp) (by simp) _
    · exact respondsOnce_raiseError s .configError _
  | advance c | update c =>
    rcases h with ⟨hready, rfl⟩ | ⟨hready, rfl⟩ <;> simp only [hready]
    · exact respondsOnce_written (by simp) (by simp) _
    · exact respondsOnce_raiseError s .notInitialised _
  | getcur | getdisp | getstat => cases h; exact respondsOnce_data s _
  | nop | sample | setlevels | encode => cases h; exact respondsOnce_written rfl rfl _

/-- Executing a command word responds once, with the code of the first check that fails (R110). -/
theorem execute_respondsOnce {w : CommandWord} {s t : State} (h : execute w s = .next t) :
    RespondsOnce s t (expectedCode s.port w s) (∃ i, decode w = .ok i ∧ ReturnsData i) := by
  cases hw : decode w with
  | error e =>
    rw [execute_error hw] at h
    cases h
    rw [expectedCode_of_error hw]
    exact respondsOnce_raiseError s .illegalCommand _
  | ok i =>
    simp only [Except.ok.injEq, exists_eq_left']
    rcases exec_cases (execute_ok hw s ▸ h) with ⟨hport, rfl⟩ | ⟨hport, hacc⟩
    · rw [expectedCode_of_not_accepts hw hport]
      exact respondsOnce_raiseError s .portViolation _
    · exact accepted_respondsOnce hw hport hacc

theorem execute_next (w : CommandWord) (s : State) : ∃ t, execute w s = .next t := by
  cases hw : decode w with
  | ok i => rw [execute_ok hw]; exact exec_next i s
  | error e => exact ⟨_, execute_error hw s⟩

/-- The checks read the channels and not what taking the command writes. -/
theorem expectedCode_acceptCommand (p q : Port) (w : CommandWord) (s : State) (rest : List Input) :
    expectedCode p w (s.acceptCommand q rest) = expectedCode p w s := by
  simp [expectedCode]

/-- Settles O10: the step is the execution of the pending word (`step_command`), which responds once. -/
theorem oneResponsePerCommand : Obligations.OneResponsePerCommand := by
  intro s p w rest hin
  obtain ⟨t, ht⟩ := execute_next w (s.acceptCommand p rest)
  obtain ⟨d, hresp, hzero⟩ := execute_respondsOnce ht
  rw [State.acceptCommand_port, expectedCode_acceptCommand] at hresp hzero
  refine ⟨t, d, (step_command hin).trans ht, hresp, fun h => hzero (h.imp_right ?_)⟩
  rintro hnone ⟨i, hi, hdata⟩
  obtain ⟨hleft, hright, hdisp, hstat⟩ := hnone i hi
  cases i with
  | getcur c => cases c <;> contradiction
  | getdisp | getstat => contradiction
  | _ => exact hdata

end Sys2Proof.Proofs
end

section
/-! PROOFS. The assembler: the words of its forms, its port check and the pseudo-instructions (30_encoding.md R56, R59, R61 to R64). -/

open Sys2Proof Sys2Proof.Machine Sys2Proof.Certificates

namespace Sys2Proof.Proofs

/-- Settles O57: the expansions are the rules' by definition. -/
theorem pseudoInstructionExpansions : Obligations.PseudoInstructionExpansions :=
  fun _ _ _ _ _ => ⟨rfl, rfl, rfl, rfl⟩

/-- RSV, CH and OP gathered in the low byte of a word (30_encoding.md R48). -/
theorem wordOfFields_eq_append_lowByte (f : Fields) :
    wordOfFields f = f.b ++ f.a ++ (f.rsv ++ f.ch ++ f.op) := by
  simp only [wordOfFields, BitVec.append_assoc, BitVec.cast_eq]

/-- The words of the forms with operands (R59). -/
theorem encode_operandForms (c : Chan) (x y : BitVec 32) :
    encode (.init c x y) = y ++ x ++ (0#3 ++ chanBit c ++ 1#4) ∧
    encode (.advance c x) = 0#32 ++ x ++ (0#3 ++ chanBit c ++ 2#4) ∧
    encode (.update c x) = 0#32 ++ x ++ (0#3 ++ chanBit c ++ 3#4) ∧
    encode (.getcur c) = 0#32 ++ 0#32 ++ (0#3 ++ chanBit c ++ 4#4) ∧
    encode (.setlevels x y) = y ++ x ++ 0x06#8 :=
  ⟨wordOfFields_eq_append_lowByte _, wordOfFields_eq_append_lowByte _,
    wordOfFields_eq_append_lowByte _, wordOfFields_eq_append_lowByte _,
    (wordOfFields_eq_append_lowByte _).trans
      (congrArg (y ++ x ++ ·) (by decide : (0#3 ++ 0#1 ++ 6#4 : BitVec 8) = 0x06#8))⟩

/-- The operands of each form, read one by one, make its command on the line's port (R59). -/
theorem readCommand_operandForms {ch n a b : List Char} {c : Chan} {k : U32} {x y : F32}
    (hc : readChan ch = some c) (hn : readCount n = some k) (ha : readValue a = some x)
    (hb : readValue b = some y) (p : Port) :
    readCommand p "INIT" [ch, a, b] = some [⟨p, .init c x y⟩] ∧
    readCommand p "ADVANCE" [ch, n] = some [⟨p, .advance c k⟩] ∧
    readCommand p "UPDATE" [ch, a] = some [⟨p, .update c x⟩] ∧
    readCommand p "GETCUR" [ch] = some [⟨p, .getcur c⟩] ∧
    readCommand p "SETLEVELS" [a, b] = some [⟨p, .setlevels x y⟩] := by
  simp [readCommand, hc, hn, ha, hb]

/-- A line is read only where its port may issue every command of it (R56, R59). -/
theorem readLine_accepts {text : String} {ls : List Line} (h : readLine text = some ls) :
    ∀ l ∈ ls, accepts l.port l.instr = true := by
  simp only [readLine] at h
  split_ifs at h
  · cases h
    exact List.forall_mem_nil _
  · obtain ⟨p, -, h⟩ := Option.bind_eq_some_iff.1 h
    obtain ⟨lines, -, h⟩ := Option.bind_eq_some_iff.1 h
    split_ifs at h with hall
    cases h
    intro l hl
    exact (Bool.and_eq_true_iff.1 (List.all_eq_true.1 hall l hl)).2

/-- Settles O56: the forms and the port check for every operand and text, the programs by evaluating the
assembler. -/
theorem assemblerForms : Obligations.AssemblerForms := by
  refine ⟨encode_operandForms, by decide, ?_, ⟨rfl, rfl⟩, by decide, fun _ _ => readLine_accepts,
    by decide⟩
  intro p ch n a b c k x y hc hn ha hb
  exact readCommand_operandForms hc hn ha hb p

end Sys2Proof.Proofs
end

section
/-! PROOFS. The binary32 literals of the assembler (30_encoding.md R60; log 18). A text of digits is read as the number it writes, `readDecimal_text` puts the parts of a decimal text together, and the value is rounded by `roundNearest_spec`. -/

open Sys2Proof Sys2Proof.Machine Sys2Proof.Certificates

namespace Sys2Proof.Proofs

/-! ### Runs of digits -/

/-- The number a run of digits of a base writes, the most significant first. -/
def digitsIn (base : Nat) (ds : List Nat) : Nat := ds.foldl (fun acc d => acc * base + d) 0

theorem digitsIn_ten (ds : List Nat) : digitsIn 10 ds = digitsValue ds := by
  simp only [digitsIn, digitsValue, Nat.mul_comm]

/-- A run of characters that stand for digits of the base is read as the number of these digits. -/
theorem readDigits_map {base : Nat} {f : Nat → Char} {ds : List Nat} (hne : ds ≠ [])
    (hds : ∀ d ∈ ds, d < base ∧ digitValue (f d) = some d) :
    readDigits base (ds.map f) = some (digitsIn base ds) := by
  rw [readDigits, if_neg (by simpa using hne), digitsIn]
  generalize (0 : Nat) = acc
  clear hne
  induction ds generalizing acc with
  | nil => rfl
  | cons d ds ih =>
    obtain ⟨⟨hd, hval⟩, hrest⟩ := List.forall_mem_cons.1 hds
    simpa [hval, hd] using ih hrest (acc * base + d)

theorem digitValue_digitChar : ∀ d < 16, digitValue d.digitChar = some d := by decide

theorem digitValue_toUpper_digitChar : ∀ d < 16, digitValue d.digitChar.toUpper = some d := by decide

theorem readDigits_decimal {ds : List Nat} (hne : ds ≠ []) (hds : ∀ d ∈ ds, d < 10) :
    readDigits 10 (ds.map Nat.digitChar) = some (digitsValue ds) := by
  have hval (d) (hd : d ∈ ds) : d < 10 ∧ digitValue d.digitChar = some d :=
    ⟨hds d hd, digitValue_digitChar d ((hds d hd).trans (by decide))⟩
  rw [readDigits_map hne hval, digitsIn_ten]

theorem isDigit_digitChar : ∀ d < 10, d.digitChar.isDigit = true := by decide

/-- A digit is told from any other character. -/
theorem digit_bne {x c : Char} (hx : x.isDigit = true) (hc : c.isDigit = false) : (x != c) = true :=
  bne_iff_ne.2 fun h => by simp [h, hc] at hx

theorem isDigit_of_mem_digits {ds : List Nat} (hds : ∀ d ∈ ds, d < 10) {x : Char}
    (hx : x ∈ ds.map Nat.digitChar) : x.isDigit = true := by
  obtain ⟨d, hd, rfl⟩ := List.mem_map.1 hx
  exact isDigit_digitChar d (hds d hd)

/-! ### The parts of a decimal text -/

/-- A split at the first element that fails the test. -/
theorem span_append {α : Type} {p : α → Bool} {xs ys : List α} (hxs : ∀ x ∈ xs, p x = true)
    (hys : ∀ y ∈ ys.head?, p y = false) : (xs ++ ys).span p = (xs, ys) := by
  rw [List.span_eq_takeWhile_dropWhile, List.takeWhile_append_of_pos hxs,
    List.dropWhile_append_of_pos hxs]
  cases ys with
  | nil => simp
  | cons y ys => simp [hys y rfl]

/-- The fraction of a decimal text, with its point. -/
def fractionText (fraction : List Nat) : List Char :=
  if fraction = [] then [] else '.' :: fraction.map Nat.digitChar

/-- The exponent of a decimal text. -/
def exponentText : Option (Bool × List Nat) → List Char
  | none => []
  | some (down, ds) => 'e' :: ((if down then ['-'] else []) ++ ds.map Nat.digitChar)

/-- The number that the exponent writes. -/
def exponentValue : Option (Bool × List Nat) → Int
  | none => 0
  | some (down, ds) => if down then -(digitsValue ds : Int) else digitsValue ds

theorem fractionText_drop (fraction : List Nat) :
    (fractionText fraction).drop 1 = fraction.map Nat.digitChar := by
  unfold fractionText
  split
  case isTrue h => rw [h]; rfl
  case isFalse => rfl

theorem mem_fractionText {fraction : List Nat} (hds : ∀ d ∈ fraction, d < 10) {x : Char}
    (hx : x ∈ fractionText fraction) : x.isDigit = true ∨ x = '.' := by
  unfold fractionText at hx
  split at hx
  · cases hx
  · exact (List.mem_cons.1 hx).symm.imp_left (isDigit_of_mem_digits hds)

theorem fractionText_head (fraction : List Nat) : ∀ x ∈ (fractionText fraction).head?, x = '.' := by
  unfold fractionText
  split <;> simp

theorem mem_exponentText {exponent : Option (Bool × List Nat)}
    (he : ∀ e ∈ exponent, e.2 ≠ [] ∧ ∀ d ∈ e.2, d < 10) {x : Char}
    (hx : x ∈ exponentText exponent) :
    x.isDigit = true ∨ x = 'e' ∨ x = '-' := by
  rcases exponent with _ | ⟨down, ds⟩
  · cases hx
  · rcases List.mem_cons.1 hx with rfl | hx
    · exact .inr (.inl rfl)
    · rcases List.mem_append.1 hx with hx | hx
      · cases down <;> simp_all
      · exact .inl (isDigit_of_mem_digits (he _ rfl).2 hx)

theorem exponentText_head (exponent : Option (Bool × List Nat)) :
    ∀ x ∈ (exponentText exponent).head?, x = 'e' := by
  rcases exponent with _ | ⟨down, ds⟩ <;> simp [exponentText]

theorem decimalText_eq (neg : Bool) (whole fraction : List Nat) (exponent : Option (Bool × List Nat)) :
    decimalText neg whole fraction exponent = (if neg then ['-'] else []) ++
      (whole.map Nat.digitChar ++ fractionText fraction ++ exponentText exponent) := by
  simp only [decimalText, List.append_assoc]
  rfl

/-- The exact number as the digits and a power of ten. -/
theorem decimalValue_eq (neg : Bool) (whole fraction : List Nat) (exponent : Option (Bool × List Nat)) :
    decimalValue neg whole fraction exponent =
      (if neg then -1 else 1) * (digitsValue (whole ++ fraction) : ℚ) *
        (10 : ℚ) ^ (exponentValue exponent - fraction.length) := by
  rcases exponent with _ | ⟨_ | _, ds⟩ <;>
    simp only [decimalValue, exponentValue, zpow_sub₀ (by norm_num : (10 : ℚ) ≠ 0), zpow_natCast,
      zpow_neg, zpow_zero, if_true, Bool.false_eq_true, if_false] <;>
    ring

theorem readExponent_text {exponent : Option (Bool × List Nat)}
    (he : ∀ e ∈ exponent, e.2 ≠ [] ∧ ∀ d ∈ e.2, d < 10) :
    readExponent (exponentText exponent) = some (exponentValue exponent) := by
  rcases exponent with _ | ⟨down, ds⟩
  · rfl
  · obtain ⟨hne, hds⟩ := he _ rfl
    have hread := readDigits_decimal hne hds
    cases down with
    | true => simp [exponentText, exponentValue, readExponent, hread]
    | false =>
      obtain ⟨d, ds, rfl⟩ := List.exists_cons_of_ne_nil hne
      have hminus : d.digitChar ≠ '-' := fun h =>
        absurd (isDigit_digitChar d (hds d List.mem_cons_self)) (by simp [h])
      simp_all [exponentText, exponentValue, readExponent]

/-- The parts of an unsigned decimal text are found at its point and at its `e`. -/
theorem readDecimal_text {whole fraction : List Nat} {exponent : Option (Bool × List Nat)}
    (hne : whole ≠ []) (hwhole : ∀ d ∈ whole, d < 10) (hfraction : ∀ d ∈ fraction, d < 10)
    (he : ∀ e ∈ exponent, e.2 ≠ [] ∧ ∀ d ∈ e.2, d < 10) (neg : Bool) :
    readDecimal neg (whole.map Nat.digitChar ++ fractionText fraction ++ exponentText exponent) =
      some (.decimal neg (digitsValue (whole ++ fraction))
        (exponentValue exponent - fraction.length)) := by
  have hexp : (whole.map Nat.digitChar ++ fractionText fraction ++ exponentText exponent).span
      (· != 'e') = (whole.map Nat.digitChar ++ fractionText fraction, exponentText exponent) := by
    refine span_append (fun x hx => ?_) fun x hx => by simp [exponentText_head exponent x hx]
    rcases List.mem_append.1 hx with hx | hx
    · exact digit_bne (isDigit_of_mem_digits hwhole hx) rfl
    · rcases mem_fractionText hfraction hx with hx | rfl
      · exact digit_bne hx rfl
      · rfl
  have hfrac : (whole.map Nat.digitChar ++ fractionText fraction).span (· != '.') =
      (whole.map Nat.digitChar, fractionText fraction) :=
    span_append (fun x hx => digit_bne (isDigit_of_mem_digits hwhole hx) rfl)
      fun x hx => by simp [fractionText_head fraction x hx]
  have hdigits := readDigits_decimal (List.append_ne_nil_of_left_ne_nil hne fraction)
    (List.forall_mem_append.2 ⟨hwhole, hfraction⟩)
  rw [List.map_append] at hdigits
  simp only [readDecimal, hexp, hfrac, fractionText_drop, hdigits, readExponent_text he,
    List.length_map]
  rfl

/-! ### Rounding -/

theorem literalBits_decimal_isRoundedNearest (neg : Bool) (digits : Nat) (scale : Int) :
    IsRoundedNearest (signFactor neg * digits * (10 : ℚ) ^ scale)
      (literalBits (.decimal neg digits scale)) := by
  rcases lt_or_ge scale 0 with hscale | hscale
  · obtain ⟨k, rfl⟩ : ∃ k : Nat, scale = -k := ⟨(-scale).toNat, by omega⟩
    have hexact : signFactor neg * digits * (10 : ℚ) ^ (-k : Int) =
        signFactor neg * (((digits * 2 ^ 149 : Nat) / (10 ^ k : Nat) : ℚ) / 2 ^ 149) := by
      rw [zpow_neg, zpow_natCast]
      push_cast
      ring
    rw [hexact, literalBits, if_neg (not_le.2 hscale), neg_neg, Int.toNat_natCast]
    exact roundNearest_spec neg _ (by positivity)
  · obtain ⟨k, rfl⟩ := Int.eq_ofNat_of_zero_le hscale
    have hexact : signFactor neg * digits * (10 : ℚ) ^ (k : Int) =
        signFactor neg * (((digits * 10 ^ k * 2 ^ 149 : Nat) / (1 : Nat) : ℚ) / 2 ^ 149) := by
      rw [zpow_natCast]
      push_cast
      ring
    rw [hexact, literalBits, if_pos hscale, Int.toNat_natCast]
    exact roundNearest_spec neg _ one_pos

/-! ### The forms as operand texts -/

/-- A text that starts with a digit and is no raw pattern is an unsigned decimal literal. -/
theorem readLiteral_unsigned {c : Char} {cs : List Char} (hc : c.isDigit = true) (hx : 'x' ∉ cs) :
    readLiteral (c :: cs) = readDecimal false (c :: cs) := by
  unfold readLiteral
  split <;> simp_all

theorem readLiteral_negative {c : Char} {cs : List Char} (hc : c.isDigit = true) :
    readLiteral ('-' :: c :: cs) = readDecimal true (c :: cs) := by
  unfold readLiteral
  split <;> simp_all

/-- Every text of the decimal form is read as its sign, its digits and its power of ten. -/
theorem readLiteral_decimalText {whole fraction : List Nat} {exponent : Option (Bool × List Nat)}
    (hne : whole ≠ []) (hwhole : ∀ d ∈ whole, d < 10) (hfraction : ∀ d ∈ fraction, d < 10)
    (he : ∀ e ∈ exponent, e.2 ≠ [] ∧ ∀ d ∈ e.2, d < 10) (neg : Bool) :
    readLiteral (decimalText neg whole fraction exponent) =
      some (.decimal neg (digitsValue (whole ++ fraction))
        (exponentValue exponent - fraction.length)) := by
  rw [decimalText_eq, ← readDecimal_text hne hwhole hfraction he neg]
  obtain ⟨d, whole, rfl⟩ := List.exists_cons_of_ne_nil hne
  obtain ⟨hd, hwhole⟩ := List.forall_mem_cons.1 hwhole
  cases neg with
  | true => exact readLiteral_negative (isDigit_digitChar d hd)
  | false =>
    refine readLiteral_unsigned (isDigit_digitChar d hd) fun hx => ?_
    rcases List.mem_append.1 hx with hx | hx
    · rcases List.mem_append.1 hx with hx | hx
      · exact absurd (isDigit_of_mem_digits hwhole hx) (by decide)
      · exact absurd (mem_fractionText hfraction hx) (by decide)
    · exact absurd (mem_exponentText he hx) (by decide)

/-- The hexadecimal digits of a pattern. -/
def hexDigits (bits : F32) : List Nat := (List.range 8).map fun i => bits.toNat / 16 ^ (7 - i) % 16

theorem patternDigits_eq (bits : F32) : patternDigits bits = (hexDigits bits).map Nat.digitChar := by
  rw [hexDigits, List.map_map]
  rfl

theorem hexDigits_lt (bits : F32) : ∀ d ∈ hexDigits bits, d < 16 := by
  intro d hd
  obtain ⟨i, -, rfl⟩ := List.mem_map.1 hd
  exact Nat.mod_lt _ (by decide)

theorem digitsIn_hexDigits (bits : F32) : digitsIn 16 (hexDigits bits) = bits.toNat := by
  have := bits.isLt
  simp [digitsIn, hexDigits, List.range_succ]
  omega

/-- Eight characters that stand for the hexadecimal digits of a pattern are read as the pattern. -/
theorem readValue_hexDigits (bits : F32) {f : Nat → Char}
    (hf : ∀ d < 16, digitValue (f d) = some d) :
    readValue ('0' :: 'x' :: (hexDigits bits).map f) = some bits := by
  have hread : readDigits 16 ((hexDigits bits).map f) = some (digitsIn 16 (hexDigits bits)) :=
    readDigits_map (by simp [hexDigits]) fun d hd =>
      ⟨hexDigits_lt bits d hd, hf d (hexDigits_lt bits d hd)⟩
  have hlen : ((hexDigits bits).map f).length = 8 := by simp [hexDigits]
  simp [readValue, readLiteral, hlen, hread, digitsIn_hexDigits, literalBits]

/-- Settles O60: each form is read as its literal, and a decimal one is rounded correctly
(`literalBits_decimal_isRoundedNearest`). -/
theorem literalForms : Obligations.LiteralForms := by
  refine ⟨literalBits_decimal_isRoundedNearest, ?_, fun bits => ⟨rfl, ?_, ?_⟩, rfl, rfl, rfl⟩
  · intro neg whole fraction exponent hne hds he
    obtain ⟨hwhole, hfraction⟩ := List.forall_mem_append.1 hds
    refine ⟨_, congrArg (Option.map literalBits)
      (readLiteral_decimalText hne hwhole hfraction he neg), ?_⟩
    rw [decimalValue_eq]
    exact literalBits_decimal_isRoundedNearest neg _ _
  · rw [patternDigits_eq]
    exact readValue_hexDigits bits digitValue_digitChar
  · rw [patternDigits_eq, List.map_map]
    exact readValue_hexDigits bits digitValue_toUpper_digitChar

end Sys2Proof.Proofs
end

section
/-! PROOFS. What the commands of the smoother do to their channel and leave of everything else (40_smoother.md R67 to R74, R84). One equation per command says its whole effect once its checks pass; each statement is a use of it. -/

open Sys2Proof Sys2Proof.Machine Sys2Proof.Certificates

namespace Sys2Proof.Proofs

/-! ### Order and sign of binary32 values -/

theorem value_lt_iff {x y : F32} : value x < value y ↔ scaled x < scaled y := by
  rw [← not_le, value_le_iff, not_le]

theorem value_eq_iff {x y : F32} : value x = value y ↔ scaled x = scaled y := by
  rw [le_antisymm_iff, value_le_iff, value_le_iff, ← le_antisymm_iff]

theorem value_nonneg_iff {x : F32} : 0 ≤ value x ↔ 0 ≤ scaled x := by
  rw [← value_posZero, value_le_iff, show scaled Config.posZero = 0 by decide]

theorem value_pos_iff {x : F32} : 0 < value x ↔ 0 < scaled x := by
  rw [← value_posZero, value_lt_iff, show scaled Config.posZero = 0 by decide]

/-- A value that is not negative is its magnitude. -/
theorem value_eq_magnitude_of_nonneg {x : F32} (h : 0 ≤ value x) : value x = magnitude x / 2 ^ 149 := by
  have hmag : scaled x = magnitude x := by
    rw [value_nonneg_iff] at h
    unfold scaled at h ⊢
    split_ifs at h ⊢ <;> omega
  rw [value, hmag, Int.cast_natCast]

/-! ### Writing one channel -/

@[simp] theorem channelWritten_channel_self (s : State) (c : Chan) (k : Channel) :
    (channelWritten s c k).channel c = k :=
  (State.respond_channel _ 0#4 0#32 c).trans (State.setChannel_channel_self s c k)

theorem channelWritten_channel_of_ne (s : State) {c d : Chan} (h : d ≠ c) (k : Channel) :
    (channelWritten s c k).channel d = s.channel d :=
  (State.respond_channel _ 0#4 0#32 d).trans (State.setChannel_channel_of_ne s h k)

@[simp] theorem channelWritten_port (s : State) (c : Chan) (k : Channel) :
    (channelWritten s c k).port = s.port := State.setChannel_port s c k

theorem exec_init {s : State} {c : Chan} {fs x : F32} {n : Nat} (hport : s.port = .pa)
    (hn : configuredLength fs x = some n) :
    exec (.init c fs x) s = .next (channelWritten s c (initChannel n)) := by
  rw [exec, execInit, guardPort_of_accepts _ (by rw [hport]; rfl)]
  rw [hn]
  rfl

section Ready

variable {s : State} {c : Chan} (hport : s.port = .pa) (hready : (s.channel c).ready = true)
include hport hready

theorem exec_advance (n : U32) :
    exec (.advance c n) s =
      .next (channelWritten s c (advanceChannel (s.channel c) n.toNat)) := by
  rw [exec, execAdvance, guardPort_of_accepts _ (by rw [hport]; rfl), guardReady_of_ready _ hready]
  rfl

theorem exec_update (g : F32) :
    exec (.update c g) s =
      .next (channelWritten s c (registerReading (s.channel c) (gainToDb g))) := by
  rw [exec, execUpdate, guardPort_of_accepts _ (by rw [hport]; rfl), guardReady_of_ready _ hready]
  rfl

end Ready

/-! ### INIT (R67, R68) -/

/-- The integer ceiling of the model is that of the exact product (R68). -/
theorem rampLength_eq_ceil {fs x : F32} (hfs : 0 ≤ value fs) (hx : 0 ≤ value x) :
    rampLength fs x = ⌈value fs * value x⌉₊ := by
  refine eq_of_forall_ge_iff fun k => ?_
  rw [rampLength, divCeil_le_iff (by positivity), Nat.ceil_le, value_eq_magnitude_of_nonneg hfs,
    value_eq_magnitude_of_nonneg hx, div_mul_div_comm, div_le_iff₀ (by positivity)]
  norm_cast

/-- Settles O25: the ceiling is the model's for all operands, the rule's values by evaluation. -/
theorem rampLengthIsCeiling : Obligations.RampLengthIsCeiling :=
  ⟨fun _ _ => rampLength_eq_ceil, by decide, by decide, by decide, by decide, by decide⟩

/-- Operands that meet R67 pass INIT's checks. -/
theorem configuredLength_of_valid {fs x : F32} (h : InitOperandsValid fs x) :
    configuredLength fs x = some ⌈value fs * value x⌉₊ := by
  obtain ⟨⟨hfs, hfs0⟩, ⟨hx, hx0⟩, hmax⟩ := h
  rw [← rampLength_eq_ceil hfs0.le hx0] at hmax ⊢
  have hrate : rateValid fs = true := by simp [rateValid, hfs, value_pos_iff.1 hfs0]
  have htime : timeValid x = true := by simp [timeValid, hx, value_nonneg_iff.1 hx0]
  simp only [configuredLength, hrate, htime, Config.nMax, hmax, Bool.and_self, decide_true, if_true]

/-- Settles O24: valid operands pass the checks with the exact ceiling as length. -/
theorem initSettlesChannel : Obligations.InitSettlesChannel := by
  intro s c fs x hport hvalid
  exact exec_init hport (configuredLength_of_valid hvalid)

/-! ### A reading against the current value (R71, R72) -/

theorem isNaN_gainToDb (g : F32) : isNaN (gainToDb g) = false :=
  isNaN_of_isFinite (gainToDb_range g).1

/-- Attack: a reading not below the current value settles the channel on it. -/
theorem registerReading_attack {k : Channel} {v : F32} (hcur : isFinite k.cur = true)
    (hv : isNaN v = false) (h : value k.cur ≤ value v) : registerReading k v = settledAt k v := by
  have hlt : ¬ f32Lt v k.cur = true := by
    rw [f32Lt_iff hv (isNaN_of_isFinite hcur), ← value_lt_iff, not_lt]
    exact h
  rw [registerReading, if_neg hlt]

/-- Release: a reading below the current value becomes the target. -/
theorem registerReading_release {k : Channel} {v : F32} (hcur : isFinite k.cur = true)
    (hv : isNaN v = false) (h : value v < value k.cur) : registerReading k v = setTarget k v := by
  have hlt : f32Lt v k.cur = true := by
    rw [f32Lt_iff hv (isNaN_of_isFinite hcur), ← value_lt_iff]
    exact h
  rw [registerReading, if_pos hlt]

/-- The three cases of SET_TARGET, the present target compared by value (R72). -/
theorem setTarget_eq {k : Channel} {v : F32} (htgt : isFinite k.tgt = true) (hv : isNaN v = false) :
    setTarget k v =
      if value v = value k.tgt then k
      else if k.len = 0 then settledAt k v
      else { k with org := k.cur, tgt := v, cnt := k.len } := by
  simp only [setTarget, f32Eq_iff hv (isNaN_of_isFinite htgt), value_eq_iff]

/-- Settles O31: the attack branch. -/
theorem updateAttacksAtOnce : Obligations.UpdateAttacksAtOnce := by
  intro s c g hport hready hcur h
  rw [exec_update hport hready, registerReading_attack hcur (isNaN_gainToDb g) h]
  rfl

/-- Settles O32: the release branch with the three cases of SET_TARGET. -/
theorem updateReleases : Obligations.UpdateReleases := by
  intro s c g hport hready hcur htgt h
  rw [exec_update hport hready, registerReading_release hcur (isNaN_gainToDb g) h,
    setTarget_eq htgt (isNaN_gainToDb g)]
  rfl

/-! ### GETCUR (R73, R74) -/

/-- Settles O40: either port may issue GETCUR, and it only responds. -/
theorem getcurReadsCurrent : Obligations.GetcurReadsCurrent := fun _ _ => rfl

/-- Settles O38: the attack leaves the reading in `cur`, and GETCUR reads it. -/
theorem instantAttackIsRead : Obligations.InstantAttackIsRead := by
  intro s c g hport hready hcur h
  refine ⟨_, updateAttacksAtOnce s c g hport hready hcur h, fun p => ?_⟩
  rw [getcurReadsCurrent]
  cases c <;> rfl

/-! ### Independence of the channels (R84) -/

/-- The command names channel c: INIT, ADVANCE, UPDATE or GETCUR. -/
def NamesChannel (c : Chan) (i : Instr) : Prop :=
  (∃ x y, i = .init c x y) ∨ (∃ n, i = .advance c n) ∨ (∃ g, i = .update c g) ∨ i = .getcur c

/-- A command of channel c does not write another channel. -/
theorem exec_other_channel {c d : Chan} (hd : d ≠ c) {i : Instr} (hi : NamesChannel c i)
    {s t : State} (h : exec i s = .next t) : t.channel d = s.channel d := by
  rcases exec_channel h d with heq | ⟨k, -, hk⟩
  · exact heq
  · rcases hi with ⟨x, y, rfl⟩ | ⟨n, rfl⟩ | ⟨g, rfl⟩ | rfl <;> cases hk <;> exact absurd rfl hd

/-- Two states that agree on channel c and on what a response needs. -/
structure AgreeOnChannel (c : Chan) (s s' : State) : Prop where
  channel : s'.channel c = s.channel c
  port : s'.port = s.port
  responses : s'.responses = s.responses

section AgreeOnChannel

variable {c : Chan} {s s' : State} (h : AgreeOnChannel c s s')
include h

theorem AgreeOnChannel.respond (code : BitVec 4) (data : BitVec 32) :
    AgreeOnChannel c (s.respond code data) (s'.respond code data) := by
  constructor <;> simp [h.channel, h.port, h.responses]

theorem AgreeOnChannel.raiseError (x : Cause) :
    AgreeOnChannel c (s.raiseError x) (s'.raiseError x) := by
  constructor <;> simp [h.channel, h.port, h.responses]

theorem AgreeOnChannel.setChannel (k : Channel) :
    AgreeOnChannel c (s.setChannel c k) (s'.setChannel c k) := by
  constructor <;> simp [h.port, h.responses]

/-- A command of channel c that passes the port check reads no other channel. -/
theorem AgreeOnChannel.accepted {i : Instr} (hi : NamesChannel c i) {t t' : State}
    (ht : Accepted i s t) (ht' : Accepted i s' t') : AgreeOnChannel c t t' := by
  rcases hi with ⟨x, y, rfl⟩ | ⟨n, rfl⟩ | ⟨g, rfl⟩ | rfl
  · rcases ht with ⟨n, hn, rfl⟩ | ⟨hn, rfl⟩ <;> rcases ht' with ⟨n', hn', rfl⟩ | ⟨hn', rfl⟩
    · obtain rfl : n' = n := Option.some.inj (hn'.symm.trans hn)
      exact (h.setChannel _).respond _ _
    · simp [hn] at hn'
    · simp [hn] at hn'
    · exact h.raiseError _
  iterate 2
    rcases ht with ⟨hr, rfl⟩ | ⟨hr, rfl⟩ <;> rcases ht' with ⟨hr', rfl⟩ | ⟨hr', rfl⟩
    · rw [h.channel]; exact (h.setChannel _).respond _ _
    · simp [h.channel, hr] at hr'
    · simp [h.channel, hr] at hr'
    · exact h.raiseError _
  · cases ht; cases ht'
    rw [h.channel]
    exact h.respond _ _

theorem AgreeOnChannel.exec {i : Instr} (hi : NamesChannel c i) {t t' : State}
    (ht : exec i s = .next t) (ht' : exec i s' = .next t') : AgreeOnChannel c t t' := by
  rcases exec_cases ht with ⟨ha, rfl⟩ | ⟨ha, hacc⟩ <;>
    rcases exec_cases ht' with ⟨ha', rfl⟩ | ⟨ha', hacc'⟩
  · exact h.raiseError _
  · simp [h.port, ha] at ha'
  · simp [h.port, ha] at ha'
  · exact h.accepted hi hacc hacc'

end AgreeOnChannel

/-- Settles O53: the other channel is not written (`exec_other_channel`), and two states that differ in
it agree on channel c before and after. -/
theorem channelsAreIndependent : Obligations.ChannelsAreIndependent := by
  intro s c d k x y hd i hi
  have hname : NamesChannel c i := by
    simp only [List.mem_cons, List.not_mem_nil, or_false] at hi
    rcases hi with rfl | rfl | rfl | rfl
    exacts [.inl ⟨x, y, rfl⟩, .inr (.inl ⟨x, rfl⟩), .inr (.inr (.inl ⟨x, rfl⟩)),
      .inr (.inr (.inr rfl))]
  have hagree : AgreeOnChannel c s (s.setChannel d k) :=
    ⟨State.setChannel_channel_of_ne s hd.symm k, by simp, by simp⟩
  obtain ⟨t, ht⟩ := exec_next i s
  obtain ⟨t', ht'⟩ := exec_next i (s.setChannel d k)
  have hafter := hagree.exec hname ht ht'
  refine ⟨t, t', ht, ht', exec_other_channel hd hname ht, ?_, hafter.channel, hafter.responses⟩
  rw [exec_other_channel hd hname ht', State.setChannel_channel_self]

end Sys2Proof.Proofs
end

section
/-! PROOFS. The ramp (40_smoother.md R69, R70, R75, R79): `rampValue_isRoundedUp` ties RAMP to the exact point of the line, and `Released` says what a channel holds some samples into a release, which ADVANCE and a reading at the target keep. -/

open Sys2Proof Sys2Proof.Machine Sys2Proof.Certificates

namespace Sys2Proof.Proofs

/-! ### RAMP is the line rounded up (R70) -/

/-- The exact point of the line from o to t, in the units of the numerator. -/
theorem line_le_value_iff {o t z : F32} {n e : Nat} (hn : 0 < n) :
    value o + (value t - value o) * (e : ℚ) / (n : ℚ) ≤ value z ↔
      rampNumerator o t n e ≤ scaled z * n := by
  have hn' : (0 : ℚ) < n := by exact_mod_cast hn
  have hline : value o + (value t - value o) * (e : ℚ) / (n : ℚ) =
      (rampNumerator o t n e : ℚ) / n / 2 ^ 149 := by
    unfold value rampNumerator
    push_cast
    field_simp
  rw [hline, value, div_le_div_iff_of_pos_right (by positivity), div_le_iff₀ hn']
  exact_mod_cast Iff.rfl

section RampUse

variable {o t : F32} {n e : Nat} (h : RampUse o t n e)
include h

theorem rampValue_isRoundedUp :
    IsRoundedUp (value o + (value t - value o) * (e : ℚ) / (n : ℚ)) (rampValue o t n e) := by
  obtain ⟨hfin, hge, hleast⟩ := rampValue_spec h
  have hn : 0 < n := Nat.zero_lt_of_lt h.inside
  refine ⟨hfin, (line_le_value_iff hn).2 hge, fun z hz hle => ?_⟩
  exact value_le_iff.2 (hleast z hz ((line_le_value_iff hn).1 hle))

/-- RAMP does not rise as the ramp goes on (R70). -/
theorem rampValue_antitone {e' : Nat} (hle : e ≤ e') (hlt : e' < n) :
    value (rampValue o t n e') ≤ value (rampValue o t n e) := by
  obtain ⟨hfin, hge, -⟩ := rampValue_spec h
  obtain ⟨-, -, hleast⟩ := rampValue_spec (e := e') { h with inside := hlt }
  have hnum : rampNumerator o t n e' ≤ rampNumerator o t n e :=
    add_le_add_right (mul_le_mul_of_nonpos_left (by exact_mod_cast hle)
      (sub_nonpos.2 h.descends.le)) _
  exact value_le_iff.2 (hleast _ hfin (hnum.trans hge))

end RampUse

/-- Settles O28: rounding up keeps the line between the target and the origin, both representable. -/
theorem rampDescendsWithoutOvershoot : Obligations.RampDescendsWithoutOvershoot := by
  intro o t n e ho ht hlt he
  have h : RampUse o t n e := ⟨ho, ht, value_lt_iff.1 hlt, he⟩
  obtain ⟨habove, hbelow⟩ := rampValue_bounds h
  exact ⟨rampValue_isRoundedUp h, value_lt_iff.2 habove, value_le_iff.2 hbelow,
    fun e' => rampValue_antitone h, rampValue_zero ho (Nat.zero_lt_of_lt he)⟩

/-! ### ADVANCE (R69) -/

theorem advanceChannel_of_cnt_le {k : Channel} {n : Nat} (h : k.cnt ≤ n) :
    advanceChannel k n = { k with cur := k.tgt, cnt := 0 } := if_pos h

theorem advanceChannel_of_lt_cnt {k : Channel} {n : Nat} (h : n < k.cnt) :
    advanceChannel k n =
      { k with cnt := k.cnt - n, cur := rampValue k.org k.tgt k.len (k.len - (k.cnt - n)) } :=
  if_neg (Nat.not_le.2 h)

/-- A ramp in progress uses RAMP as R70 says. -/
theorem rampUse_of_inv {k : Channel} (h : k.Inv) {n : Nat} (hn : n < k.cnt) :
    RampUse k.org k.tgt k.len (k.len - (k.cnt - n)) := by
  obtain ⟨-, htgt, horg, -, -, -, hramp, -⟩ := h
  obtain ⟨hlen, -, hdesc, -⟩ := hramp (Nat.zero_lt_of_lt hn)
  exact ⟨horg, htgt, hdesc, by omega⟩

/-- Settles O26: the first branch of ADVANCE. -/
theorem advanceEndsRamp : Obligations.AdvanceEndsRamp := by
  intro s c n hport hready hcnt
  rw [exec_advance hport hready, advanceChannel_of_cnt_le hcnt]

/-- Settles O27: the second branch of ADVANCE, where the invariant gives what RAMP needs. -/
theorem advanceFollowsLine : Obligations.AdvanceFollowsLine := by
  intro s c n hport hready hinv hn
  have huse := rampUse_of_inv hinv hn
  refine ⟨_, ?_, rampValue_isRoundedUp huse, fun hstart => ?_⟩
  · rw [exec_advance hport hready, advanceChannel_of_lt_cnt hn]
  · rw [hstart, Nat.sub_self]
    exact rampValue_zero huse.org (Nat.zero_lt_of_lt huse.inside)

/-! ### A new target and one ADVANCE (R79) -/

/-- A reading below `cur` that is not the present target starts a full ramp from `cur` (R72). -/
theorem registerReading_startsRamp {k : Channel} {v : F32} (hcur : isFinite k.cur = true)
    (htgt : isFinite k.tgt = true) (hv : isNaN v = false) (hlt : value v < value k.cur)
    (hne : value v ≠ value k.tgt) (hlen : k.len ≠ 0) :
    registerReading k v = { k with org := k.cur, tgt := v, cnt := k.len } := by
  rw [registerReading_release hcur hv hlt, setTarget_eq htgt hv, if_neg hne, if_neg hlen]

/-- Settles O39: the reading starts a full ramp from `cur`, and ADVANCE goes n of its N samples. -/
theorem retargetingIsFirstOrder : Obligations.RetargetingIsFirstOrder := by
  intro s c g n hport hready hinv hlt hne hn
  have ⟨hcur, htgt, _⟩ := hinv
  have huse : RampUse (s.channel c).cur (gainToDb g) (s.channel c).len n.toNat :=
    ⟨hcur, (gainToDb_range g).1, value_lt_iff.1 hlt, hn⟩
  have hstart := registerReading_startsRamp hcur htgt (isNaN_gainToDb g) hlt hne
    (Nat.ne_zero_of_lt hn)
  refine ⟨_, _, exec_update hport hready g, exec_advance ?_ ?_ n, ?_, ?_⟩
  · rw [channelWritten_port, hport]
  · rw [channelWritten_channel_self, registerReading_ready, hready]
  · rw [channelWritten_channel_self, hstart]
  · simp only [channelWritten_channel_self, hstart]
    rw [advanceChannel_of_lt_cnt hn]
    dsimp only
    rw [Nat.sub_sub_self hn.le]
    exact rampValue_isRoundedUp huse

/-! ### A release over any blocks (R75) -/

/-- A ramp of k has just started: all its samples are left and `cur` is its origin. -/
structure RampStart (k : Channel) : Prop where
  ready : k.ready = true
  inv : k.Inv
  pos : 0 < k.cnt
  full : k.cnt = k.len
  start : k.cur = k.org

theorem RampStart.use {k : Channel} (hk : RampStart k) {m : Nat} (hm : m < k.len) :
    RampUse k.org k.tgt k.len m := by
  have huse := rampUse_of_inv hk.inv (n := m) (by rw [hk.full]; exact hm)
  rwa [hk.full, Nat.sub_sub_self hm.le] at huse

/-- What a channel holds m samples after the ramp of k started: the ramp's point, or its target with no
ramp in progress. -/
inductive Released (k : Channel) (m : Nat) (k' : Channel) : Prop
  | onLine (hm : m < k.len)
      (heq : k' = { k with cnt := k.len - m, cur := rampValue k.org k.tgt k.len m })
  | landed (hm : k.len ≤ m) (hcur : k'.cur = k.tgt) (htgt : k'.tgt = k.tgt) (hcnt : k'.cnt = 0)
      (hready : k'.ready = true)

theorem released_zero {k : Channel} (hk : RampStart k) : Released k 0 k := by
  have hlen : 0 < k.len := hk.full ▸ hk.pos
  refine .onLine hlen ?_
  rw [rampValue_zero (hk.use hlen).org hlen, Nat.sub_zero]
  have hfull := hk.full
  have hstart := hk.start
  obtain ⟨cur, tgt, org, cnt, len, ready⟩ := k
  obtain rfl : cur = org := hstart
  obtain rfl : cnt = len := hfull
  rfl

section Released

variable {k k' : Channel} {m : Nat} (hk : RampStart k) (h : Released k m k')
include hk h

theorem Released.ready : k'.ready = true := by
  cases h with
  | onLine _ heq => rw [heq]; exact hk.ready
  | landed _ _ _ _ hready => exact hready

theorem Released.advance (n : Nat) : Released k (m + n) (advanceChannel k' n) := by
  cases h with
  | onLine hm heq =>
    subst heq
    by_cases hn : k.len - m ≤ n
    · rw [advanceChannel_of_cnt_le hn]
      exact .landed (by omega) rfl rfl rfl hk.ready
    · rw [advanceChannel_of_lt_cnt (Nat.not_le.1 hn)]
      refine .onLine (by omega) ?_
      dsimp only
      rw [Nat.sub_sub, Nat.sub_sub_self (by omega)]
  | landed hm hcur htgt hcnt hready =>
    rw [advanceChannel_of_cnt_le (hcnt ▸ Nat.zero_le n)]
    exact .landed (by omega) htgt htgt rfl hready

/-- A reading at the target leaves a ramp in progress alone and a landed channel on the target. -/
theorem Released.register : Released k m (registerReading k' k.tgt) := by
  have ⟨_, htgtfin, _⟩ := hk.inv
  have hnan := isNaN_of_isFinite htgtfin
  cases h with
  | onLine hm heq =>
    have huse := hk.use hm
    have htgt : k'.tgt = k.tgt := by rw [heq]
    have hcur : k'.cur = rampValue k.org k.tgt k.len m := by rw [heq]
    refine .onLine hm (Eq.trans ?_ heq)
    rw [registerReading_release (by rw [hcur]; exact (rampValue_spec huse).1) hnan
      (by rw [hcur]; exact value_lt_iff.2 (rampValue_bounds huse).1),
      setTarget_eq (by rw [htgt]; exact htgtfin) hnan, if_pos (by rw [htgt])]
  | landed hm hcur htgt hcnt hready =>
    rw [registerReading_attack (by rw [hcur]; exact htgtfin) hnan (by rw [hcur])]
    exact .landed hm rfl rfl rfl hready

/-- The current value does not rise as the release goes on. -/
theorem Released.cur_antitone {m' : Nat} {k'' : Channel} (h' : Released k m' k'') (hle : m ≤ m') :
    value k''.cur ≤ value k'.cur := by
  cases h with
  | onLine hm heq =>
    cases h' with
    | onLine hm' heq' => rw [heq, heq']; exact rampValue_antitone (hk.use hm) hle hm'
    | landed _ hcur' =>
      rw [heq, hcur']
      exact value_le_iff.2 (rampValue_bounds (hk.use hm)).1.le
  | landed hm hcur =>
    cases h' with
    | onLine hm' => omega
    | landed _ hcur' => rw [hcur, hcur']

end Released

theorem run_succ {s t : State} (h : step s = .next t) (n : Nat) :
    Host.Core.run core (n + 1) s = Host.Core.run core n t := by
  have hcore : core.step s = .next t := h
  simp only [Host.Core.run, hcore]

/-- Running a list of inputs takes its first command and goes on with the rest (20_memory.md R39). -/
theorem after_command {s t : State} {p : Port} {i : Instr} {rest : List Input}
    (h : exec i (s.acceptCommand p rest) = .next t) :
    after s (.command p (encode i) :: rest) = after t rest := by
  have hstep : step { s with inputs := .command p (encode i) :: rest } = .next t := by
    rw [step_command rfl, execute_ok (decodeOfEncode i)]
    exact h
  have hinputs : t.inputs = rest := (exec_port_inputs h).2
  have hrest : ({ t with inputs := rest } : State) = t := by rw [← hinputs]
  rw [after, after, hrest, List.length_cons]
  exact run_succ hstep _

/-- One audio block moves the release on by its samples, its reading absent or at the target. -/
theorem after_block {k : Channel} (hk : RampStart k) {c : Chan} {s : State} {m : Nat}
    (h : Released k m (s.channel c)) (b : U32 × Option F32)
    (hb : ∀ g, b.2 = some g → gainToDb g = k.tgt) (rest : List Input) :
    ∃ t, after s (blockInputs c b ++ rest) = after t rest ∧
      Released k (m + b.1.toNat) (t.channel c) := by
  obtain ⟨n, reading⟩ := b
  have hadv := h.advance hk n.toNat
  have hexec (ins : List Input) := exec_advance (s := s.acceptCommand .pa ins) (c := c) rfl
    (by rw [State.acceptCommand_channel]; exact h.ready hk) n
  cases reading with
  | none =>
    refine ⟨_, after_command (hexec _), ?_⟩
    rwa [channelWritten_channel_self, State.acceptCommand_channel]
  | some g =>
    refine ⟨_, (after_command (hexec _)).trans
      (after_command (exec_update rfl ?_ g)), ?_⟩
    · rw [State.acceptCommand_channel, channelWritten_channel_self, State.acceptCommand_channel]
      exact hadv.ready hk
    · rw [channelWritten_channel_self, State.acceptCommand_channel, channelWritten_channel_self,
        State.acceptCommand_channel, hb g rfl]
      exact hadv.register hk

/-- Any blocks move the release on by the sum of their samples. -/
theorem after_blocks {k : Channel} (hk : RampStart k) {c : Chan} (blocks : List (U32 × Option F32))
    (hb : ∀ b ∈ blocks, ∀ g, b.2 = some g → gainToDb g = k.tgt) :
    ∀ {s : State} {m : Nat}, Released k m (s.channel c) →
      ∃ t, after s (blocks.flatMap (blockInputs c)) = .next t ∧
        Released k (m + (blocks.map fun b => b.1.toNat).sum) (t.channel c) := by
  induction blocks with
  | nil =>
    intro s m h
    exact ⟨{ s with inputs := [] }, rfl, by cases c <;> exact h⟩
  | cons b blocks ih =>
    intro s m h
    obtain ⟨hhead, htail⟩ := List.forall_mem_cons.1 hb
    obtain ⟨t, ht, hreleased⟩ := after_block hk h b hhead (blocks.flatMap (blockInputs c))
    obtain ⟨u, hu, hfinal⟩ := ih htail hreleased
    refine ⟨u, by rw [List.flatMap_cons, ht, hu], ?_⟩
    rwa [List.map_cons, List.sum_cons, ← Nat.add_assoc]

/-- Settles O30: blocks move the release on (`after_blocks`), and so does one more ADVANCE, from which
`cur` does not rise. -/
theorem releaseFollowsLineToTarget : Obligations.ReleaseFollowsLineToTarget := by
  intro s c blocks hready hinv hpos hfull hcur hb
  have hk : RampStart (s.channel c) := ⟨hready, hinv, hpos, hfull, hcur⟩
  obtain ⟨t, ht, hreleased⟩ := after_blocks hk blocks hb (released_zero hk)
  rw [Nat.zero_add] at hreleased
  refine ⟨t, ht, ?_, fun n => ?_⟩
  · cases hreleased with
    | onLine hm heq =>
      rw [if_pos hm, heq]
      obtain ⟨habove, hbelow⟩ := rampValue_bounds (hk.use hm)
      exact ⟨rfl, value_lt_iff.2 habove, value_le_iff.2 hbelow⟩
    | landed hm hlanded => rw [if_neg (Nat.not_lt.2 hm), hlanded]
  · have hchan : ({ t with port := .pa } : State).channel c = t.channel c := by cases c <;> rfl
    have hu := exec_advance (s := { t with port := .pa }) (c := c) rfl
      (by rw [hchan]; exact hreleased.ready hk) n
    rw [hchan] at hu
    refine ⟨_, hu, ?_⟩
    rw [channelWritten_channel_self]
    exact hreleased.cur_antitone hk (hreleased.advance hk n.toNat) (Nat.le_add_right _ _)

end Sys2Proof.Proofs
end

section
/-! PROOFS. The order of the binary32 data (00_scope.md R11): a datum has a rank, its pattern with its sign, the value grows strictly with the rank, and the next value above or below is one rank away. Twice the midpoint of the two neighbours of a rank, `midUnits`, decides which values are nearest to a point (40_smoother.md R66, L4). -/

open Sys2Proof Sys2Proof.Machine Sys2Proof.Certificates

namespace Sys2Proof.Proofs

/-! ### Ranks -/

/-- The place of a datum among the binary32 values: bits 30:0 with the sign of bit 31. -/
def rank (x : F32) : Int :=
  if isNegative x then -((x.toNat % 2 ^ 31 : Nat) : Int) else ((x.toNat % 2 ^ 31 : Nat) : Int)

/-- The value of a rank in units of 2^-149. -/
def rankUnits (r : Int) : Int :=
  if r < 0 then -(patternUnits r.natAbs : Int) else patternUnits r.natAbs

@[simp] theorem rankUnits_zero : rankUnits 0 = 0 := rfl

theorem rankUnits_natCast (p : Nat) : rankUnits p = patternUnits p := by
  rw [rankUnits, if_neg (by omega), Int.natAbs_natCast]

@[simp] theorem rankUnits_neg (r : Int) : rankUnits (-r) = -rankUnits r := by
  unfold rankUnits
  rw [Int.natAbs_neg]
  rcases lt_trichotomy r 0 with h | rfl | h
  · rw [if_neg (by omega), if_pos h, neg_neg]
  · rfl
  · rw [if_pos (by omega), if_neg (by omega)]

theorem scaled_eq_rankUnits (x : F32) : scaled x = rankUnits (rank x) := by
  unfold scaled rank
  rw [magnitude_eq_patternUnits]
  split
  · rw [rankUnits_neg, rankUnits_natCast]
  · rw [rankUnits_natCast]

theorem rankUnits_strictMono : StrictMono rankUnits := by
  refine strictMono_int_of_lt_succ fun r => ?_
  rcases Int.eq_nat_or_neg r with ⟨p, rfl | rfl⟩
  · rw [← Nat.cast_succ, rankUnits_natCast, rankUnits_natCast, Nat.cast_lt]
    exact patternUnits_lt_succ p
  · rcases p with - | p
    · decide
    · rw [show -((p + 1 : Nat) : Int) + 1 = -(p : Int) by omega, rankUnits_neg, rankUnits_neg,
        rankUnits_natCast, rankUnits_natCast, Int.neg_lt_neg_iff, Nat.cast_lt]
      exact patternUnits_lt_succ p

theorem rank_le_iff {x y : F32} : rank x ≤ rank y ↔ scaled x ≤ scaled y := by
  rw [scaled_eq_rankUnits, scaled_eq_rankUnits, rankUnits_strictMono.le_iff_le]

theorem rank_eq_iff {x y : F32} : rank x = rank y ↔ scaled x = scaled y := by
  rw [scaled_eq_rankUnits, scaled_eq_rankUnits, rankUnits_strictMono.injective.eq_iff]

/-- Only the two zeros share a rank. -/
theorem eq_of_rank_eq {x y : F32} (h : rank x = rank y) (h0 : rank x ≠ 0) : x = y := by
  refine scaled_injective_of_ne_zero (rank_eq_iff.1 h) fun hx => h0 ?_
  rw [scaled_eq_rankUnits, ← rankUnits_zero] at hx
  exact rankUnits_strictMono.injective hx

theorem natAbs_rank (x : F32) : (rank x).natAbs = x.toNat % 2 ^ 31 := by
  unfold rank
  split
  · rw [Int.natAbs_neg, Int.natAbs_natCast]
  · rw [Int.natAbs_natCast]

@[simp] theorem rank_f32Neg (x : F32) : rank (f32Neg x) = -rank x := by
  unfold rank
  obtain ⟨hpattern, hneg⟩ := f32Neg_toNat x
  rw [hpattern, hneg]
  cases isNegative x <;> simp

/-- The next value above is one rank higher, across zero too. -/
theorem rank_nextUp {x : F32} (hx : x.toNat % 2 ^ 31 < 2 ^ 31 - 1) :
    rank (nextUp x) = rank x + 1 := by
  have hzero : magnitude x = 0 ↔ x.toNat % 2 ^ 31 = 0 := by
    rw [magnitude_eq_patternUnits]
    exact patternUnits_strictMono.injective.eq_iff' patternUnits_zero
  have hlt := x.isLt
  unfold nextUp rank
  simp only [isNegative_iff, decide_eq_true_eq, hzero]
  split_ifs <;> bv_omega

theorem rank_nextDown {x : F32} (hx : x.toNat % 2 ^ 31 < 2 ^ 31 - 1) :
    rank (nextDown x) = rank x - 1 := by
  rw [nextDown, rank_f32Neg, rank_nextUp (by rwa [(f32Neg_toNat x).1]), rank_f32Neg]
  omega

/-! ### Midpoints of neighbours -/

/-- Twice the midpoint of the two neighbours of a rank, in units of 2^-149. -/
def midUnits (r : Int) : Int := rankUnits (r - 1) + rankUnits (r + 1)

theorem midUnits_strictMono : StrictMono midUnits := fun r r' h =>
  add_lt_add (rankUnits_strictMono (by omega)) (rankUnits_strictMono (by omega))

/-- The steps between magnitudes do not shrink away from zero. -/
theorem patternUnits_convex (p : Nat) :
    2 * patternUnits (p + 1) ≤ patternUnits p + patternUnits (p + 2) := by
  obtain ⟨e, m, rfl, hm, hl⟩ := pattern_split p
  rw [Nat.add_assoc, patternUnits_step e m (by omega) hl,
    patternUnits_step e (m + 1) (by omega) (by omega)]
  rcases Nat.lt_or_ge (m + 1) (2 ^ 24) with h | h
  · rw [Nat.add_assoc, patternUnits_step e (m + 2) (by omega) (by omega)]
    exact le_of_eq (by ring)
  · rw [show e * 2 ^ 23 + m + 2 = (e + 1) * 2 ^ 23 + (2 ^ 23 + 1) by omega,
      patternUnits_step (e + 1) (2 ^ 23 + 1) (by omega) (by omega)]
    calc 2 * ((m + 1) * 2 ^ e) = (2 * m + 2) * 2 ^ e := by ring
      _ ≤ (m + 2 * (2 ^ 23 + 1)) * 2 ^ e := Nat.mul_le_mul_right _ (by omega)
      _ = m * 2 ^ e + (2 ^ 23 + 1) * 2 ^ (e + 1) := by ring

/-- From zero on, the midpoint of the neighbours does not lie below the value between them: beside a
power of two the values are denser on the side of zero. -/
theorem two_mul_rankUnits_le_midUnits {r : Int} (hr : 0 ≤ r) : 2 * rankUnits r ≤ midUnits r := by
  obtain ⟨p, rfl⟩ := Int.eq_ofNat_of_zero_le hr
  rcases p with - | p
  · decide
  · have h := patternUnits_convex p
    rw [midUnits, show ((p + 1 : Nat) : Int) - 1 = (p : Nat) by omega,
      show ((p + 1 : Nat) : Int) + 1 = ((p + 2 : Nat) : Int) by omega]
    simp only [rankUnits_natCast]
    exact_mod_cast h

/-- A rank whose midpoint interval holds x lies at or above every c with x at or above rank c + 1. -/
theorem le_of_rankUnits_le {r c x : Int} (hx : 2 * x < midUnits (r + 1)) (hc : rankUnits (c + 1) ≤ x) :
    c ≤ r := by
  by_contra hlt
  have hmid := midUnits_strictMono.monotone (show r + 1 ≤ c by omega)
  have hstep := rankUnits_strictMono (show c - 1 < c + 1 by omega)
  unfold midUnits at hmid hx
  omega

theorem le_of_lt_rankUnits {r c x : Int} (hx : midUnits r ≤ 2 * x) (hc : x < rankUnits c) : r ≤ c := by
  by_contra hlt
  have hmid := midUnits_strictMono.monotone (show c + 1 ≤ r by omega)
  have hstep := rankUnits_strictMono (show c < c + 2 by omega)
  unfold midUnits at hmid hx
  rw [show c + 1 - 1 = c by omega, show c + 1 + 1 = c + 2 by omega] at hmid
  omega

/-- Values of a magnitude from 2^-26 on are multiples of 2^-49. -/
theorem rankUnits_dvd {r : Int} (hr : 101 * 2 ^ 23 ≤ r.natAbs) : (2 ^ 100 : Int) ∣ rankUnits r := by
  have hdvd : 2 ^ 100 ∣ patternUnits r.natAbs := by
    rw [patternUnits, if_neg (by omega)]
    exact Dvd.dvd.mul_left (pow_dvd_pow 2 (by omega)) _
  have hdvd' : (2 ^ 100 : Int) ∣ (patternUnits r.natAbs : Int) := by exact_mod_cast hdvd
  unfold rankUnits
  split
  · exact (dvd_neg).2 hdvd'
  · exact hdvd'

end Sys2Proof.Proofs
end

section
/-! PROOFS. LOG10 (40_smoother.md R66). `logIndex` is tied to the real logarithm (`logIndex_floor`), the lower of the two nearest values to the ranks of binary32 (`lowerNearest_spec`), and a power of ten to its whole logarithm (`log10_of_powerOfTen`); faithfulness and monotonicity are read off these three. -/

open Sys2Proof Sys2Proof.Machine Sys2Proof.Certificates

namespace Sys2Proof.Proofs

/-! ### The index of a gain and its real logarithm -/

/-- The logarithm of an index, in units of 2^-149: the exact logarithm rounded down to 50 places. -/
def indexUnits (k : Nat) : Int := ((k : Int) - 45 * 2 ^ logPlaces) * 2 ^ 99

theorem indexUnits_le_iff {k k' : Nat} : indexUnits k ≤ indexUnits k' ↔ k ≤ k' := by
  rw [indexUnits, indexUnits, mul_le_mul_iff_left₀ (by positivity)]
  omega

/-- A power of a number between two consecutive powers of ten places its logarithm. -/
theorem logb_bounds_of_pow {v : ℚ} {k m : Nat} (hv : 0 < v) (hlo : (10 : ℚ) ^ k ≤ v ^ m)
    (hhi : v ^ m < (10 : ℚ) ^ (k + 1)) :
    (k : ℝ) ≤ m * Real.logb 10 v ∧ m * Real.logb 10 v < k + 1 := by
  have hlo' : (10 : ℝ) ^ k ≤ (v : ℝ) ^ m := by exact_mod_cast hlo
  have hhi' : (v : ℝ) ^ m < (10 : ℝ) ^ (k + 1) := by exact_mod_cast hhi
  have hv' : (0 : ℝ) < v := by exact_mod_cast hv
  have hten : (1 : ℝ) < 10 := by norm_num
  have hk := Real.logb_le_logb_of_le hten (by positivity) hlo'
  have hk' := Real.logb_lt_logb hten (by positivity) hhi'
  rw [Real.logb_pow, Real.logb_pow, Real.logb_self_eq_one hten, mul_one] at hk hk'
  exact ⟨hk, by exact_mod_cast hk'⟩

section Gain

variable {g : F32} (hfin : isFinite g = true) (hpos : 0 < value g)
include hpos

theorem magnitude_pos_of_value_pos : 0 < magnitude g := by
  refine Nat.pos_of_ne_zero fun h0 => hpos.ne' ?_
  rw [value_eq_magnitude_of_nonneg hpos.le, h0, Nat.cast_zero, zero_div]

theorem realValue_pos : 0 < realValue g := by
  unfold realValue
  exact_mod_cast hpos

theorem liftedGain_eq : (liftedGain g : ℚ) / 2 ^ 149 = value g * 10 ^ 45 := by
  rw [value_eq_magnitude_of_nonneg hpos.le, liftedGain]
  push_cast
  ring

theorem logb_liftedGain :
    Real.logb 10 (((liftedGain g : ℚ) / 2 ^ 149 : ℚ) : ℝ) = Real.logb 10 (realValue g) + 45 := by
  have hreal := realValue_pos hpos
  have hlift : Real.logb 10 ((10 : ℝ) ^ 45) = 45 := by
    rw [Real.logb_pow, Real.logb_self_eq_one (by norm_num), mul_one]
    norm_num
  rw [liftedGain_eq hpos, Rat.cast_mul, Rat.cast_pow, Rat.cast_ofNat,
    ← realValue, Real.logb_mul hreal.ne' (by positivity), hlift]

include hfin

/-- `logIndex` is the whole part of (log10(val(g)) + 45) x 2^50 over the reals. -/
theorem logIndex_floor :
    (logIndex g : ℝ) ≤ 2 ^ 50 * (Real.logb 10 (realValue g) + 45) ∧
      2 ^ 50 * (Real.logb 10 (realValue g) + 45) < logIndex g + 1 := by
  obtain ⟨hlo, hhi⟩ := logIndex_spec (magnitude_pos_of_value_pos hpos) hfin
  have hv : (0 : ℚ) < (liftedGain g : ℚ) / 2 ^ 149 := by
    rw [liftedGain_eq hpos]; positivity
  have h := logb_bounds_of_pow hv hlo hhi
  rw [logb_liftedGain hpos] at h
  exact_mod_cast h

/-- The index rounds the exact logarithm down by less than 2^-50. -/
theorem indexUnits_bounds :
    (indexUnits (logIndex g) : ℝ) ≤ Real.logb 10 (realValue g) * 2 ^ 149 ∧
      Real.logb 10 (realValue g) * 2 ^ 149 < indexUnits (logIndex g) + 2 ^ 99 := by
  obtain ⟨hlo, hhi⟩ := logIndex_floor hfin hpos
  rw [indexUnits, logPlaces]
  push_cast
  constructor <;> linarith

end Gain

section TwoGains

variable {g g' : F32} (hfin : isFinite g = true) (hfin' : isFinite g' = true)
  (hpos : 0 < value g)
include hfin hfin' hpos

theorem logIndex_mono (hle : value g ≤ value g') : logIndex g ≤ logIndex g' := by
  have hlog : Real.logb 10 (realValue g) ≤ Real.logb 10 (realValue g') :=
    Real.logb_le_logb_of_le (by norm_num) (realValue_pos hpos) (Rat.cast_le.2 hle)
  obtain ⟨hlo, -⟩ := logIndex_floor hfin hpos
  obtain ⟨-, hhi⟩ := logIndex_floor hfin' (hpos.trans_le hle)
  have hlt : (logIndex g : ℝ) < logIndex g' + 1 := by linarith
  exact Nat.lt_succ_iff.1 (by exact_mod_cast hlt)

end TwoGains

/-! ### The two nearest values of an index -/

/-- `log10OfIndex` is the greatest finite value not above the logarithm of the index. -/
theorem log10OfIndex_spec (k : Nat) :
    isFinite (log10OfIndex k) = true ∧ scaled (log10OfIndex k) ≤ indexUnits k ∧
      ∀ w, isFinite w = true → scaled w ≤ indexUnits k → scaled w ≤ scaled (log10OfIndex k) := by
  have hneg : (45 * 2 ^ logPlaces - (k : Int)) * 2 ^ 99 = -indexUnits k := by
    rw [indexUnits]; ring
  have hmax : -indexUnits k ≤ (patternUnits 0x7F7FFFFF : Nat) * (1 : Nat) := by
    rw [indexUnits, patternUnits_fltMax, logPlaces]
    have : (0 : Int) ≤ k := Int.natCast_nonneg k
    push_cast
    omega
  obtain ⟨hfin, hge, hleast⟩ := rndUp_spec true one_pos hmax
  rw [log10OfIndex, hneg]
  simp only [Nat.cast_one, mul_one] at hge hleast
  refine ⟨by rw [isFinite_f32Neg]; exact hfin, by rw [scaled_f32Neg]; omega, fun w hw hle => ?_⟩
  have h := hleast (f32Neg w) (by rw [isFinite_f32Neg]; exact hw) (by rw [scaled_f32Neg]; omega)
  rw [scaled_f32Neg] at h ⊢
  omega

theorem logBelowMidpoint_iff (k : Nat) (x y : F32) :
    logBelowMidpoint k x y = true ↔ 2 * indexUnits k < scaled x + scaled y := by
  rw [logBelowMidpoint, decide_eq_true_iff, indexUnits]
  constructor <;> intro h <;> linarith

section Index

variable {k : Nat} (hk : k < 84 * 2 ^ logPlaces)
include hk

/-- The logarithm of the index lies between `log10OfIndex` and the next value above. -/
theorem log10OfIndex_bounds :
    rankUnits (rank (log10OfIndex k)) ≤ indexUnits k ∧
      indexUnits k < rankUnits (rank (log10OfIndex k) + 1) := by
  have hpattern := log10OfIndex_pattern_le hk
  obtain ⟨-, hle, hgreatest⟩ := log10OfIndex_spec k
  rw [scaled_eq_rankUnits] at hle
  refine ⟨hle, ?_⟩
  rw [← rank_nextUp (by omega), ← scaled_eq_rankUnits]
  by_contra hge
  have hnext := nextUp_pattern_le (log10OfIndex k)
  have h := hgreatest _ ((isFinite_iff _).2 (by omega)) (not_lt.1 hge)
  rw [← rank_le_iff, rank_nextUp (by omega)] at h
  omega

/-- The lower of the two nearest values is the one whose midpoint interval holds the logarithm. -/
theorem lowerNearest_spec :
    midUnits (rank (lowerNearest k)) ≤ 2 * indexUnits k ∧
      2 * indexUnits k < midUnits (rank (lowerNearest k) + 1) := by
  have hpattern := log10OfIndex_pattern_le hk
  have hnext := nextUp_pattern_le (log10OfIndex k)
  obtain ⟨hlo, hhi⟩ := log10OfIndex_bounds hk
  have hdown : rank (nextDown (log10OfIndex k)) = rank (log10OfIndex k) - 1 :=
    rank_nextDown (by omega)
  have hup : rank (nextUp (log10OfIndex k)) = rank (log10OfIndex k) + 1 := rank_nextUp (by omega)
  have hup2 : rank (nextUp (nextUp (log10OfIndex k))) = rank (log10OfIndex k) + 1 + 1 := by
    rw [rank_nextUp (by omega), hup]
  have hmono {r r' : Int} (h : r < r') : rankUnits r < rankUnits r' := rankUnits_strictMono h
  unfold lowerNearest
  simp only [logBelowMidpoint_iff, scaled_eq_rankUnits, hdown, hup, hup2]
  split_ifs with hbelow hat
  · rw [hdown, midUnits, midUnits, sub_add_cancel]
    have := hmono (show rank (log10OfIndex k) - 1 - 1 < rank (log10OfIndex k) by omega)
    omega
  · rw [midUnits, midUnits, add_sub_cancel_right]
    omega
  · rw [hup, midUnits, midUnits, add_sub_cancel_right, add_sub_cancel_right]
    have := hmono (show rank (log10OfIndex k) + 1 < rank (log10OfIndex k) + 1 + 1 + 1 by omega)
    omega

theorem rank_nextUp_lowerNearest :
    rank (nextUp (lowerNearest k)) = rank (lowerNearest k) + 1 := by
  have hpattern := log10OfIndex_pattern_le hk
  have hlower := lowerNearest_pattern_le k
  exact rank_nextUp (by omega)

/-- Where both nearest values lie at or below the logarithm, the upper is `log10OfIndex`, which is then
no zero: the values beside zero are evenly spaced. -/
theorem nextUp_lowerNearest_eq (h : rank (lowerNearest k) < rank (log10OfIndex k)) :
    nextUp (lowerNearest k) = log10OfIndex k ∧ rank (log10OfIndex k) ≠ 0 := by
  obtain ⟨hlo, -⟩ := log10OfIndex_bounds hk
  obtain ⟨-, hhi⟩ := lowerNearest_spec hk
  have hrank : rank (log10OfIndex k) = rank (lowerNearest k) + 1 := by
    refine le_antisymm ?_ h
    by_contra hlt
    have h1 := rankUnits_strictMono.monotone
      (show rank (lowerNearest k) + 2 ≤ rank (log10OfIndex k) by omega)
    have h2 := rankUnits_strictMono (show rank (lowerNearest k) < rank (lowerNearest k) + 2 by omega)
    rw [midUnits, add_sub_cancel_right, add_assoc] at hhi
    norm_num at hhi
    omega
  have hne : rank (log10OfIndex k) ≠ 0 := by
    intro h0
    rw [h0, rankUnits_zero] at hlo
    rw [← hrank, h0] at hhi
    have hmid : midUnits 0 = 0 := by decide
    omega
  exact ⟨(eq_of_rank_eq (hrank.trans (rank_nextUp_lowerNearest hk).symm) hne).symm, hne⟩

end Index

theorem lowerNearest_mono {k k' : Nat} (hk : k < 84 * 2 ^ logPlaces) (hk' : k' < 84 * 2 ^ logPlaces)
    (hle : k ≤ k') : rank (lowerNearest k) ≤ rank (lowerNearest k') := by
  obtain ⟨hlo, -⟩ := lowerNearest_spec hk
  obtain ⟨-, hhi⟩ := lowerNearest_spec hk'
  have hunits := indexUnits_le_iff.2 hle
  have hlt : midUnits (rank (lowerNearest k)) < midUnits (rank (lowerNearest k') + 1) := by omega
  exact Int.lt_add_one_iff.1 (midUnits_strictMono.lt_iff_lt.1 hlt)

end Sys2Proof.Proofs
end

section
/-! PROOFS. LOG10 at the powers of ten and between them (40_smoother.md R66, L1 to L4). At a power of ten it is the whole logarithm (`log10_of_powerOfTen`); elsewhere the logarithm is no binary32 value, it keeps away from zero, and LOG10 is one of the two values nearest to it. -/

open Sys2Proof Sys2Proof.Machine Sys2Proof.Certificates

namespace Sys2Proof.Proofs

/-! ### Powers of ten among the gains -/

/-- A magnitude has at most 24 bits. -/
theorem magnitude_eq_significand (x : F32) : ∃ m e, magnitude x = m * 2 ^ e ∧ m < 2 ^ 24 := by
  obtain ⟨e, m, hp, hm, hl⟩ := pattern_split (x.toNat % 2 ^ 31)
  exact ⟨m, e, by rw [magnitude_eq_patternUnits, hp, patternUnits_step e m hm.le hl], hm⟩

/-- No negative power of ten is a binary32 value, and 10^10 is the last whole one: 5^11 needs more
than 24 bits. -/
theorem exponent_of_powerOfTen {m e d : Nat} (hm : m < 2 ^ 24) (hpos : 0 < m)
    (h : m * 2 ^ e * 10 ^ 45 = 2 ^ 149 * 10 ^ d) : ∃ n ≤ 10, d = 45 + n := by
  have hge : 45 ≤ d := by
    by_contra hlt
    obtain ⟨j, hj⟩ := Nat.exists_eq_add_of_lt (Nat.not_le.1 hlt)
    have hcancel : m * 2 ^ e * 10 ^ (j + 1) = 2 ^ 149 := by
      refine Nat.eq_of_mul_eq_mul_right (show 0 < 10 ^ d by positivity) ?_
      rw [← h, hj]
      ring
    have hdvd : 5 ∣ 2 ^ 149 := by
      rw [← hcancel, pow_succ]
      exact Dvd.dvd.mul_left (Dvd.dvd.mul_left (by decide) _) _
    exact absurd (Nat.prime_five.dvd_of_dvd_pow hdvd) (by decide)
  obtain ⟨n, rfl⟩ := Nat.exists_eq_add_of_le hge
  refine ⟨n, ?_, rfl⟩
  have hcancel : m * 2 ^ e = 2 ^ 149 * 10 ^ n := by
    refine Nat.eq_of_mul_eq_mul_right (show 0 < 10 ^ 45 by positivity) (h.trans ?_)
    ring
  have hdvd : 5 ^ n ∣ m * 2 ^ e := by
    rw [hcancel]
    exact Dvd.dvd.mul_left (pow_dvd_pow_of_dvd (by decide) n) _
  have hcop : Nat.Coprime (5 ^ n) (2 ^ e) := Nat.Coprime.pow n e (by decide)
  have hle : 5 ^ n < 5 ^ 11 :=
    calc 5 ^ n ≤ m := Nat.le_of_dvd hpos (hcop.dvd_of_dvd_mul_right hdvd)
      _ < 5 ^ 11 := hm.trans (by decide)
  exact Nat.lt_succ_iff.1 ((Nat.pow_lt_pow_iff_right (by decide)).1 hle)

theorem f32OfNat_whole : ∀ n ≤ 10,
    isFinite (f32OfNat n) = true ∧ scaled (f32OfNat n) = (n : Int) * 2 ^ 149 := by decide

/-- A datum of a whole value from 1 to 10 is one of those `isWholeLog` looks for. -/
theorem isWholeLog_of_scaled {x : F32} {n : Nat} (hn : n ≤ 10) (hx : scaled x = (n : Int) * 2 ^ 149)
    (h0 : rank x ≠ 0) : isWholeLog x = true := by
  have heq : x = f32OfNat n :=
    eq_of_rank_eq (rank_eq_iff.2 (hx.trans (f32OfNat_whole n hn).2.symm)) h0
  rw [isWholeLog, List.any_eq_true]
  exact ⟨n, List.mem_range.2 (by omega), by rw [heq]; exact beq_self_eq_true _⟩

theorem logb_of_value_eq_pow {g : F32} {n : Nat} (h : value g = 10 ^ n) :
    Real.logb 10 (realValue g) = n := by
  rw [realValue, h, Rat.cast_pow, Rat.cast_ofNat, Real.logb_pow,
    Real.logb_self_eq_one (by norm_num), mul_one]

theorem log10_of_not_powerOfTen {g : F32} (hten : isPowerOfTen g = false) :
    log10 g = log10Choice Config.log10Split g (logIndex g) := by
  rw [log10, log10With, hten, if_neg Bool.false_ne_true]

section Gain

variable {g : F32} (hfin : isFinite g = true) (hpos : 0 < value g)
include hfin hpos

theorem isPowerOfTen_iff : isPowerOfTen g = true ↔ ∃ d, liftedGain g = 2 ^ 149 * 10 ^ d := by
  have hmag := magnitude_pos_of_value_pos hpos
  rw [isPowerOfTen, if_neg hmag.ne', beq_iff_eq]
  refine ⟨fun h => ⟨_, h⟩, fun ⟨d, hd⟩ => ?_⟩
  obtain ⟨hlo, hhi⟩ := decimalExponent_spec hmag hfin
  rw [hd] at hlo hhi ⊢
  have h1 := (Nat.pow_le_pow_iff_right (by decide)).1 (Nat.le_of_mul_le_mul_left hlo (by positivity))
  have h2 := (Nat.pow_lt_pow_iff_right (by decide)).1 (Nat.lt_of_mul_lt_mul_left hhi)
  rw [show d = decimalExponent g by omega]

/-- The gains that are powers of ten are 10^0 to 10^10. -/
theorem value_of_powerOfTen (hten : isPowerOfTen g = true) :
    ∃ n : ℕ, n ≤ 10 ∧ value g = 10 ^ n := by
  obtain ⟨d, hd⟩ := (isPowerOfTen_iff hfin hpos).1 hten
  obtain ⟨m, e, hmag, hm⟩ := magnitude_eq_significand g
  have hm0 : 0 < m := Nat.pos_of_mul_pos_right (hmag ▸ magnitude_pos_of_value_pos hpos)
  obtain ⟨n, hn, hdn⟩ := exponent_of_powerOfTen hm hm0 (by rw [← hmag]; exact hd)
  refine ⟨n, hn, ?_⟩
  have hlift := liftedGain_eq hpos
  rw [hd, hdn, Nat.cast_mul, Nat.cast_pow, Nat.cast_pow, Nat.cast_ofNat, Nat.cast_ofNat,
    mul_div_cancel_left₀ _ (by positivity), pow_add, mul_comm] at hlift
  exact (mul_right_cancel₀ (by positivity) hlift).symm

theorem indexUnits_of_value_eq_pow {n : Nat} (h : value g = 10 ^ n) :
    indexUnits (logIndex g) = (n : Int) * 2 ^ 149 := by
  obtain ⟨hlo, hhi⟩ := logIndex_floor hfin hpos
  rw [logb_of_value_eq_pow h] at hlo hhi
  have hlo' : logIndex g ≤ 2 ^ 50 * (n + 45) := by exact_mod_cast hlo
  have hhi' : 2 ^ 50 * (n + 45) < logIndex g + 1 := by exact_mod_cast hhi
  have hindex : logIndex g = 2 ^ 50 * (n + 45) := by omega
  rw [indexUnits, hindex, logPlaces]
  push_cast
  ring

/-- At a power of ten LOG10 is the whole logarithm itself, and so is the index (L4, log 2). -/
theorem log10_of_powerOfTen (hten : isPowerOfTen g = true) :
    ∃ n : ℕ, n ≤ 10 ∧ value g = 10 ^ n ∧ indexUnits (logIndex g) = (n : Int) * 2 ^ 149 ∧
      scaled (log10 g) = (n : Int) * 2 ^ 149 := by
  obtain ⟨n, hn, hvalue⟩ := value_of_powerOfTen hfin hpos hten
  have hindex := indexUnits_of_value_eq_pow hfin hpos hvalue
  refine ⟨n, hn, hvalue, hindex, ?_⟩
  obtain ⟨hwhole, hunits⟩ := f32OfNat_whole n hn
  obtain ⟨-, hle, hgreatest⟩ := log10OfIndex_spec (logIndex g)
  rw [log10, log10With, if_pos hten, log10Below]
  refine le_antisymm (hindex ▸ hle) ?_
  rw [← hunits]
  exact hgreatest _ hwhole (by rw [hunits, hindex])

theorem logIndex_lt_of_gain : logIndex g < 84 * 2 ^ logPlaces :=
  logIndex_lt (magnitude_pos_of_value_pos hpos) hfin

/-! ### Away from the powers of ten -/

theorem rank_log10_of_not_powerOfTen (hten : isPowerOfTen g = false) :
    rank (log10 g) = rank (lowerNearest (logIndex g)) ∨
      rank (log10 g) = rank (lowerNearest (logIndex g)) + 1 := by
  rw [log10_of_not_powerOfTen hten]
  rcases log10Choice_eq Config.log10Split g (logIndex g) with ⟨h, -⟩ | ⟨h, -⟩ <;> rw [h]
  · exact .inl rfl
  · exact .inr (rank_nextUp_lowerNearest (logIndex_lt_of_gain hfin hpos))

/-- The gains next to 1 are 1 - 2^-24 and 1 + 2^-23. -/
theorem realValue_away_from_one (hten : isPowerOfTen g = false) :
    1 + 2⁻¹ ^ 23 ≤ realValue g ∨ realValue g ≤ 1 - 2⁻¹ ^ 24 := by
  have hreal : realValue g = (magnitude g : ℝ) / 2 ^ 149 := by
    rw [realValue, value_eq_magnitude_of_nonneg hpos.le]
    push_cast
    rfl
  have hne : magnitude g ≠ 2 ^ 149 := by
    intro h
    have hone : isPowerOfTen g = true :=
      (isPowerOfTen_iff hfin hpos).2 ⟨45, by rw [liftedGain, h]⟩
    rw [hone] at hten
    cases hten
  have hunits : patternUnits 0x3F800000 = 2 ^ 149 := by decide
  have hbelow : patternUnits 0x3F7FFFFF = 2 ^ 149 - 2 ^ 125 := by decide
  have habove : patternUnits 0x3F800001 = 2 ^ 149 + 2 ^ 126 := by decide
  rw [magnitude_eq_patternUnits, ← hunits, patternUnits_strictMono.injective.ne_iff] at hne
  rw [hreal, magnitude_eq_patternUnits]
  rcases Nat.lt_or_gt_of_ne hne with h | h
  · right
    have hle : patternUnits (g.toNat % 2 ^ 31) ≤ patternUnits 0x3F7FFFFF :=
      patternUnits_le_iff.2 (by omega)
    rw [hbelow] at hle
    have hle' : (patternUnits (g.toNat % 2 ^ 31) : ℝ) ≤ ((2 ^ 149 - 2 ^ 125 : Nat) : ℝ) :=
      Nat.cast_le.2 hle
    rw [div_le_iff₀ (by positivity)]
    refine hle'.trans (le_of_eq ?_)
    norm_num
  · left
    have hge : patternUnits 0x3F800001 ≤ patternUnits (g.toNat % 2 ^ 31) :=
      patternUnits_le_iff.2 (by omega)
    rw [habove] at hge
    have hge' : ((2 ^ 149 + 2 ^ 126 : Nat) : ℝ) ≤ patternUnits (g.toNat % 2 ^ 31) :=
      Nat.cast_le.2 hge
    rw [le_div_iff₀ (by positivity)]
    refine le_trans (le_of_eq ?_) hge'
    norm_num

/-- Off 1.0 the logarithm keeps away from zero. -/
theorem logb_away_from_zero (hten : isPowerOfTen g = false) :
    2⁻¹ ^ 24 / 3 ≤ Real.logb 10 (realValue g) ∨ Real.logb 10 (realValue g) ≤ -(2⁻¹ ^ 24 / 3) := by
  have hreal := realValue_pos hpos
  have hten' : (0 : ℝ) < Real.log 10 := Real.log_pos (by norm_num)
  have hthree : Real.log 10 ≤ 3 := by
    rw [Real.log_ten_eq]
    linarith [Real.log_two_lt_d9, Real.log_five_lt_d9]
  rw [Real.logb, div_le_iff₀ hten', le_div_iff₀ hten']
  rcases realValue_away_from_one hfin hpos hten with h | h
  · left
    have hinv : (realValue g)⁻¹ ≤ (1 + 2⁻¹ ^ 23)⁻¹ := inv_anti₀ (by positivity) h
    have hlog := Real.one_sub_inv_le_log_of_pos hreal
    norm_num at hinv hlog ⊢
    linarith
  · right
    have hlog := Real.log_le_sub_one_of_pos hreal
    norm_num at h hlog ⊢
    linarith

/-- The lower of the two nearest values and the values around it are at least 2^-26 in magnitude. -/
theorem lowerNearest_away_from_zero (hten : isPowerOfTen g = false) :
    101 * 2 ^ 23 ≤ rank (lowerNearest (logIndex g)) ∨
      rank (lowerNearest (logIndex g)) + 2 ≤ -(101 * 2 ^ 23) := by
  obtain ⟨hlo, hhi⟩ := indexUnits_bounds hfin hpos
  obtain ⟨hlower, hupper⟩ := lowerNearest_spec (logIndex_lt_of_gain hfin hpos)
  rcases logb_away_from_zero hfin hpos hten with h | h
  · left
    have hunits : rankUnits (101 * 2 ^ 23 + 1) = 2 ^ 123 + 2 ^ 100 := by decide
    refine le_of_rankUnits_le hupper ?_
    have hge : ((2 ^ 123 + 2 ^ 100 : Int) : ℝ) ≤ indexUnits (logIndex g) := by
      norm_num at h hhi ⊢
      linarith
    rw [hunits]
    exact Int.cast_le.1 hge
  · right
    have hunits : rankUnits (-(101 * 2 ^ 23) - 2) = -(2 ^ 123 + 2 * 2 ^ 100) := by decide
    have hlt : (indexUnits (logIndex g) : ℝ) < ((-(2 ^ 123 + 2 * 2 ^ 100) : Int) : ℝ) := by
      norm_num at h hlo ⊢
      linarith
    rw [Int.cast_lt, ← hunits] at hlt
    have := le_of_lt_rankUnits hlower hlt
    omega

/-- The midpoint interval of the lower nearest value holds the exact logarithm as it holds the index:
the values there are multiples of 2^-49, and no rounding to 50 places passes their midpoint. -/
theorem lowerNearest_encloses (hten : isPowerOfTen g = false) :
    (midUnits (rank (lowerNearest (logIndex g))) : ℝ) ≤
        2 * (Real.logb 10 (realValue g) * 2 ^ 149) ∧
      2 * (Real.logb 10 (realValue g) * 2 ^ 149) <
        midUnits (rank (lowerNearest (logIndex g)) + 1) := by
  obtain ⟨hlo, hhi⟩ := indexUnits_bounds hfin hpos
  obtain ⟨hlower, hupper⟩ := lowerNearest_spec (logIndex_lt_of_gain hfin hpos)
  have haway := lowerNearest_away_from_zero hfin hpos hten
  generalize rank (lowerNearest (logIndex g)) = r at *
  have hlower' : (midUnits r : ℝ) ≤ 2 * indexUnits (logIndex g) := by exact_mod_cast hlower
  refine ⟨by linarith, ?_⟩
  have hdvd : (2 ^ 100 : Int) ∣ midUnits (r + 1) :=
    dvd_add (rankUnits_dvd (by omega)) (rankUnits_dvd (by omega))
  have hindex : (2 ^ 100 : Int) ∣ 2 * indexUnits (logIndex g) :=
    ⟨(logIndex g : Int) - 45 * 2 ^ logPlaces, by rw [indexUnits]; ring⟩
  have hstep : 2 * indexUnits (logIndex g) + 2 ^ 100 ≤ midUnits (r + 1) := by
    have := Int.le_of_dvd (by omega) (dvd_sub hdvd hindex)
    omega
  have hstep' : (2 * indexUnits (logIndex g) + 2 ^ 100 : ℝ) ≤ midUnits (r + 1) := by
    exact_mod_cast hstep
  linarith

end Gain

end Sys2Proof.Proofs
end

section
/-! PROOFS. The properties L1 to L4 of LOG10, for every choice of its free value (40_smoother.md R66). -/

open Sys2Proof Sys2Proof.Machine Sys2Proof.Certificates

namespace Sys2Proof.Proofs

theorem value_le_of_rank_le {x y : F32} (h : rank x ≤ rank y) : value x ≤ value y :=
  value_le_iff.2 (rank_le_iff.1 h)

/-! ### Monotone: L2 -/

/-- A value above a gain is above every smaller gain. -/
theorem f32Lt_of_le {g g' y : F32} (hg : isNaN g = false) (hle : value g ≤ value g')
    (h : f32Lt g' y = true) : f32Lt g y = true := by
  simp only [f32Lt, Bool.and_eq_true, Bool.not_eq_true', decide_eq_true_eq] at h ⊢
  obtain ⟨⟨-, hy⟩, hlt⟩ := h
  exact ⟨⟨hg, hy⟩, (value_le_iff.1 hle).trans_lt hlt⟩

/-- Where the two nearest values lie below the logarithm and the upper is whole, LOG10 is the upper. -/
theorem log10Choice_of_whole {split : F32 → F32} {g : F32} {k : Nat}
    (heq : nextUp (lowerNearest k) = log10OfIndex k)
    (hwhole : isWholeLog (nextUp (lowerNearest k)) = true) :
    log10Choice split g k = nextUp (lowerNearest k) :=
  if_pos ⟨heq, hwhole⟩

/-- With the lower nearest value in common, the choice between the two does not fall as the gain
grows: the free value is one switch point, and the exception for a whole upper value lasts. -/
theorem log10Choice_mono_of_lower_eq {split : F32 → F32} {g g' : F32} {k k' : Nat}
    (hk' : k' < 84 * 2 ^ logPlaces) (hle : k ≤ k') (hlower : lowerNearest k = lowerNearest k')
    (hg : isNaN g = false) (hgg : value g ≤ value g') :
    rank (log10Choice split g k) ≤ rank (log10Choice split g' k') := by
  have hup := rank_nextUp_lowerNearest hk'
  rcases log10Choice_eq split g k with ⟨h, -⟩ | ⟨h, hcause⟩
  · rcases log10Choice_eq split g' k' with ⟨h', -⟩ | ⟨h', -⟩ <;> rw [h, h', hlower]
    omega
  · rcases log10Choice_eq split g' k' with ⟨h', hbelow⟩ | ⟨h', -⟩
    · rcases hcause with ⟨heq, hwhole⟩ | habove
      · have hmono : rank (log10OfIndex k) ≤ rank (log10OfIndex k') := by
          obtain ⟨hfin, hunits, -⟩ := log10OfIndex_spec k
          obtain ⟨-, -, hgreatest⟩ := log10OfIndex_spec k'
          exact rank_le_iff.2 (hgreatest _ hfin (hunits.trans (indexUnits_le_iff.2 hle)))
        rw [hlower] at heq hwhole
        rw [← heq, hup] at hmono
        obtain ⟨heq', -⟩ := nextUp_lowerNearest_eq hk' (by omega)
        rw [h, hlower, log10Choice_of_whole heq' hwhole]
      · rw [hlower] at habove
        rw [f32Lt_of_le hg hgg hbelow] at habove
        cases habove
    · rw [h, h', hlower]

theorem indexUnits_lt_of_lt_pow {g : F32} (hfin : isFinite g = true) (hpos : 0 < value g) {n : Nat}
    (hlt : value g < 10 ^ n) : indexUnits (logIndex g) < (n : Int) * 2 ^ 149 := by
  obtain ⟨hfloor, -⟩ := indexUnits_bounds hfin hpos
  have hlt' : realValue g < 10 ^ n := by
    rw [realValue]
    exact_mod_cast hlt
  have hlog : Real.logb 10 (realValue g) < n := by
    have h := Real.logb_lt_logb (b := 10) (by norm_num) (realValue_pos hpos) hlt'
    rwa [Real.logb_pow, Real.logb_self_eq_one (by norm_num), mul_one] at h
  have h : (indexUnits (logIndex g) : ℝ) < n * 2 ^ 149 :=
    hfloor.trans_lt (mul_lt_mul_of_pos_right hlog (by positivity))
  exact_mod_cast h

section TwoGains

variable {g g' : F32} (hfin : isFinite g = true) (hfin' : isFinite g' = true)
  (hpos : 0 < value g) (hle : value g ≤ value g')
include hfin hfin' hpos hle

/-- Two powers of ten. -/
theorem log10_mono_of_powersOfTen (hten : isPowerOfTen g = true) (hten' : isPowerOfTen g' = true) :
    value (log10 g) ≤ value (log10 g') := by
  have hindex := indexUnits_le_iff.2 (logIndex_mono hfin hfin' hpos hle)
  obtain ⟨n, -, -, hn, hlog⟩ := log10_of_powerOfTen hfin hpos hten
  obtain ⟨n', -, -, hn', hlog'⟩ := log10_of_powerOfTen hfin' (hpos.trans_le hle) hten'
  rw [value_le_iff, hlog, hlog', ← hn, ← hn']
  exact hindex

/-- From a power of ten up: the lower nearest value may still lie below the whole logarithm, and then
L2 leaves the upper alone (`log10Choice_of_whole`). -/
theorem log10_mono_from_powerOfTen (hten : isPowerOfTen g = true) (hten' : isPowerOfTen g' = false) :
    value (log10 g) ≤ value (log10 g') := by
  have hpos' := hpos.trans_le hle
  have hk' := logIndex_lt_of_gain hfin' hpos'
  have hindex := indexUnits_le_iff.2 (logIndex_mono hfin hfin' hpos hle)
  obtain ⟨n, hn10, -, hn, hlog⟩ := log10_of_powerOfTen hfin hpos hten
  obtain ⟨-, hupper⟩ := lowerNearest_spec hk'
  obtain ⟨-, -, hgreatest⟩ := log10OfIndex_spec (logIndex g')
  have hfloor : rank (log10 g) ≤ rank (log10OfIndex (logIndex g')) := by
    refine rank_le_iff.2 (hgreatest _ (log10_range (magnitude_pos_of_value_pos hpos) hfin).1 ?_)
    rwa [hlog, ← hn]
  have hnear : rank (log10 g) ≤ rank (lowerNearest (logIndex g')) + 1 := by
    have hat : rankUnits (rank (log10 g)) ≤ indexUnits (logIndex g') := by
      rwa [← scaled_eq_rankUnits, hlog, ← hn]
    have := le_of_rankUnits_le (c := rank (log10 g) - 1) hupper (by rwa [sub_add_cancel])
    omega
  refine value_le_of_rank_le ?_
  rcases Int.lt_or_le (rank (lowerNearest (logIndex g'))) (rank (log10 g)) with hbelow | habove
  · obtain ⟨heq, hne⟩ := nextUp_lowerNearest_eq hk' (hbelow.trans_le hfloor)
    have hup := rank_nextUp_lowerNearest hk'
    have hrank : rank (log10 g) = rank (nextUp (lowerNearest (logIndex g'))) := by omega
    have hwhole := isWholeLog_of_scaled hn10 ((rank_eq_iff.1 hrank).symm.trans hlog) (heq ▸ hne)
    rw [log10_of_not_powerOfTen hten', log10Choice_of_whole heq hwhole, hrank]
  · rcases rank_log10_of_not_powerOfTen hfin' hpos' hten' with h | h <;> omega

/-- Up to a power of ten: beside a whole logarithm from 0 on, the values below are at least as dense as
those above, so that the upper nearest value does not pass it. -/
theorem log10_mono_to_powerOfTen (hten : isPowerOfTen g = false) (hten' : isPowerOfTen g' = true) :
    value (log10 g) ≤ value (log10 g') := by
  have hk := logIndex_lt_of_gain hfin hpos
  obtain ⟨n, -, hvalue, hn, hlog⟩ := log10_of_powerOfTen hfin' (hpos.trans_le hle) hten'
  obtain ⟨hlower, -⟩ := lowerNearest_spec hk
  have hunits : rankUnits (rank (log10 g')) = (n : Int) * 2 ^ 149 := by
    rw [← scaled_eq_rankUnits, hlog]
  have hrank0 : 0 ≤ rank (log10 g') := by
    rw [← rankUnits_strictMono.le_iff_le, rankUnits_zero, hunits]
    positivity
  have hlt : value g < value g' := by
    refine hle.lt_of_ne fun heq => ?_
    rw [scaled_injective_of_ne_zero (value_eq_iff.1 heq) (value_pos_iff.1 hpos).ne', hten'] at hten
    cases hten
  have hstrict := indexUnits_lt_of_lt_pow hfin hpos (hvalue ▸ hlt)
  have hbelow : rank (lowerNearest (logIndex g)) < rank (log10 g') := by
    by_contra hge
    have hmid := midUnits_strictMono.monotone (not_lt.1 hge)
    have hconvex := two_mul_rankUnits_le_midUnits hrank0
    omega
  refine value_le_of_rank_le ?_
  rcases rank_log10_of_not_powerOfTen hfin hpos hten with h | h <;> omega

/-- Between powers of ten: the lower nearest value grows with the index. -/
theorem log10_mono_off_powersOfTen (hten : isPowerOfTen g = false) (hten' : isPowerOfTen g' = false) :
    value (log10 g) ≤ value (log10 g') := by
  have hpos' := hpos.trans_le hle
  have hk := logIndex_lt_of_gain hfin hpos
  have hk' := logIndex_lt_of_gain hfin' hpos'
  have hindex := logIndex_mono hfin hfin' hpos hle
  refine value_le_of_rank_le ?_
  rcases (lowerNearest_mono hk hk' hindex).lt_or_eq with hlt | heq
  · rcases rank_log10_of_not_powerOfTen hfin hpos hten with h | h <;>
      rcases rank_log10_of_not_powerOfTen hfin' hpos' hten' with h' | h' <;> omega
  · have haway := lowerNearest_away_from_zero hfin hpos hten
    have hlower := eq_of_rank_eq heq (by omega)
    rw [log10_of_not_powerOfTen hten, log10_of_not_powerOfTen hten']
    exact log10Choice_mono_of_lower_eq hk' hindex hlower (isNaN_of_isFinite hfin) hle

end TwoGains

/-- Settles O36: by the four cases of which of the two gains is a power of ten. -/
theorem log10IsMonotone : Obligations.Log10IsMonotone := by
  intro g g' hfin hfin' hpos hle
  cases hten : isPowerOfTen g <;> cases hten' : isPowerOfTen g'
  · exact log10_mono_off_powersOfTen hfin hfin' hpos hle hten hten'
  · exact log10_mono_to_powerOfTen hfin hfin' hpos hle hten hten'
  · exact log10_mono_from_powerOfTen hfin hfin' hpos hle hten hten'
  · exact log10_mono_of_powersOfTen hfin hfin' hpos hle hten hten'

/-! ### Exact at a representable logarithm: L3 and L4 -/

/-- The value of a datum, as a real number, in units. -/
theorem realValue_eq (x : F32) : realValue x = (rankUnits (rank x) : ℝ) / 2 ^ 149 := by
  rw [realValue, value, scaled_eq_rankUnits]
  push_cast
  rfl

/-- A number of units whose power is a power of ten is a power of ten itself: the exponent of 5 is the
same on both sides. -/
theorem eq_powerOfTen_of_pow_eq {m a n : Nat} (hn : n ≠ 0) (h : m ^ n = 10 ^ a * (2 ^ 149) ^ n) :
    ∃ d, m = 2 ^ 149 * 10 ^ d := by
  have hsplit : 10 ^ a * (2 ^ 149) ^ n = 5 ^ a * 2 ^ (a + 149 * n) := by
    rw [show 10 = 5 * 2 from rfl, Nat.mul_pow, ← pow_mul, pow_add, Nat.mul_assoc]
  have hfive := congrArg (padicValNat 5) (h.trans hsplit)
  have hprime : Fact (Nat.Prime 5) := ⟨Nat.prime_five⟩
  rw [padicValNat.pow, padicValNat_mul_pow_left a _ (by decide)] at hfive
  refine ⟨padicValNat 5 m, Nat.pow_left_injective hn ?_⟩
  calc m ^ n = 10 ^ a * (2 ^ 149) ^ n := h
    _ = (2 ^ 149 * 10 ^ padicValNat 5 m) ^ n := by
      rw [← hfive, Nat.mul_pow, ← pow_mul 10, Nat.mul_comm n, Nat.mul_comm]

/-- A number of units whose decimal logarithm is rational is a power of ten. -/
theorem eq_powerOfTen_of_logb_eq {m n : Nat} {u : Int} (hn : n ≠ 0) (hm : 2 ^ 149 ≤ m)
    (h : Real.logb 10 ((m : ℝ) / 2 ^ 149) = (u : ℝ) / n) : ∃ d, m = 2 ^ 149 * 10 ^ d := by
  have hten : (1 : ℝ) < 10 := by norm_num
  have hn' : (0 : ℝ) < n := by exact_mod_cast Nat.pos_of_ne_zero hn
  have hone : (1 : ℝ) ≤ (m : ℝ) / 2 ^ 149 := by
    rw [le_div_iff₀ (by positivity), one_mul]
    exact_mod_cast hm
  have hpos : (0 : ℝ) < (m : ℝ) / 2 ^ 149 := by linarith
  have hu : 0 ≤ u := by
    have hlog := Real.logb_nonneg hten hone
    rw [h, le_div_iff₀ hn', zero_mul] at hlog
    exact_mod_cast hlog
  obtain ⟨a, rfl⟩ := Int.eq_ofNat_of_zero_le hu
  have hpow : ((m : ℝ) / 2 ^ 149) ^ n = 10 ^ a := by
    refine Real.logb_injOn_pos hten (pow_pos hpos n)
      (show (0 : ℝ) < 10 ^ a by positivity) ?_
    rw [Real.logb_pow, Real.logb_pow, Real.logb_self_eq_one hten, h, Int.cast_natCast, mul_one,
      mul_div_cancel₀ _ hn'.ne']
  rw [div_pow, div_eq_iff (by positivity)] at hpow
  exact eq_powerOfTen_of_pow_eq hn (by exact_mod_cast hpow)

section Gain

variable {g : F32} (hfin : isFinite g = true) (hpos : 0 < value g)
include hfin hpos

/-- Only a power of ten has a logarithm that is a binary32 value (log 2). -/
theorem isPowerOfTen_of_logb_eq {u : Int} (h : Real.logb 10 (realValue g) = (u : ℝ) / 2 ^ 149) :
    isPowerOfTen g = true := by
  have hlift := logb_liftedGain hpos
  have hunits : Real.logb 10 (realValue g) + 45 =
      ((u + 45 * 2 ^ 149 : Int) : ℝ) / ((2 ^ 149 : Nat) : ℝ) := by
    rw [h]
    push_cast
    ring
  rw [hunits, Rat.cast_div, Rat.cast_natCast, Rat.cast_pow, Rat.cast_ofNat] at hlift
  exact (isPowerOfTen_iff hfin hpos).2 (eq_powerOfTen_of_logb_eq (by positivity)
    (liftedGain_bounds (magnitude_pos_of_value_pos hpos) hfin).1 hlift)

theorem realValue_log10_of_powerOfTen (hten : isPowerOfTen g = true) :
    realValue (log10 g) = Real.logb 10 (realValue g) := by
  obtain ⟨n, -, hvalue, -, hlog⟩ := log10_of_powerOfTen hfin hpos hten
  rw [logb_of_value_eq_pow hvalue, realValue, value_eq_of_scaled hlog, Int.cast_natCast,
    Rat.cast_natCast]

end Gain

/-! ### One of the two nearest values: L4 -/

/-- Of the ranks, r and r + 1 are the two nearest to a point whose double lies in the midpoint interval
of r. -/
theorem nearest_two_ranks {r q : Int} {y : ℝ} (hlo : (midUnits r : ℝ) ≤ 2 * y)
    (hhi : 2 * y < midUnits (r + 1)) (hq : q ≠ r) (hq' : q ≠ r + 1) :
    |(rankUnits r : ℝ) - y| ≤ |(rankUnits q : ℝ) - y| ∧
      |(rankUnits (r + 1) : ℝ) - y| ≤ |(rankUnits q : ℝ) - y| := by
  have hcast {a b : Int} (h : a ≤ b) : (rankUnits a : ℝ) ≤ rankUnits b :=
    Int.cast_le.2 (rankUnits_strictMono.monotone h)
  have h1 := hcast (show r - 1 ≤ r by omega)
  have h2 := hcast (show r ≤ r + 1 by omega)
  have h3 := hcast (show r + 1 ≤ r + 1 + 1 by omega)
  rw [midUnits, Int.cast_add] at hlo hhi
  rw [add_sub_cancel_right] at hhi
  rcases Int.lt_or_le q r with hbelow | habove
  · have hfar := hcast (show q ≤ r - 1 by omega)
    rw [abs_of_nonpos (show (rankUnits q : ℝ) - y ≤ 0 by linarith)]
    constructor <;> rw [abs_le] <;> constructor <;> linarith
  · have hfar := hcast (show r + 1 + 1 ≤ q by omega)
    rw [abs_of_nonneg (show 0 ≤ (rankUnits q : ℝ) - y by linarith)]
    constructor <;> rw [abs_le] <;> constructor <;> linarith

/-- Distances of values from a real number, in units. -/
theorem abs_realValue_sub (x : F32) (y : ℝ) :
    |realValue x - y| = |(rankUnits (rank x) : ℝ) - y * 2 ^ 149| / 2 ^ 149 := by
  have hunit : (0 : ℝ) < 2 ^ 149 := by positivity
  rw [realValue_eq, eq_div_iff hunit.ne', ← abs_of_pos hunit, ← abs_mul, abs_of_pos hunit, sub_mul,
    div_mul_cancel₀ _ hunit.ne']

/-- `lowerNearest` and the next value above are the two nearest to the logarithm. -/
theorem nearest_two_values {g : F32} (hfin : isFinite g = true) (hpos : 0 < value g)
    (hten : isPowerOfTen g = false) (z : F32)
    (hz : value z ≠ value (lowerNearest (logIndex g)))
    (hz' : value z ≠ value (nextUp (lowerNearest (logIndex g)))) :
    |realValue (lowerNearest (logIndex g)) - Real.logb 10 (realValue g)| ≤
        |realValue z - Real.logb 10 (realValue g)| ∧
      |realValue (nextUp (lowerNearest (logIndex g))) - Real.logb 10 (realValue g)| ≤
        |realValue z - Real.logb 10 (realValue g)| := by
  have hup := rank_nextUp_lowerNearest (logIndex_lt_of_gain hfin hpos)
  obtain ⟨hlo, hhi⟩ := lowerNearest_encloses hfin hpos hten
  rw [ne_eq, value_eq_iff, ← rank_eq_iff] at hz hz'
  rw [hup] at hz'
  simp only [abs_realValue_sub, hup, div_le_div_iff_of_pos_right (show (0 : ℝ) < 2 ^ 149 by positivity)]
  exact nearest_two_ranks hlo hhi hz hz'

/-- Settles O35: exact at a power of ten, which alone has a representable logarithm, and elsewhere one of
the two nearest values. -/
theorem log10IsFaithful : Obligations.Log10IsFaithful := by
  refine ⟨by decide, fun g hfin hpos => ?_⟩
  refine ⟨(log10_range (magnitude_pos_of_value_pos hpos) hfin).1, ?_, ?_⟩
  · rintro ⟨y, -, hy⟩
    rw [realValue_eq] at hy
    exact realValue_log10_of_powerOfTen hfin hpos (isPowerOfTen_of_logb_eq hfin hpos hy.symm)
  · cases hten : isPowerOfTen g with
    | true => exact .inl (realValue_log10_of_powerOfTen hfin hpos hten)
    | false =>
      have hk := logIndex_lt_of_gain hfin hpos
      have hup := rank_nextUp_lowerNearest hk
      have hindex := log10OfIndex_pattern_le hk
      have hlower := lowerNearest_pattern_le (logIndex g)
      have hupper := nextUp_pattern_le (lowerNearest (logIndex g))
      refine .inr ⟨lowerNearest (logIndex g), nextUp (lowerNearest (logIndex g)), ?_, ?_, ?_,
        fun z _ => nearest_two_values hfin hpos hten z, ?_⟩
      · exact (isFinite_iff _).2 (by omega)
      · exact (isFinite_iff _).2 (by omega)
      · rw [ne_eq, value_eq_iff, ← rank_eq_iff, hup]
        omega
      · rw [log10_of_not_powerOfTen hten]
        rcases log10Choice_eq Config.log10Split g (logIndex g) with ⟨h, -⟩ | ⟨h, -⟩
        · exact .inl h
        · exact .inr h

end Sys2Proof.Proofs
end

section
/-! PROOFS. Gain to decibels and what UPDATE makes of it (40_smoother.md R65, R76, R77). One equation per kind of gain says what DB is; it is monotone because LOG10 and rounding are. -/

open Sys2Proof Sys2Proof.Machine Sys2Proof.Certificates

namespace Sys2Proof.Proofs

/-! ### DB by the kind of gain (R65) -/

theorem value_floorDb : value Config.floorDb = -100 := by
  simpa using value_eq_of_scaled (x := Config.floorDb) (n := -100) (by decide)

theorem f32Lt_posZero_iff {g : F32} :
    f32Lt Config.posZero g = true ↔ isNaN g = false ∧ 0 < value g := by
  rw [value_pos_iff]
  simp [f32Lt, show isNaN Config.posZero = false by decide, show scaled Config.posZero = 0 by decide]

theorem gainToDb_of_not_pos {g : F32} (h : ¬ f32Lt Config.posZero g = true) :
    gainToDb g = Config.floorDb := if_neg h

theorem gainToDb_posInf : gainToDb Config.posInf = Config.fltMax := by decide

/-- DB of a positive finite gain: 20 LOG10, raised to the floor. -/
theorem gainToDb_of_gain {g : F32} (hfin : isFinite g = true) (hpos : 0 < value g) :
    gainToDb g =
      if value (f32Mul Config.twenty (log10 g)) < -100 then Config.floorDb
      else f32Mul Config.twenty (log10 g) := by
  have hinf : g ≠ Config.posInf := by
    rintro rfl
    exact absurd hfin (by decide)
  have hr := isFinite_twenty_mul_log10 (magnitude_pos_of_value_pos hpos) hfin
  have hlt : f32Lt (f32Mul Config.twenty (log10 g)) Config.floorDb = true ↔
      value (f32Mul Config.twenty (log10 g)) < -100 := by
    rw [f32Lt_iff (isNaN_of_isFinite hr) (isNaN_of_isFinite isFinite_floorDb), ← value_lt_iff,
      value_floorDb]
  unfold gainToDb gainToDbWith
  dsimp only
  rw [if_pos (f32Lt_posZero_iff.2 ⟨isNaN_of_isFinite hfin, hpos⟩), if_neg hinf]
  simp only [hlt]

/-- The same as a value: the greater of the floor and 20 LOG10. -/
theorem value_gainToDb_of_gain {g : F32} (hfin : isFinite g = true) (hpos : 0 < value g) :
    value (gainToDb g) = max (-100) (value (f32Mul Config.twenty (log10 g))) := by
  rw [gainToDb_of_gain hfin hpos]
  split_ifs with h
  · rw [value_floorDb, max_eq_left h.le]
  · rw [max_eq_right (not_lt.1 h)]

/-- NaN, the zeros and the negative patterns are not above 0. -/
theorem gainToDb_of_not_positive {g : F32}
    (h : isNaN g = true ∨ magnitude g = 0 ∨ isNegative g = true) :
    gainToDb g = Config.floorDb := by
  refine gainToDb_of_not_pos fun hlt => ?_
  obtain ⟨hnan, hpos⟩ := f32Lt_posZero_iff.1 hlt
  rcases h with h | h | h
  · rw [h] at hnan
    cases hnan
  · exact (magnitude_pos_of_value_pos hpos).ne' h
  · rw [value_pos_iff, scaled, if_pos h] at hpos
    omega

/-- Settles O33: the kinds of gain in turn, the product rounded correctly. -/
theorem decibelsOfGain : Obligations.DecibelsOfGain := by
  intro g
  obtain ⟨hfinite, hfloor⟩ := gainToDb_range g
  refine ⟨gainToDb_of_not_positive, gainToDb_posInf, fun hfin hneg hmag => ?_, hfinite, ?_⟩
  · have hpos : 0 < value g := by
      rw [value_pos_iff, scaled, hneg, if_neg Bool.false_ne_true]
      omega
    refine ⟨gainToDb_of_gain hfin hpos, ?_⟩
    rw [← value_twenty]
    exact f32Mul_isRoundedNearest (by decide) (log10_range (Nat.pos_of_ne_zero hmag) hfin).1
  · rw [← value_floorDb]
    exact value_le_iff.2 hfloor

/-! ### UPDATE by its reading, and no NaN (R77) -/

/-- UPDATE registers the reading of the gain, or it is refused whatever the gain is (R71, R106, R107). -/
theorem exec_update_cases (c : Chan) (s : State) :
    (∀ g, exec (.update c g) s =
        .next (channelWritten s c (registerReading (s.channel c) (gainToDb g)))) ∨
      ∃ x, ∀ g, exec (.update c g) s = .next (s.raiseError x) := by
  cases hport : s.port with
  | pe =>
    refine .inr ⟨.portViolation, fun g => ?_⟩
    rw [exec, execUpdate, guardPort_of_not_accepts _ (by rw [hport]; rfl)]
  | pa =>
    cases hready : (s.channel c).ready with
    | true => exact .inl (exec_update hport hready)
    | false =>
      refine .inr ⟨.notInitialised, fun g => ?_⟩
      rw [exec, execUpdate, guardPort_of_accepts _ (by rw [hport]; rfl),
        guardReady_of_not_ready _ hready]

theorem exec_update_congr {g g' : F32} (h : gainToDb g = gainToDb g') (c : Chan) (s : State) :
    exec (.update c g) s = exec (.update c g') s := by
  rcases exec_update_cases c s with hexec | ⟨x, hexec⟩ <;> rw [hexec, hexec]
  rw [h]

/-- Settles O34: every channel a command leaves meets its invariant, and a NaN gain has the DB of 0. -/
theorem noNaNFromGains : Obligations.NoNaNFromGains := by
  refine ⟨isNaN_gainToDb, fun o t n e ho ht hlt he => ?_, fun i s t hl hr h c => ?_,
    fun s c g hg => ?_⟩
  · exact (rampValue_spec ⟨ho, ht, value_lt_iff.1 hlt, he⟩).1
  · have hinv : (s.channel c).Inv := by
      cases c with
      | left => exact hl
      | right => exact hr
    have hafter : (t.channel c).Inv := by
      rcases exec_channel h c with heq | ⟨k, heq, hk⟩ <;> rw [heq]
      · exact hinv
      · exact hk.inv hinv
    obtain ⟨hcur, -⟩ := hafter
    exact isNaN_of_isFinite hcur
  · have hfloor := gainToDb_of_not_positive (.inl hg)
    have hzero : gainToDb 0#32 = Config.floorDb := by decide
    obtain ⟨t, ht⟩ := exec_next (.update c g) s
    exact ⟨hfloor, t, ht, by rwa [exec_update_congr (hzero.trans hfloor.symm)]⟩

/-! ### DB is monotone (R76) -/

/-- Rounding to nearest is monotone between finite results. -/
theorem isRoundedNearest_mono {r r' : ℚ} {y y' : F32} (h : IsRoundedNearest r y)
    (h' : IsRoundedNearest r' y') (hy : isFinite y = true) (hy' : isFinite y' = true) (hr : r < r') :
    value y ≤ value y' := by
  have hnear {q : ℚ} {x z : F32} (hq : IsRoundedNearest q x) (hx : isFinite x = true)
      (hz : isFinite z = true) : |value x - q| ≤ |value z - q| := by
    unfold IsRoundedNearest at hq
    split_ifs at hq with hbound hsign
    · exact (hq.2 z hz).1
    · rw [hq] at hx
      exact absurd hx (by decide)
    · rw [hq] at hx
      exact absurd hx (by decide)
  by_contra hgt
  have h1 := sq_le_sq.2 (hnear h hy hy')
  have h2 := sq_le_sq.2 (hnear h' hy' hy)
  nlinarith

/-- 20 LOG10 is monotone: LOG10 and the rounding are, and equal logarithms give equal products whatever
the sign of a zero. -/
theorem twenty_mul_log10_mono {g g' : F32} (hfin : isFinite g = true) (hfin' : isFinite g' = true)
    (hpos : 0 < value g) (hle : value g ≤ value g') :
    value (f32Mul Config.twenty (log10 g)) ≤ value (f32Mul Config.twenty (log10 g')) := by
  have hmag := magnitude_pos_of_value_pos hpos
  have hmag' := magnitude_pos_of_value_pos (hpos.trans_le hle)
  have hmul {x : F32} (hx : isFinite x = true) :
      IsRoundedNearest (20 * value x) (f32Mul Config.twenty x) := by
    rw [← value_twenty]
    exact f32Mul_isRoundedNearest (by decide) hx
  have hround := hmul (log10_range hmag hfin).1
  have hround' := hmul (log10_range hmag' hfin').1
  rcases (log10IsMonotone g g' hfin hfin' hpos hle).lt_or_eq with hlt | heq
  · exact isRoundedNearest_mono hround hround' (isFinite_twenty_mul_log10 hmag hfin)
      (isFinite_twenty_mul_log10 hmag' hfin') (by linarith)
  · by_cases h0 : value (log10 g) = 0
    · have hzero {y : F32} (hy : IsRoundedNearest (20 * value (log10 g)) y) : value y = 0 := by
        obtain ⟨-, hlo, hhi⟩ := isRoundedNearest_between hy isFinite_posZero isFinite_posZero
          (by rw [h0, value_posZero]; norm_num) (by rw [h0, value_posZero]; norm_num)
        rw [value_posZero] at hlo hhi
        exact le_antisymm hhi hlo
      rw [hzero hround, hzero (heq ▸ hround')]
    · rw [← value_posZero, value_eq_iff, show scaled Config.posZero = 0 by decide] at h0
      rw [scaled_injective_of_ne_zero (value_eq_iff.1 heq) h0]

/-- FLT_MAX is the greatest finite value. -/
theorem value_le_fltMax {x : F32} (hx : isFinite x = true) : value x ≤ value Config.fltMax := by
  rw [value_le_iff, show scaled Config.fltMax = patternUnits 0x7F7FFFFF by decide]
  exact (scaled_le_fltMax hx).2

theorem gainToDb_mono {g g' : F32} (h : GainNotAbove g g') :
    value (gainToDb g) ≤ value (gainToDb g') := by
  by_cases hg : f32Lt Config.posZero g = true
  · obtain ⟨hnan, hpos⟩ := f32Lt_posZero_iff.1 hg
    obtain ⟨-, hnan', hnot⟩ : isNaN g = false ∧ isNaN g' = false ∧ f32Lt g' g = false :=
      h.resolve_left (by simp [hnan])
    rw [← Bool.not_eq_true, f32Lt_iff hnan' hnan, not_lt, ← value_le_iff] at hnot
    have hpos' := hpos.trans_le hnot
    by_cases hinf' : g' = Config.posInf
    · rw [hinf', gainToDb_posInf]
      exact value_le_fltMax (gainToDb_range g).1
    · obtain ⟨-, hfin'⟩ :=
        magnitude_pos_and_isFinite_of_pos (f32Lt_posZero_iff.2 ⟨hnan', hpos'⟩) hinf'
      have hfin : isFinite g = true := isFinite_of_scaled_between isFinite_posZero hfin'
        (by rw [← value_le_iff, value_posZero]; exact hpos.le) (value_le_iff.1 hnot)
      rw [value_gainToDb_of_gain hfin hpos, value_gainToDb_of_gain hfin' hpos']
      exact max_le_max le_rfl (twenty_mul_log10_mono hfin hfin' hpos hnot)
  · rw [gainToDb_of_not_pos hg, value_le_iff]
    exact (gainToDb_range g').2

/-! ### The current value after UPDATE is monotone (R76) -/

/-- Under the invariant a release leaves `cur` where it is, or jumps where no ramp is configured. -/
theorem registerReading_release_cur {k : Channel} (h : k.Inv) {v : F32} (hv : isNaN v = false)
    (hlt : value v < value k.cur) :
    (registerReading k v).cur = if k.len = 0 then v else k.cur := by
  obtain ⟨hcur, htgt, -, -, -, hsettled, -, hcnt, -⟩ := h
  rw [registerReading_release hcur hv hlt, setTarget_eq htgt hv]
  split_ifs with heq hlen hlen
  · rw [hsettled (by omega), heq] at hlt
    exact absurd hlt (lt_irrefl _)
  · rfl
  · rfl
  · rfl

theorem registerReading_cur_mono {k : Channel} (h : k.Inv) {v v' : F32} (hv : isNaN v = false)
    (hv' : isNaN v' = false) (hle : value v ≤ value v') :
    value (registerReading k v).cur ≤ value (registerReading k v').cur := by
  have ⟨hcur, _⟩ := h
  rcases lt_or_ge (value v) (value k.cur) with hlt | hge
  · rw [registerReading_release_cur h hv hlt]
    rcases lt_or_ge (value v') (value k.cur) with hlt' | hge'
    · rw [registerReading_release_cur h hv' hlt']
      split_ifs
      · exact hle
      · exact le_rfl
    · rw [registerReading_attack hcur hv' hge', settledAt]
      split_ifs
      · exact hle
      · exact hge'
  · rw [registerReading_attack hcur hv hge, registerReading_attack hcur hv' (hge.trans hle)]
    exact hle

/-- Settles O37: DB is monotone, and so is `cur` in the reading. -/
theorem updateMonotoneInGain : Obligations.UpdateMonotoneInGain := by
  refine ⟨fun g g' => gainToDb_mono, fun s c g g' hinv hgain => ?_⟩
  have hfin (g : F32) : isFinite (registerReading (s.channel c) (gainToDb g)).cur = true := by
    obtain ⟨hdb, hfloor⟩ := gainToDb_range g
    obtain ⟨hcur, -⟩ := registerReading_inv hinv hdb hfloor
    exact hcur
  rcases exec_update_cases c s with h | ⟨x, h⟩
  · refine ⟨_, _, h g, h g', ?_⟩
    rw [channelWritten_channel_self, channelWritten_channel_self]
    exact ⟨hfin g, hfin g', registerReading_cur_mono hinv (isNaN_gainToDb g) (isNaN_gainToDb g')
      (gainToDb_mono hgain)⟩
  · obtain ⟨hcur, -⟩ := hinv
    refine ⟨_, _, h g, h g', ?_⟩
    rw [State.raiseError_channel]
    exact ⟨hcur, hcur, le_rfl⟩

end Sys2Proof.Proofs
end

section
/-! PROOFS. The commands of the quantiser and framer (41_quantizer_framer.md R87 to R90): what SAMPLE and SETLEVELS store, what ENCODE sends and where its terminators stand (R95, R98), and what GETDISP answers. -/

open Sys2Proof Sys2Proof.Machine Sys2Proof.Certificates

namespace Sys2Proof.Proofs

/-! ### SAMPLE, SETLEVELS and ENCODE (R87, R88, R89) -/

/-- Settles O41: PE may issue SAMPLE, which writes the two level registers and nothing else. -/
theorem sampleCopiesBoth : Obligations.SampleCopiesBoth := by
  intro s hport
  rw [exec, execSample, guardPort_of_accepts _ (by rw [hport]; rfl)]
  rfl

/-- Settles O42: PE may issue SETLEVELS, which stores its operands as they are. -/
theorem setlevelsStoresPatterns : Obligations.SetlevelsStoresPatterns := by
  intro s l r hport
  rw [exec, execSetlevels, guardPort_of_accepts _ (by rw [hport]; rfl)]
  rfl

/-- The whole effect of ENCODE on PE: one frame of the stored levels. -/
theorem exec_encode {s : State} (hport : s.port = .pe) :
    exec .encode s = .next (answered { s with out := s.out ++ frameOf s.enc } 0#32) := by
  rw [exec, execEncode, guardPort_of_accepts _ (by rw [hport]; rfl), frameOf, emitAll_frame]
  rfl

/-- Settles O43: the frame of the stored levels, whose level bytes are never the terminator's 0
(`quantize_ne_zero`). -/
theorem encodeAppendsFrame : Obligations.EncodeAppendsFrame :=
  fun _ hport => ⟨exec_encode hport, quantize_ne_zero _, quantize_ne_zero _⟩

/-- Settles O55: each byte of a frame is Q of one level register. -/
theorem frameDependsOnLevelsAlone : Obligations.FrameDependsOnLevelsAlone := by
  intro s s' hport hport'
  refine ⟨_, _, frameOf s.enc, frameOf s'.enc, exec_encode hport, exec_encode hport', rfl, rfl,
    fun hl => ?_, fun hr => ?_, fun henc => by rw [henc]⟩
  · exact congrArg (fun x => some (quantize x)) hl
  · exact congrArg (fun x => some (quantize x)) hr

/-! ### The offsets of the terminators (R95) -/

theorem framed_getElem_eq_zero_iff {bytes : List Byte} (hframed : framed bytes = true) {k : Nat}
    (hk : k < bytes.length) : bytes[k] = 0#8 ↔ k % 3 = 2 := by
  induction bytes using framed.induct generalizing k with
  | case1 => exact absurd hk (Nat.not_lt_zero k)
  | case2 l r z rest ih =>
    simp only [framed, Bool.and_eq_true, bne_iff_ne, beq_iff_eq] at hframed
    obtain ⟨⟨⟨hl, hr⟩, hz⟩, hrest⟩ := hframed
    match k, hk with
    | 0, _ => simp [hl]
    | 1, _ => simp [hr]
    | 2, _ => simp [hz]
    | k + 3, hk => simpa using ih hrest (k := k) (by simpa using hk)
  | case3 bytes hnil hframe => simp [framed] at hframed

/-- Settles O44: by induction on the frames of the stream. -/
theorem zeroOnlyAtFrameEnds : Obligations.ZeroOnlyAtFrameEnds :=
  fun _ _ hk hframed => framed_getElem_eq_zero_iff hframed hk

/-! ### GETDISP (R90) -/

/-- A rounded result is finite or, where it overflows, an infinity; never a NaN. -/
theorem isFinite_or_isInf_of_isRoundedNearest {r : ℚ} {y : F32} (h : IsRoundedNearest r y) :
    isFinite y = true ∨ isInf y = true := by
  unfold IsRoundedNearest at h
  split_ifs at h
  · exact .inl h.1
  · exact .inr (by rw [h]; decide)
  · exact .inr (by rw [h]; decide)

theorem isNaN_of_isInf {x : F32} (h : isInf x = true) : isNaN x = false := by
  rw [isInf_iff] at h
  rw [Bool.eq_false_iff, ne_eq, isNaN_iff]
  omega

theorem isNaN_of_isRoundedNearest {r : ℚ} {y : F32} (h : IsRoundedNearest r y) : isNaN y = false :=
  (isFinite_or_isInf_of_isRoundedNearest h).elim isNaN_of_isFinite isNaN_of_isInf

/-- An infinity is its sign. -/
theorem eq_signed_of_isInf {x : F32} (h : isInf x = true) :
    x = signed (isNegative x) 0x7F800000 := by
  rw [isInf_iff] at h
  rw [← h, signed_self]

theorem isFinite_two : isFinite Config.two = true := by decide

theorem value_two : value Config.two = 2 := by
  simpa using value_eq_of_scaled (x := Config.two) (n := 2) (by decide)

/-- Half of an infinity is that infinity (log 11). -/
theorem f32Div_two_of_isInf {x : F32} (h : isInf x = true) : f32Div x Config.two = x := by
  have hsign : (isNegative x != isNegative Config.two) = isNegative x := by
    rw [show isNegative Config.two = false by decide, Bool.bne_false]
  rw [f32Div, hsign]
  simp [isNaN_of_isInf h, h, show isNaN Config.two = false by decide,
    show isInf Config.two = false by decide, ← eq_signed_of_isInf h]

theorem displayLevel_of_sum_isInf {l r : F32} (h : isInf (f32Add l r) = true) :
    displayLevel l r = f32Add l r := by
  simp [displayLevel, f32Div_two_of_isInf h, isNaN_of_isInf h]

theorem displayLevel_of_sum_quietNaN {l r : F32} (h : f32Add l r = Config.quietNaN) :
    displayLevel l r = Config.quietNaN := by
  rw [displayLevel, h]
  decide

/-- The invalid sums: a NaN addend, or infinities of opposite signs. -/
theorem f32Add_invalid {l r : F32} (h : isNaN l = true ∨ isNaN r = true ∨
    (isInf l = true ∧ isInf r = true ∧ isNegative l ≠ isNegative r)) :
    f32Add l r = Config.quietNaN := by
  rcases h with h | h | ⟨hl, hr, hsign⟩
  · simp [f32Add, h]
  · simp [f32Add, h]
  · simp [f32Add, isNaN_of_isInf, hl, hr, hsign]

/-- An infinity swallows a finite addend on either side. -/
theorem f32Add_isInf_finite {l r : F32} (hl : isInf l = true) (hr : isFinite r = true) :
    f32Add l r = l ∧ f32Add r l = l := by
  simp [f32Add, isNaN_of_isInf hl, isNaN_of_isFinite hr, isInf_of_isFinite hr, hl]

/-- Infinities of one sign are one datum, and its sum with itself is itself. -/
theorem f32Add_isInf_same_sign {l r : F32} (hl : isInf l = true) (hr : isInf r = true)
    (hsign : isNegative r = isNegative l) : f32Add l r = l ∧ f32Add r l = l := by
  have heq : r = l := by rw [eq_signed_of_isInf hr, hsign, ← eq_signed_of_isInf hl]
  simp [heq, f32Add, isNaN_of_isInf hl, hl]

theorem displayLevel_of_sum_finite {l r : F32} (h : isFinite (f32Add l r) = true) :
    IsRoundedNearest (value (f32Add l r) / 2) (displayLevel l r) := by
  have hhalf := f32Div_isRoundedNearest h isFinite_two (by rw [value_two]; norm_num)
  rw [value_two] at hhalf
  simpa [displayLevel, isNaN_of_isRoundedNearest hhalf] using hhalf

/-- Settles O49: by what the sum is, a NaN, an infinity or finite. -/
theorem getdispBlends : Obligations.GetdispBlends := by
  refine ⟨fun s hport => ?_, fun l r h => displayLevel_of_sum_quietNaN (f32Add_invalid h),
    fun l r hl hr => ?_, fun l r hl hr => ?_, by decide, by decide⟩
  · rw [exec, execGetdisp, guardPort_of_accepts _ (by rw [hport]; rfl)]
    rfl
  · obtain ⟨hlr, hrl⟩ : f32Add l r = l ∧ f32Add r l = l :=
      hr.elim (f32Add_isInf_finite hl) fun ⟨hinf, hsign⟩ => f32Add_isInf_same_sign hl hinf hsign
    exact ⟨(displayLevel_of_sum_isInf (by rwa [hlr])).trans hlr,
      (displayLevel_of_sum_isInf (by rwa [hrl])).trans hrl⟩
  · have hsum := f32Add_isRoundedNearest hl hr
    refine ⟨f32Add l r, hsum, displayLevel_of_sum_finite, fun hover => ?_⟩
    have hinf := (isFinite_or_isInf_of_isRoundedNearest hsum).resolve_left (by simp [hover])
    exact displayLevel_of_sum_isInf hinf

end Sys2Proof.Proofs
end

section
/-! PROOFS. The steps of the quantiser Q (41_quantizer_framer.md R85). Rounding to nearest is monotone (`isRoundedNearest_mono_of_le`), so each step is and so is Q (`quantize_mono`); on a clamped level the steps are one computation in whole numbers (`quantize_of_clamped`). -/

open Sys2Proof Sys2Proof.Machine Sys2Proof.Certificates

namespace Sys2Proof.Proofs

/-! ### Rounding to nearest is monotone -/

/-- Bit 0 of a datum is the parity of its rank. -/
theorem getLsbD_zero_eq_false_iff (x : F32) : x.getLsbD 0 = false ↔ rank x % 2 = 0 := by
  have hrank := natAbs_rank x
  simp only [BitVec.getLsbD, Nat.testBit_zero, decide_eq_false_iff_not]
  omega

/-- Two nearest values of one r are one value: the farther apart of them would have a value between, and
of two neighbours at a tie only one is even. -/
theorem not_lt_of_isRoundedNearest {r : ℚ} {y z : F32} (hy : IsRoundedNearest r y)
    (hz : IsRoundedNearest r z) (hfy : isFinite y = true) (hfz : isFinite z = true) :
    ¬ value y < value z := by
  intro hlt
  unfold IsRoundedNearest at hy hz
  split_ifs at hy hz with hbound hsign
  · obtain ⟨-, hneary⟩ := hy
    obtain ⟨-, hnearz⟩ := hz
    have hrank : rank y < rank z := by
      rw [← not_le, rank_le_iff, ← value_le_iff, not_le]; exact hlt
    have hnext : rank (nextUp y) = rank y + 1 :=
      rank_nextUp (by have := (isFinite_iff y).1 hfy; omega)
    have hlow : value y < value (nextUp y) := by
      rw [← not_le, value_le_iff, ← rank_le_iff]; omega
    have hhigh : value (nextUp y) ≤ value z := by
      rw [value_le_iff, ← rank_le_iff]; omega
    have hfnext : isFinite (nextUp y) = true :=
      isFinite_of_scaled_between hfy hfz (value_le_iff.1 hlow.le) (value_le_iff.1 hhigh)
    have htie : |value y - r| = |value z - r| :=
      le_antisymm (hneary z hfz).1 (hnearz y hfy).1
    have hmid : value z - r = r - value y := by
      rcases abs_eq_abs.1 htie with h | h <;> linarith
    have hadjacent : value (nextUp y) = value z := by
      refine hhigh.eq_of_not_lt fun hbetween => ?_
      have hnear := (hneary _ hfnext).1
      rw [abs_of_nonpos (by linarith : value y - r ≤ 0)] at hnear
      exact absurd hnear (not_le.2 (abs_lt.2 ⟨by linarith, by linarith⟩))
    have heveny := (hneary z hfz).2 htie hlt.ne'
    have hevenz := (hnearz y hfy).2 htie.symm hlt.ne
    rw [getLsbD_zero_eq_false_iff] at heveny hevenz
    rw [value_eq_iff, ← rank_eq_iff] at hadjacent
    omega
  · rw [hy, hz] at hlt
    exact lt_irrefl _ hlt
  · rw [hy, hz] at hlt
    exact lt_irrefl _ hlt

/-- Rounding to nearest is monotone between finite results. -/
theorem isRoundedNearest_mono_of_le {r r' : ℚ} {y y' : F32} (h : IsRoundedNearest r y)
    (h' : IsRoundedNearest r' y') (hy : isFinite y = true) (hy' : isFinite y' = true) (hr : r ≤ r') :
    value y ≤ value y' := by
  rcases hr.lt_or_eq with hlt | rfl
  · exact isRoundedNearest_mono h h' hy hy' hlt
  · exact not_lt.1 (not_lt_of_isRoundedNearest h' h hy' hy)

/-! ### Each step of Q is monotone (R91) -/

/-- A finite level between CLAMP_LO and CLAMP_HI, as step 1 leaves it. -/
structure Clamped (x : F32) : Prop where
  finite : isFinite x = true
  lo : scaled Config.clampLo ≤ scaled x
  hi : scaled x ≤ scaled Config.clampHi

theorem clamped_clampLevel (x : F32) : Clamped (clampLevel x) :=
  have ⟨hfin, hlo, hhi⟩ := clampLevel_range x
  ⟨hfin, hlo, hhi⟩

theorem clampLevel_of_isNaN {x : F32} (h : isNaN x = true) : clampLevel x = Config.clampLo := if_pos h

theorem value_clampLevel {x : F32} (h : isNaN x = false) :
    value (clampLevel x) = max (-30) (min (value x) 5) := by
  unfold clampLevel
  rw [if_neg (by simp [h])]
  simp only [f32Lt_iff h (isNaN_of_isFinite isFinite_clampLo),
    f32Lt_iff (isNaN_of_isFinite isFinite_clampHi) h, ← value_lt_iff, value_clampLo, value_clampHi]
  split_ifs with hlo hhi
  · rw [value_clampLo, min_eq_left (by linarith), max_eq_left hlo.le]
  · rw [value_clampHi, min_eq_right hhi.le]; norm_num
  · rw [min_eq_left (not_lt.1 hhi), max_eq_right (not_lt.1 hlo)]

theorem clampLevel_of_clamped {x : F32} (hx : Clamped x) : clampLevel x = x := by
  have hnan := isNaN_of_isFinite hx.finite
  unfold clampLevel
  rw [if_neg (by simp [hnan]), if_neg, if_neg]
  · rw [f32Lt_iff (isNaN_of_isFinite isFinite_clampHi) hnan]; exact not_lt.2 hx.hi
  · rw [f32Lt_iff hnan (isNaN_of_isFinite isFinite_clampLo)]; exact not_lt.2 hx.lo

/-- t1 of R85: the level above CLAMP_LO. -/
def levelOffset (x : F32) : F32 := f32Sub x Config.clampLo

/-- t3 of R85: the place of the level between the clamps. -/
def levelFraction (x : F32) : F32 := f32Div (levelOffset x) 0x420C0000#32

/-- t4 of R85: the fraction of the 254 steps between the levels 1 and 255. -/
def levelSteps (x : F32) : F32 := f32Mul (levelFraction x) 0x437E0000#32

theorem affineLevel_eq (x : F32) :
    affineLevel Config.dacBits x = f32Add Config.one (levelSteps x) := by
  rw [affineLevel, clampWidth_eq, show levelSpan Config.dacBits = 0x437E0000#32 by decide]
  rfl

theorem isFinite_span : isFinite (0x437E0000#32 : F32) = true := by decide

theorem value_span : value 0x437E0000#32 = 254 := by
  simpa using value_eq_of_scaled (x := 0x437E0000#32) (n := 254) (by decide)

theorem isFinite_top : isFinite (0x437F0000#32 : F32) = true := by decide

theorem value_top : value 0x437F0000#32 = 255 := by
  simpa using value_eq_of_scaled (x := 0x437F0000#32) (n := 255) (by decide)

section Steps

variable {x : F32} (hx : Clamped x)
include hx

theorem levelOffset_spec :
    IsRoundedNearest (value x + 30) (levelOffset x) ∧ isFinite (levelOffset x) = true := by
  obtain ⟨hfin, hlo, hhi⟩ := hx
  rw [← value_le_iff, value_clampLo] at hlo
  rw [← value_le_iff, value_clampHi] at hhi
  have hround := f32Sub_isRoundedNearest hfin isFinite_clampLo
  rw [value_clampLo, sub_neg_eq_add] at hround
  obtain ⟨hoffset, -⟩ := isRoundedNearest_between hround isFinite_posZero isFinite_clampWidth
    (by rw [value_posZero]; linarith) (by rw [value_clampWidth]; linarith)
  exact ⟨hround, hoffset⟩

theorem levelFraction_spec :
    IsRoundedNearest (value (levelOffset x) / 35) (levelFraction x) ∧
      isFinite (levelFraction x) = true := by
  obtain ⟨-, hoffset⟩ := levelOffset_spec hx
  have hround := f32Div_isRoundedNearest hoffset isFinite_clampWidth
    (by rw [value_clampWidth]; norm_num)
  rw [value_clampWidth] at hround
  exact ⟨hround, (levelFraction_range hx.finite hx.lo hx.hi).1⟩

theorem levelSteps_spec :
    IsRoundedNearest (value (levelFraction x) * 254) (levelSteps x) ∧
      isFinite (levelSteps x) = true ∧ 0 ≤ value (levelSteps x) ∧ value (levelSteps x) ≤ 254 := by
  obtain ⟨hfin, hmin, hmax⟩ : isFinite (levelFraction x) = true ∧ 0 ≤ value (levelFraction x) ∧
      value (levelFraction x) ≤ 1 := levelFraction_range hx.finite hx.lo hx.hi
  have hround := f32Mul_isRoundedNearest hfin isFinite_span
  rw [value_span] at hround
  have hbounds := isRoundedNearest_between hround isFinite_posZero isFinite_span
    (by rw [value_posZero]; positivity) (by rw [value_span]; linarith)
  rw [value_posZero, value_span] at hbounds
  exact ⟨hround, hbounds⟩

theorem affineLevel_spec :
    IsRoundedNearest (1 + value (levelSteps x)) (affineLevel Config.dacBits x) ∧
      isFinite (affineLevel Config.dacBits x) = true ∧
      1 ≤ value (affineLevel Config.dacBits x) := by
  obtain ⟨-, hfin, hmin, hmax⟩ := levelSteps_spec hx
  have hround := f32Add_isRoundedNearest isFinite_one hfin
  rw [value_one, ← affineLevel_eq] at hround
  obtain ⟨hlevel, hlevel1, -⟩ := isRoundedNearest_between hround isFinite_one isFinite_top
    (by rw [value_one]; linarith) (by rw [value_top]; linarith)
  exact ⟨hround, hlevel, value_one ▸ hlevel1⟩

end Steps

/-- Step 2 of Q on clamped levels is monotone: each of its four roundings is. -/
theorem affineLevel_mono {x y : F32} (hx : Clamped x) (hy : Clamped y) (hle : value x ≤ value y) :
    value (affineLevel Config.dacBits x) ≤ value (affineLevel Config.dacBits y) := by
  obtain ⟨hoffset, hoffsetFin⟩ := levelOffset_spec hx
  obtain ⟨hoffset', hoffsetFin'⟩ := levelOffset_spec hy
  obtain ⟨hfraction, hfractionFin⟩ := levelFraction_spec hx
  obtain ⟨hfraction', hfractionFin'⟩ := levelFraction_spec hy
  obtain ⟨hsteps, hstepsFin, -⟩ := levelSteps_spec hx
  obtain ⟨hsteps', hstepsFin', -⟩ := levelSteps_spec hy
  obtain ⟨hlevel, hlevelFin, -⟩ := affineLevel_spec hx
  obtain ⟨hlevel', hlevelFin', -⟩ := affineLevel_spec hy
  have ht1 := isRoundedNearest_mono_of_le hoffset hoffset' hoffsetFin hoffsetFin' (by linarith)
  have ht3 := isRoundedNearest_mono_of_le hfraction hfraction' hfractionFin hfractionFin'
    (by linarith)
  have ht4 := isRoundedNearest_mono_of_le hsteps hsteps' hstepsFin hstepsFin' (by linarith)
  exact isRoundedNearest_mono_of_le hlevel hlevel' hlevelFin hlevelFin' (by linarith)

/-- `trunc_u` is the floor (R12). -/
theorem truncU_eq_floor {x : F32} (h : 0 ≤ value x) : truncU x = ⌊value x⌋₊ := by
  rw [value_eq_magnitude_of_nonneg h, truncU]
  exact_mod_cast (Nat.floor_div_eq_div (K := ℚ) (magnitude x) (2 ^ 149)).symm

/-- Narrowing to a byte loses nothing of a level (R86). -/
theorem quantize_toNat (x : F32) : (quantize x).toNat = quantizeFor Config.dacBits x := by
  obtain ⟨-, hmax⟩ : 1 ≤ quantizeFor Config.dacBits x ∧ quantizeFor Config.dacBits x ≤ 255 :=
    quantizeFor_range (by decide) (by decide) x
  rw [quantize, BitVec.toNat_ofNat, Nat.mod_eq_of_lt (by omega)]

theorem quantize_range (x : F32) : 1 ≤ (quantize x).toNat ∧ (quantize x).toNat ≤ 255 := by
  rw [quantize_toNat]
  exact quantizeFor_range (by decide) (by decide) x

theorem quantize_mono {x y : F32} (hx : isNaN x = false) (hy : isNaN y = false)
    (hle : scaled x ≤ scaled y) : (quantize x).toNat ≤ (quantize y).toNat := by
  have hclamp : value (clampLevel x) ≤ value (clampLevel y) := by
    rw [value_clampLevel hx, value_clampLevel hy]
    exact max_le_max_left _ (min_le_min_right _ (value_le_iff.2 hle))
  obtain ⟨-, -, hx1⟩ := affineLevel_spec (clamped_clampLevel x)
  obtain ⟨-, -, hy1⟩ := affineLevel_spec (clamped_clampLevel y)
  rw [quantize_toNat, quantize_toNat, quantizeFor, quantizeFor, truncU_eq_floor (by linarith),
    truncU_eq_floor (by linarith)]
  exact Nat.floor_mono (affineLevel_mono (clamped_clampLevel x) (clamped_clampLevel y) hclamp)

/-! ### Q of a clamped level in whole-number arithmetic -/

/-- n / d units rounded to nearest as a magnitude, in units again. -/
def roundedUnits (n d : Nat) : Nat := patternUnits (min (roundPattern divNearest n d) 0x7F800000)

theorem magnitude_roundNearest (neg : Bool) (n d : Nat) :
    magnitude (roundNearest neg n d) = roundedUnits n d :=
  magnitude_signed neg _ (by omega)

theorem magnitude_roundSum (bothNegative : Bool) (r : Int) :
    magnitude (roundSum bothNegative r) = roundedUnits r.natAbs 1 := by
  unfold roundSum
  split_ifs with h0
  · rw [h0]
    exact magnitude_signed bothNegative 0 (by omega)
  · exact magnitude_roundNearest _ _ 1

/-- R85 from t1 on, on the units of 2^-149 by which a level lies above CLAMP_LO. -/
def levelOfUnits (u : Nat) : Nat :=
  let t1 := roundedUnits u 1
  let t3 := roundedUnits (t1 * 2 ^ 149) (35 * 2 ^ 149)
  let t4 := roundedUnits (t3 * (254 * 2 ^ 149)) (2 ^ 149)
  roundedUnits (2 ^ 149 + t4) 1 / 2 ^ 149

theorem quantize_of_clamped {x : F32} (hx : Clamped x) :
    (quantize x).toNat = levelOfUnits (scaled x + 30 * 2 ^ 149).natAbs := by
  obtain ⟨-, hoffset⟩ := levelOffset_spec hx
  obtain ⟨-, hfraction⟩ := levelFraction_spec hx
  obtain ⟨-, hsteps, hsteps0, -⟩ := levelSteps_spec hx
  have ht1 : magnitude (levelOffset x) = roundedUnits (scaled x + 30 * 2 ^ 149).natAbs 1 := by
    rw [levelOffset, f32Sub, f32Add_finite hx.finite (by decide), magnitude_roundSum,
      scaled_f32Neg, show -scaled Config.clampLo = 30 * 2 ^ 149 by decide]
  have ht3 : magnitude (levelFraction x) =
      roundedUnits (magnitude (levelOffset x) * 2 ^ 149) (35 * 2 ^ 149) := by
    rw [levelFraction, f32Div_finite hoffset isFinite_clampWidth (by decide),
      magnitude_roundNearest, show magnitude 0x420C0000#32 = 35 * 2 ^ 149 by decide]
  have ht4 : magnitude (levelSteps x) =
      roundedUnits (magnitude (levelFraction x) * (254 * 2 ^ 149)) (2 ^ 149) := by
    rw [levelSteps, f32Mul_finite hfraction isFinite_span, magnitude_roundNearest,
      show magnitude 0x437E0000#32 = 254 * 2 ^ 149 by decide]
  have hunits : (scaled Config.one + scaled (levelSteps x)).natAbs =
      2 ^ 149 + magnitude (levelSteps x) := by
    rw [value_nonneg_iff] at hsteps0
    rw [show scaled Config.one = 2 ^ 149 by decide]
    unfold scaled at hsteps0 ⊢
    split_ifs at hsteps0 ⊢ <;> omega
  rw [quantize_toNat, quantizeFor, clampLevel_of_clamped hx, affineLevel_eq,
    f32Add_finite isFinite_one hsteps, truncU, magnitude_roundSum, hunits, ht4, ht3, ht1]
  rfl

end Sys2Proof.Proofs
end

section
/-! PROOFS. What Q is on every pattern (41_quantizer_framer.md R86, R91 to R93). Q is monotone (`quantize_mono`), so its values at the thresholds of R92 and just below them give all others. -/

open Sys2Proof Sys2Proof.Machine Sys2Proof.Certificates

namespace Sys2Proof.Proofs

/-! ### The two ends (R91) -/

theorem isNaN_clampLo : isNaN Config.clampLo = false := isNaN_of_isFinite isFinite_clampLo

theorem quantize_clampLo : quantize Config.clampLo = 1#8 := by decide

/-- The last threshold of R92 is the least level with the top byte. -/
theorem quantize_top : quantize 0x409FFFFC#32 = 255#8 := by decide

theorem quantize_of_isNaN {x : F32} (h : isNaN x = true) : quantize x = 1#8 := by
  have hlo : clampLevel Config.clampLo = Config.clampLo := by decide
  rw [← quantize_clampLo, quantize, quantize, quantizeFor, quantizeFor, clampLevel_of_isNaN h, hlo]

theorem quantize_of_le_clampLo {x : F32} (h : isNaN x = false)
    (hle : scaled x ≤ scaled Config.clampLo) : quantize x = 1#8 := by
  have hmono := quantize_mono h isNaN_clampLo hle
  rw [quantize_clampLo] at hmono
  exact BitVec.eq_of_toNat_eq (le_antisymm hmono (quantize_range x).1)

theorem quantize_of_top_le {x : F32} (h : isNaN x = false)
    (hle : scaled 0x409FFFFC#32 ≤ scaled x) : quantize x = 255#8 := by
  have hmono := quantize_mono (by decide) h hle
  rw [quantize_top] at hmono
  exact BitVec.eq_of_toNat_eq (le_antisymm (quantize_range x).2 hmono)

/-! ### The thresholds (R92) -/

theorem length_thresholds : thresholds.length = 254 := by decide +kernel

theorem threshold_bounds : ∀ p ∈ thresholds.zipIdx, isFinite p.1 = true ∧
    scaled Config.clampLo ≤ scaled (nextDown p.1) ∧ scaled p.1 ≤ scaled Config.clampHi := by
  decide +kernel

/-- The table of R92: each threshold has its level, and the value just below it has the level before. -/
theorem threshold_levels : ∀ p ∈ thresholds.zipIdx,
    levelOfUnits (scaled p.1 + 30 * 2 ^ 149).natAbs = p.2 + 2 ∧
      levelOfUnits (scaled (nextDown p.1) + 30 * 2 ^ 149).natAbs = p.2 + 1 := by
  decide +kernel

section Threshold

variable {j : Nat} (hj : j < thresholds.length)
include hj

theorem threshold_clamped : Clamped thresholds[j] ∧ Clamped (nextDown thresholds[j]) ∧
    rank (nextDown thresholds[j]) = rank thresholds[j] - 1 := by
  obtain ⟨hfin, hlo, hhi⟩ := threshold_bounds (thresholds[j], j)
    (List.mk_mem_zipIdx_iff_getElem?.2 (List.getElem?_eq_getElem hj))
  have hrank : rank (nextDown thresholds[j]) = rank thresholds[j] - 1 :=
    rank_nextDown (((isFinite_iff _).1 hfin).trans (by norm_num))
  have hbelow : scaled (nextDown thresholds[j]) ≤ scaled thresholds[j] :=
    rank_le_iff.1 (by omega)
  have hfin' := isFinite_of_scaled_between isFinite_clampLo isFinite_clampHi hlo (hbelow.trans hhi)
  exact ⟨⟨hfin, hlo.trans hbelow, hhi⟩, ⟨hfin', hlo, hbelow.trans hhi⟩, hrank⟩

theorem isNaN_threshold : isNaN thresholds[j] = false :=
  isNaN_of_isFinite (threshold_clamped hj).1.finite

theorem quantize_threshold : (quantize thresholds[j]).toNat = j + 2 ∧
    (quantize (nextDown thresholds[j])).toNat = j + 1 := by
  obtain ⟨hclamped, hclamped', -⟩ := threshold_clamped hj
  rw [quantize_of_clamped hclamped, quantize_of_clamped hclamped']
  exact threshold_levels (thresholds[j], j)
    (List.mk_mem_zipIdx_iff_getElem?.2 (List.getElem?_eq_getElem hj))

/-- A level has at least the byte of a threshold exactly from that threshold on. -/
theorem quantize_lt_iff {x : F32} (hx : isNaN x = false) :
    (quantize x).toNat < j + 2 ↔ f32Lt x thresholds[j] = true := by
  obtain ⟨hat, hbelow⟩ := quantize_threshold hj
  obtain ⟨-, hclamped', hrank⟩ := threshold_clamped hj
  rw [f32Lt_iff hx (isNaN_threshold hj)]
  constructor
  · intro hlt
    by_contra hge
    have hmono := quantize_mono (isNaN_threshold hj) hx (not_lt.1 hge)
    omega
  · intro hlt
    rw [← not_le, ← rank_le_iff] at hlt
    have hmono := quantize_mono hx (isNaN_of_isFinite hclamped'.finite) (rank_le_iff.1 (by omega))
    omega

end Threshold

/-- A NaN is below nothing (00_scope.md R12). -/
theorem isNaN_of_f32Lt {x y : F32} (h : f32Lt x y = true) : isNaN x = false := by
  by_contra hnan
  simp [f32Lt, Bool.eq_true_of_not_eq_false hnan] at h

/-- Where p holds of the first m entries of a list and of no other, m entries have p. -/
theorem length_filter_of_initial {α : Type} {l : List α} {p : α → Bool} {m : Nat} (hm : m ≤ l.length)
    (h : ∀ (j : Nat) (hj : j < l.length), p l[j] = true ↔ j < m) : (l.filter p).length = m := by
  have htake : (l.take m).filter p = l.take m := by
    refine List.filter_eq_self.2 fun a ha => ?_
    obtain ⟨j, hj, rfl⟩ := List.mem_take_iff_getElem.1 ha
    exact (h j (by omega)).2 (by omega)
  have hdrop : (l.drop m).filter p = [] := by
    refine List.filter_eq_nil_iff.2 fun a ha => ?_
    obtain ⟨j, hj, rfl⟩ := List.mem_drop_iff_getElem.1 ha
    rw [h]
    omega
  rw [← List.take_append_drop m l, List.filter_append, htake, hdrop, List.append_nil,
    List.length_take, Nat.min_eq_left hm]

theorem quantize_eq_count {x : F32} (hx : isNaN x = false) :
    (quantize x).toNat = 1 + (thresholds.filter fun t => !f32Lt x t).length := by
  obtain ⟨hmin, hmax⟩ := quantize_range x
  rw [length_filter_of_initial (m := (quantize x).toNat - 1) (by rw [length_thresholds]; omega)]
  · omega
  · intro j hj
    rw [Bool.not_eq_true', ← Bool.not_eq_true, ← quantize_lt_iff hj hx]
    omega

/-! ### The statements -/

/-- Settles O45: the constants and the range of every resolution; for B = 1 the range is the level 1. -/
theorem levelRangeForEveryResolution : Obligations.LevelRangeForEveryResolution := by
  refine ⟨fun b x hb hb' => ?_, fun x => ?_, fun _ => rfl⟩
  · obtain ⟨⟨-, hspan⟩, -⟩ := levelConstants hb hb'
    exact ⟨hspan, quantizeFor_range hb hb' x⟩
  · obtain ⟨hmin, hmax⟩ := quantizeFor_range (b := 1) le_rfl (by decide) x
    exact le_antisymm hmax hmin

/-- Settles O46: the thresholds take every byte from 2 on, and CLAMP_LO takes 1. -/
theorem quantizerIsMonotoneOnto : Obligations.QuantizerIsMonotoneOnto := by
  refine ⟨fun x y hx hy hle => ?_, fun k hk hk' => ?_, quantize_ne_zero, fun x hx => ?_,
    fun x hx hge => ?_⟩
  · rw [← Bool.not_eq_true, f32Lt_iff hy hx, not_lt] at hle
    exact quantize_mono hx hy hle
  · rcases hk.eq_or_lt with rfl | hk
    · exact ⟨Config.clampLo, by rw [quantize_clampLo]; rfl⟩
    · obtain ⟨j, rfl⟩ := Nat.exists_eq_add_of_le' hk
      have hj : j < thresholds.length := by rw [length_thresholds]; omega
      exact ⟨thresholds[j], (quantize_threshold hj).1⟩
  · rcases hx with hnan | ⟨hnan, hle⟩
    · exact quantize_of_isNaN hnan
    · have hnot : ¬ f32Lt Config.clampLo x = true := Bool.eq_false_iff.1 hle
      rw [f32Lt_iff isNaN_clampLo hnan, not_lt] at hnot
      exact quantize_of_le_clampLo hnan hnot
  · rw [← Bool.not_eq_true, f32Lt_iff hx (by decide), not_lt] at hge
    exact quantize_of_top_le hx hge

/-- Settles O47: Q is below the byte of a threshold exactly below that threshold (`quantize_lt_iff`). -/
theorem quantizerThresholdForm : Obligations.QuantizerThresholdForm := by
  refine ⟨fun x => ?_, fun j hj => ⟨(quantize_threshold hj).1, fun x hlt => ?_⟩, by decide,
    by decide⟩
  · split_ifs with hnan
    · rw [quantize_of_isNaN hnan]
      rfl
    · exact quantize_eq_count (Bool.eq_false_of_not_eq_true hnan)
  · exact (quantize_lt_iff hj (isNaN_of_f32Lt hlt)).2 hlt

/-- Settles O48: the listed values, by evaluation. -/
theorem quantizerVectors : Obligations.QuantizerVectors := by
  unfold Obligations.QuantizerVectors
  decide

end Sys2Proof.Proofs
end

section
/-! PROOFS. The control commands NOP and GETSTAT, and what STATUS means to the others (42_control.md R101 to R103): a permitted command leaves STATUS as it was (`exec_status_of_permitted`), and no command but GETSTAT reads it (`AgreeButStatus`). -/

open Sys2Proof Sys2Proof.Machine Sys2Proof.Certificates

namespace Sys2Proof.Proofs

/-! ### NOP and GETSTAT (R101, R102) -/

theorem exec_nop (s : State) : exec .nop s = .next (answered s 0#32) := rfl

/-- Settles O23: either port may issue GETSTAT, and it only responds. -/
theorem getstatReadsStatus : Obligations.GetstatReadsStatus := fun _ => rfl

/-- The mask of bits 7:0 keeps nothing of a word whose low byte is 0. -/
theorem and_lowByte_eq_zero {w : CommandWord} (h : w.extractLsb' 0 8 = 0#8) : w &&& 0xFF#72 = 0#72 := by
  have hmod : w.toNat % 2 ^ 8 = 0 := by simpa using congrArg BitVec.toNat h
  apply BitVec.eq_of_toNat_eq
  rw [BitVec.toNat_and]
  exact (Nat.and_two_pow_sub_one_eq_mod w.toNat 8).trans hmod

/-- Settles O22: NOP uses the low byte alone (`wordDecodesIffUsedBitsMatch`), and operation 0 names no
channel (`violation_ne_none_iff`). -/
theorem nopDoesNothing : Obligations.NopDoesNothing := by
  refine ⟨exec_nop, fun w hw => ?_, fun w hop hbad => ?_⟩
  · rw [wordDecodesIffUsedBitsMatch]
    exact and_lowByte_eq_zero hw
  · rw [decode_error_iff, violation_ne_none_iff]
    refine .inr (hbad.imp_right fun hch => ⟨hch, ?_⟩)
    rw [show (fieldsOf w).op = 0#4 from hop]
    decide

/-! ### Permitted commands and STATUS (R103) -/

/-- Past the port check, a command that finds its channel initialised and its operands valid raises
nothing. -/
theorem accepted_status_of_permitted {i : Instr} {s t : State} (h : Accepted i s t)
    (hp : permitted i s = true) : t.status = s.status := by
  obtain ⟨-, hcheck⟩ := Bool.and_eq_true_iff.1 hp
  cases i with
  | init c fs x =>
    rcases h with ⟨n, -, rfl⟩ | ⟨hnone, -⟩
    · simp
    · simp [hnone] at hcheck
  | advance c | update c =>
    rcases h with ⟨-, rfl⟩ | ⟨hnot, -⟩
    · simp
    · simp [hnot] at hcheck
  | nop | getcur | sample | setlevels | encode | getdisp | getstat => cases h; rfl

theorem exec_status_of_permitted {i : Instr} {s t : State} (h : exec i s = .next t)
    (hp : permitted i s = true) : t.status = s.status := by
  rcases exec_cases h with ⟨hport, -⟩ | ⟨-, hacc⟩
  · simp [permitted, hport] at hp
  · exact accepted_status_of_permitted hacc hp

/-- With no error and both channels initialised, STATUS shows RDY0 and RDY1 alone (R21). -/
theorem statusWord_of_clean {s : State} (h : s.status.Clean) (hleft : s.left.ready = true)
    (hright : s.right.ready = true) : statusWord s = 0x00000030#32 := by
  obtain ⟨hill, hport, hinit, hconfig, hfirst⟩ := h
  rw [statusWord, hill, hport, hinit, hconfig, hfirst, hleft, hright]
  decide

/-- Settles O20: the permitted command keeps the clean STATUS, which GETSTAT then reads. -/
theorem conformingCommandsKeepStatusClean : Obligations.ConformingCommandsKeepStatusClean := by
  intro s p i w rest hclean hin hw hp
  obtain ⟨t, ht⟩ := exec_next i (s.acceptCommand p rest)
  have htclean : t.status.Clean := by
    rwa [exec_status_of_permitted ht hp, State.acceptCommand_status]
  refine ⟨t, ?_, htclean, fun hleft hright => ?_⟩
  · rw [step_command hin, execute_ok hw, ht]
  · rw [getstatReadsStatus, statusWord_of_clean htclean hleft hright]

/-! ### Independence of STATUS (R103) -/

/-- Two states that agree on all that a command but GETSTAT uses: every register but STATUS, the issuing
port and the responses given. -/
structure AgreeButStatus (s s' : State) : Prop where
  channel : ∀ c, s'.channel c = s.channel c
  enc : s'.enc = s.enc
  out : s'.out = s.out
  port : s'.port = s.port
  responses : s'.responses = s.responses

theorem agreeButStatus_status (s : State) (st st' : Status) :
    AgreeButStatus { s with status := st } { s with status := st' } :=
  ⟨fun c => by cases c <;> rfl, rfl, rfl, rfl, rfl⟩

section AgreeButStatus

variable {s s' : State} (h : AgreeButStatus s s')
include h

theorem AgreeButStatus.respond (code : BitVec 4) (data : BitVec 32) :
    AgreeButStatus (s.respond code data) (s'.respond code data) := by
  constructor <;> simp [h.channel, h.enc, h.out, h.port, h.responses]

theorem AgreeButStatus.raiseError (x : Cause) :
    AgreeButStatus (s.raiseError x) (s'.raiseError x) := by
  constructor <;> simp [h.channel, h.enc, h.out, h.port, h.responses]

theorem AgreeButStatus.setChannel (c : Chan) (k : Channel) :
    AgreeButStatus (s.setChannel c k) (s'.setChannel c k) where
  channel d := by
    by_cases hd : d = c
    · rw [hd, State.setChannel_channel_self, State.setChannel_channel_self]
    · rw [State.setChannel_channel_of_ne s hd, State.setChannel_channel_of_ne s' hd, h.channel]
  enc := by simp [h.enc]
  out := by simp [h.out]
  port := by simp [h.port]
  responses := by simp [h.responses]

theorem AgreeButStatus.setLevels (l r : F32) :
    AgreeButStatus (s.setLevels l r) (s'.setLevels l r) := by
  constructor <;> simp [h.channel, h.out, h.port, h.responses]

theorem AgreeButStatus.frame :
    AgreeButStatus { s with out := s.out ++ [quantize s.enc.lvlL, quantize s.enc.lvlR, 0#8] }
      { s' with out := s'.out ++ [quantize s'.enc.lvlL, quantize s'.enc.lvlR, 0#8] } where
  channel c := by cases c; exacts [h.channel .left, h.channel .right]
  enc := h.enc
  out := by simp [h.out, h.enc]
  port := h.port
  responses := h.responses

/-- A command but GETSTAT that passes the port check neither tests STATUS nor responds with it. -/
theorem AgreeButStatus.accepted {i : Instr} (hi : i ≠ .getstat) {t t' : State} (ht : Accepted i s t)
    (ht' : Accepted i s' t') : AgreeButStatus t t' := by
  cases i with
  | nop => cases ht; cases ht'; exact h.respond _ _
  | init c fs x =>
    rcases ht with ⟨n, hn, rfl⟩ | ⟨hn, rfl⟩ <;> rcases ht' with ⟨n', hn', rfl⟩ | ⟨hn', rfl⟩
    · obtain rfl : n' = n := Option.some.inj (hn'.symm.trans hn)
      exact (h.setChannel _ _).respond _ _
    · simp [hn] at hn'
    · simp [hn] at hn'
    · exact h.raiseError _
  | advance c | update c =>
    rcases ht with ⟨hr, rfl⟩ | ⟨hr, rfl⟩ <;> rcases ht' with ⟨hr', rfl⟩ | ⟨hr', rfl⟩
    · rw [h.channel]; exact (h.setChannel _ _).respond _ _
    · simp [h.channel, hr] at hr'
    · simp [h.channel, hr] at hr'
    · exact h.raiseError _
  | getcur c => cases ht; cases ht'; rw [h.channel]; exact h.respond _ _
  | sample =>
    cases ht; cases ht'
    rw [← State.channel_left s', ← State.channel_right s', h.channel, h.channel]
    exact (h.setLevels _ _).respond _ _
  | setlevels l r => cases ht; cases ht'; exact (h.setLevels l r).respond _ _
  | encode => cases ht; cases ht'; exact h.frame.respond _ _
  | getdisp => cases ht; cases ht'; rw [h.enc]; exact h.respond _ _
  | getstat => exact absurd rfl hi

theorem AgreeButStatus.exec {i : Instr} (hi : i ≠ .getstat) {t t' : State} (ht : exec i s = .next t)
    (ht' : exec i s' = .next t') : AgreeButStatus t t' := by
  rcases exec_cases ht with ⟨ha, rfl⟩ | ⟨ha, hacc⟩ <;>
    rcases exec_cases ht' with ⟨ha', rfl⟩ | ⟨ha', hacc'⟩
  · exact h.raiseError _
  · simp [h.port, ha] at ha'
  · simp [h.port, ha] at ha'
  · exact h.accepted hi hacc hacc'

end AgreeButStatus

/-- Settles O21: GETSTAT writes no register, and every other command takes states that differ only in
STATUS to such states. -/
theorem resultsIndependentOfStatus : Obligations.ResultsIndependentOfStatus := by
  intro s t i st st' ht
  obtain ⟨t', ht'⟩ := exec_next i { s with status := st' }
  refine ⟨t', ht', ?_⟩
  by_cases hi : i = .getstat
  · subst hi
    rw [getstatReadsStatus] at ht ht'
    cases ht
    cases ht'
    exact ⟨rfl, rfl, rfl, rfl, absurd rfl⟩
  · have hagree := (agreeButStatus_status s st st').exec hi ht ht'
    exact ⟨hagree.channel .left, hagree.channel .right, hagree.enc, hagree.out,
      fun _ => hagree.responses⟩

end Sys2Proof.Proofs
end

section
/-! PROOFS. Steps, errors and the ports (60_exceptions.md R104 to R108, R120). The step is the execution of the pending word (`step_command`); each error is one equation for `exec`, with the whole effect of R104; and STATUS follows the code of the response (`CommandEffect.status_of_response`). -/

open Sys2Proof Sys2Proof.Machine Sys2Proof.Certificates

namespace Sys2Proof.Proofs

/-! ### The step (R104, R120) -/

/-- Settles O6: `State.acceptCommand` writes the port and takes the input, and nothing else. -/
theorem stepRunsDecodedCommand : Obligations.StepRunsDecodedCommand := by
  intro s p w rest i hin hw
  rw [step_command hin, execute_ok hw, State.acceptCommand]

/-- Settles O8: the idle step. -/
theorem idleHoldsState : Obligations.IdleHoldsState := by
  intro s hin
  rw [step, hin]

/-- Settles O7: an idle step and the reset input answer by definition, a command by `execute_next`. -/
theorem stepAlwaysAnswersNext : Obligations.StepAlwaysAnswersNext := by
  intro s
  match hin : s.inputs with
  | [] => exact ⟨s, idleHoldsState s hin⟩
  | .reset :: rest => exact ⟨resetInput rest, by rw [step, hin]⟩
  | .command p w :: rest => rw [step_command hin]; exact execute_next w _

/-! ### STATUS and the code of the response (R104, R113) -/

/-- The code of the one response that was given is fixed by its word. -/
theorem RespondsOnce.code_eq {s t : State} {code code' : BitVec 4} {returnsData : Prop}
    (h : RespondsOnce s t code returnsData) {data : BitVec 32}
    (hresp : t.responses = s.responses ++ [{ port := s.port, word := responseWord code' data }]) :
    code = code' := by
  obtain ⟨d, hd, -⟩ := h
  have hword : responseWord code d = responseWord code' data := by
    simpa [responseWord] using hd.symm.trans hresp
  simpa using congrArg (·.extractLsb' 0 4) hword

/-- A command that responds with code 0 leaves STATUS, and one that responds with the code of an error
has recorded that error. -/
theorem CommandEffect.status_of_response {s t : State} {d : Except EncodingError Instr}
    (h : CommandEffect s d t) {code : BitVec 4} {returnsData : Prop}
    (hresp : RespondsOnce s t code returnsData) :
    t.status = if code = 0#4 then s.status else raisedStatus code s.status := by
  cases h with
  | error x =>
    rw [hresp.code_eq (State.raiseError_responses s x), if_neg (causeCode_ne_zero x),
      State.raiseError_status, recordFirst_setErrorBit]
  | answer data => rw [hresp.code_eq (State.respond_responses s 0#4 data)]; rfl
  | channel | levels | frame => rw [hresp.code_eq (code' := 0#4) (data := 0#32) (by simp)]; simp

/-- Settles O18: the response carries the expected code (`execute_respondsOnce`), and STATUS records
the code of the response. -/
theorem statusRecordsErrors : Obligations.StatusRecordsErrors := by
  intro s t p w rest hin hstep
  rw [step_command hin] at hstep
  have hstatus := (execute_effect hstep).status_of_response (execute_respondsOnce hstep)
  rwa [State.acceptCommand_port, expectedCode_acceptCommand, State.acceptCommand_status] at hstatus

/-! ### PortViolation (R106) -/

/-- A command that its port may not issue does nothing but raise PortViolation. -/
theorem exec_of_not_accepts {i : Instr} {s : State} (h : accepts s.port i = false) :
    exec i s = .next (raised s 2#4) := by
  obtain ⟨t, ht⟩ := exec_next i s
  rcases exec_cases ht with ⟨-, rfl⟩ | ⟨haccepts, -⟩
  · rw [ht, raiseError_eq_raised, causeCode]
  · simp [h] at haccepts

/-- Settles O14: none of the seven commands is accepted on the other port (R56). -/
theorem portViolations : Obligations.PortViolations := by
  refine fun s => ⟨fun hport c x y => ⟨?_, ?_, ?_⟩, fun hport x y => ⟨?_, ?_, ?_, ?_⟩⟩ <;>
    exact exec_of_not_accepts (by rw [hport]; rfl)

/-- Settles O52: a command that is not accepted raises an error and writes no register but STATUS; PE
accepts none that writes a channel, and PA none that writes a level or emits a byte. -/
theorem portsOwnTheirRegisters : Obligations.PortsOwnTheirRegisters := by
  intro i s t h
  rcases exec_cases h with ⟨-, rfl⟩ | ⟨haccepts, -⟩
  · exact ⟨fun _ => ⟨rfl, rfl⟩, fun _ => ⟨rfl, rfl⟩⟩
  · refine ⟨fun hport => ?_, fun hport => ?_⟩ <;> rw [hport] at haccepts
    · have hkeep (c : Chan) : t.channel c = s.channel c := by
        rcases exec_channel h c with heq | ⟨k, -, hwrite⟩
        · exact heq
        · cases hwrite <;> cases haccepts
      exact ⟨hkeep .left, hkeep .right⟩
    · refine ⟨exec_enc h (fun l r hi => ?_) fun hi => ?_, exec_out h fun hi => ?_⟩ <;>
        cases hi <;> cases haccepts

/-! ### NotInitialised (R107) -/

section NotReady

variable {s : State} {c : Chan} (hport : s.port = .pa) (hready : (s.channel c).ready = false)
include hport hready

theorem exec_advance_not_ready (n : U32) : exec (.advance c n) s = .next (raised s 3#4) := by
  rw [exec, execAdvance, guardPort_of_accepts _ (by rw [hport]; rfl),
    guardReady_of_not_ready _ hready, raiseError_eq_raised, causeCode]

theorem exec_update_not_ready (g : F32) : exec (.update c g) s = .next (raised s 3#4) := by
  rw [exec, execUpdate, guardPort_of_accepts _ (by rw [hport]; rfl),
    guardReady_of_not_ready _ hready, raiseError_eq_raised, causeCode]

end NotReady

/-- Settles O15: the two commands that test `ready` raise; GETCUR and SAMPLE do not test it; and a
channel that is not ready and fresh holds its reset values. -/
theorem notInitialisedErrors : Obligations.NotInitialisedErrors := by
  intro s c hready
  refine ⟨fun hport x => ⟨exec_advance_not_ready hport hready x,
    exec_update_not_ready hport hready x⟩, getcurReadsCurrent s c, sampleCopiesBoth s, fun hfresh => ?_⟩
  rw [hfresh hready]
  rfl

/-! ### ConfigError (R108) -/

theorem rateValid_iff {fs : F32} : rateValid fs = true ↔ isFinite fs = true ∧ 0 < value fs := by
  simp [rateValid, value_pos_iff]

theorem timeValid_iff {x : F32} : timeValid x = true ↔ isFinite x = true ∧ 0 ≤ value x := by
  simp [timeValid, value_nonneg_iff]

/-- INIT's checks are those of R67 on the exact values. -/
theorem configuredLength_eq_none_iff {fs x : F32} :
    configuredLength fs x = none ↔ ¬ InitOperandsValid fs x := by
  refine ⟨fun hnone hvalid => ?_, fun hinvalid => ?_⟩
  · rw [configuredLength_of_valid hvalid] at hnone
    cases hnone
  · refine if_neg fun hchecks => hinvalid ?_
    simp only [Bool.and_eq_true, decide_eq_true_eq] at hchecks
    obtain ⟨⟨hrate, htime⟩, hmax⟩ := hchecks
    obtain ⟨hfs, hfs0⟩ := rateValid_iff.1 hrate
    obtain ⟨hx, hx0⟩ := timeValid_iff.1 htime
    rw [rampLength_eq_ceil hfs0.le hx0] at hmax
    exact ⟨⟨hfs, hfs0⟩, ⟨hx, hx0⟩, hmax⟩

theorem exec_init_config_error {s : State} {c : Chan} {fs x : F32} (hport : s.port = .pa)
    (hnone : configuredLength fs x = none) : exec (.init c fs x) s = .next (raised s 4#4) := by
  rw [exec, execInit, guardPort_of_accepts _ (by rw [hport]; rfl), hnone]
  exact congrArg _ (raiseError_eq_raised s .configError)

/-- The response tells a command that is done from an error, whatever STATUS was. -/
theorem channelWritten_ne_raised (s : State) (c : Chan) (k : Channel) {code : BitVec 4}
    (hcode : code ≠ 0#4) : channelWritten s c k ≠ raised s code := by
  intro heq
  have hdone : RespondsOnce s (channelWritten s c k) 0#4 False :=
    respondsOnce_written (State.setChannel_port s c k) (State.setChannel_responses s c k) _
  exact hcode (hdone.code_eq (congrArg State.responses heq)).symm

/-- Settles O16: an INIT whose operands are valid is done and so does not answer with the error
(`channelWritten_ne_raised`); any other fails a check. -/
theorem configErrors : Obligations.ConfigErrors := by
  intro s c fs x hport
  refine ⟨fun herror hvalid => ?_, fun hinvalid => ?_⟩
  · rw [exec_init hport (configuredLength_of_valid hvalid)] at herror
    exact channelWritten_ne_raised s c _ (by decide) (Host.Outcome.next.inj herror)
  · exact exec_init_config_error hport (configuredLength_eq_none_iff.2 hinvalid)

end Sys2Proof.Proofs
end

section
/-! PROOFS. Reset and the block protocol (70_reset_and_hazards.md R121, R123, R127). What a TICK sends is said for every state (`after_tick`) and used at reset; two ADVANCEs are one on the channel alone (`advanceChannel_add`), and a second write of a channel hides the first. -/

open Sys2Proof Sys2Proof.Machine Sys2Proof.Certificates

namespace Sys2Proof.Proofs

/-! ### Two ADVANCEs (R127) -/

/-- ADVANCE by m and then by n samples, in or past the ramp, is ADVANCE by m + n: once the ramp has
landed there are no samples left, and before that the sum meets what is left exactly when n meets
what m leaves. -/
theorem advanceChannel_add (k : Channel) (m n : Nat) :
    advanceChannel (advanceChannel k m) n = advanceChannel k (m + n) := by
  rcases advanceChannel_eq k m with ⟨hm, heq⟩ | ⟨hm, heq⟩ <;> rw [heq]
  · rw [advanceChannel_of_cnt_le (Nat.zero_le n), advanceChannel_of_cnt_le (by omega)]
  · by_cases hn : k.cnt - m ≤ n
    · rw [advanceChannel_of_cnt_le hn, advanceChannel_of_cnt_le (by omega)]
    · rw [advanceChannel_of_lt_cnt (Nat.not_le.1 hn), advanceChannel_of_lt_cnt (by omega)]
      simp only [Nat.sub_sub]

/-- Of two writes of one channel only the second is seen. -/
theorem channelWritten_channelWritten_channel (s : State) (c d : Chan) (k k' : Channel) :
    (channelWritten (channelWritten s c k) c k').channel d = (channelWritten s c k').channel d := by
  by_cases hd : d = c
  · rw [hd, channelWritten_channel_self, channelWritten_channel_self]
  · simp only [channelWritten_channel_of_ne _ hd]

/-- Settles O29: the second ADVANCE finds the channel that the first wrote, still ready, and the two
counts add up without overflow. -/
theorem advancesAdd : Obligations.AdvancesAdd := by
  intro s c a b hport hready _ hsum
  have hsecond := exec_advance (s := channelWritten s c (advanceChannel (s.channel c) a.toNat)) (c := c)
    (by rw [channelWritten_port, hport])
    (by rw [channelWritten_channel_self, advanceChannel_ready, hready]) b
  rw [channelWritten_channel_self, advanceChannel_add, ← BitVec.toNat_add_of_lt hsum] at hsecond
  have hchannel (d : Chan) := channelWritten_channelWritten_channel s c d
    (advanceChannel (s.channel c) a.toNat) (advanceChannel (s.channel c) (a + b).toNat)
  exact ⟨_, _, _, exec_advance hport hready a, hsecond, exec_advance hport hready (a + b),
    hchannel .left, hchannel .right⟩

/-! ### The reset input (R121) -/

/-- Settles O12: the step on a pending reset is `resetInput`, in which no field of the state before
it but the inputs still to come is left. -/
theorem resetInputRestoresReset : Obligations.ResetInputRestoresReset := by
  intro s rest hin
  rw [step, hin]
  rfl

/-! ### Before any INIT (R123) -/

/-- A TICK (30_encoding.md R62) sends one frame of the channels' current values. -/
theorem after_tick (s : State) :
    ∃ t, after s ((expand .tick).map inputOfLine) = .next t ∧
      t.out = s.out ++ frameOf { lvlL := s.left.cur, lvlR := s.right.cur } :=
  ⟨_, (after_command (sampleCopiesBoth _ rfl)).trans (after_command (exec_encode rfl)), rfl⟩

/-- The floor lies below the clamp (41_quantizer_framer.md R85). -/
theorem quantize_floorDb : quantize Config.floorDb = 1#8 :=
  quantize_of_le_clampLo (isNaN_of_isFinite isFinite_floorDb) (by decide)

theorem frameOf_floorDb :
    frameOf { lvlL := Config.floorDb, lvlR := Config.floorDb } = [1#8, 1#8, 0#8] := by
  rw [frameOf, quantize_floorDb]
  rfl

/-- (-100.0 + -100.0) / 2 is exact (41_quantizer_framer.md R90). -/
theorem displayLevel_floorDb : displayLevel Config.floorDb Config.floorDb = Config.floorDb := by decide

/-- Settles O13: each command's own equation at the reset values; both channels hold the floor and
neither is ready. -/
theorem beforeAnyInit : Obligations.BeforeAnyInit := by
  refine ⟨fun p c => ?getcur, ?tick, ?getdisp, fun p => ?getstat, fun c n g => ?notReady⟩
  case getcur =>
    rw [getcurReadsCurrent]
    cases c <;> rfl
  case tick =>
    obtain ⟨t, ht, hout⟩ := after_tick State.reset
    exact ⟨t, ht, hout.trans frameOf_floorDb⟩
  case getdisp =>
    have hlevel : displayLevel State.reset.enc.lvlL State.reset.enc.lvlR = 0xC2C80000#32 :=
      displayLevel_floorDb
    obtain ⟨hexec, -⟩ := getdispBlends
    rw [hexec _ rfl, hlevel]
  case getstat =>
    obtain ⟨-, -, hzero, -⟩ := resetValues
    have hstatus : statusWord { State.reset with port := p } = 0#32 := hzero
    rw [getstatReadsStatus, hstatus]
  case notReady =>
    have hready : (({ State.reset with port := .pa } : State).channel c).ready = false := by
      cases c <;> rfl
    exact ⟨exec_advance_not_ready rfl hready n, exec_update_not_ready rfl hready g⟩

end Sys2Proof.Proofs
end
